-- ==== Sys2Proof/Word.lean ====
section
/-! DEFINITION. The word types of the sequencer (R5, R61, R28) and the one way this model builds a long vector. -/

namespace Sys2Proof

/-- A transport word and a command word: 32 bits (R5, R61, R90). -/
abbrev Word := BitVec 32

/-- A raw byte of a captured stream (R64). -/
abbrev Byte := BitVec 8

/-- A signed 8-bit sample, in two's complement: its value is `toInt` (R28). -/
abbrev Sample := BitVec 8

/-- The vector whose entry `i` is `f i`; written over a list so that Lean's kernel evaluates it in linear time. -/
def tabulate {α : Type} (n : Nat) (f : Fin n → α) : Vector α n :=
  ⟨((List.finRange n).map f).toArray, by simp⟩

@[simp] theorem tabulate_getElem {α : Type} (n : Nat) (f : Fin n → α) (i : Nat) (h : i < n) :
    (tabulate n f)[i] = f ⟨i, h⟩ := by
  simp [tabulate]

end Sys2Proof
end

