-- ==== Sys2Proof/Syntax.lean ====
section
/-! DEFINITION. The commands: one constructor per row of spec/opcode_table.json (R92), each operand at the width of its field. -/

namespace Sys2Proof

/-- A decoded command (R92 to R99). -/
inductive Instr where
  /-- R131: set CSMASK. -/
  | setcs (mask : BitVec 4)
  /-- R132: one 3-wire write cycle. -/
  | wrreg (addr : BitVec 8) (value : BitVec 16)
  /-- R150, kind none. -/
  | setpatNone
  /-- R150, kind ramp. -/
  | setpatRamp
  /-- R150, kind deskew. -/
  | setpatDeskew
  /-- R150, kind sync. -/
  | setpatSync
  /-- R150, kind custom. -/
  | setpatCustom
  /-- R150, kind dual. -/
  | setpatDual
  /-- R153: write the data-format register. -/
  | setfmt (invertMsb msbFirst : Bool)
  /-- R160: capture, read back, reshape. `chips` is a set of identifiers 0..7. -/
  | snap (chips : BitVec 8) (count : BitVec 16)
  /-- R180: the delay-register write. `chip` is an identifier 0..7. -/
  | dlytap (chip : BitVec 3) (tap : BitVec 8) (lanes : BitVec 4)
  /-- R210: one bit-slip pulse. -/
  | bitslip (chips : BitVec 8)
  /-- R186: the 32-tap sweep of one chip. -/
  | caltaps (chip : BitVec 3) (expected : BitVec 8)
  /-- R213: bit-slip until the sync pattern is seen. -/
  | sync (chips : BitVec 8) (expected : BitVec 8)
  /-- R219: the whole calibration. -/
  | cal (deskewExpected syncExpected : BitVec 8)
  deriving DecidableEq, Repr

/-- The pseudo-instruction CLRPAT (R119). -/
def Instr.clrpat : Instr := .setpatNone

/-- The pseudo-instruction SELALL (R119). -/
def Instr.selall : Instr := .setcs 0b1111

/-- The pseudo-instruction SELCHIP (R119), for a valid chip. -/
def Instr.selchip (c : Fin 4) : Instr := .setcs (1#4 <<< c.val)

/-- The pseudo-instruction SNAP1 (R119). -/
def Instr.snap1 (c : Fin 4) : Instr := .snap (1#8 <<< c.val) 1

/-- CALTAPS with the default expected byte of R118. -/
def Instr.caltapsDefault (chip : BitVec 3) : Instr := .caltaps chip 0x2a

/-- SYNC with the default expected byte of R118. -/
def Instr.syncDefault (chips : BitVec 8) : Instr := .sync chips 0x70

/-- CAL with the default expected bytes of R118. -/
def Instr.calDefault : Instr := .cal 0x2a 0x70

end Sys2Proof
end

