-- ==== Sys2Proof/WellFormed.lean ====
section
/-! DEFINITION. Which commands name only chips that exist (R111). Field ranges hold by the types of the operands; an ill-formed
command has an encoding and raises InvalidChipIdentifier when it runs (R232). -/

namespace Sys2Proof

/-- A `chip` identifier is valid iff it is at most 3 (R110, R111). -/
abbrev chipValid (chip : BitVec 3) : Prop := chip.toNat ≤ 3

/-- A `chips` set is valid iff its bits 7..4 are 0 (R110, R111). -/
abbrev chipsValid (chips : BitVec 8) : Prop := chips.extractLsb' 4 4 = 0#4

/-- Every chip the command names exists. Commands without a chip operand are always well-formed (R232). -/
def Instr.wellFormed : Instr → Bool
  | .setcs _ => true
  | .wrreg _ _ => true
  | .setpatNone => true
  | .setpatRamp => true
  | .setpatDeskew => true
  | .setpatSync => true
  | .setpatCustom => true
  | .setpatDual => true
  | .setfmt _ _ => true
  | .snap chips _ => decide (chipsValid chips)
  | .dlytap chip _ _ => decide (chipValid chip)
  | .bitslip chips => decide (chipsValid chips)
  | .caltaps chip _ => decide (chipValid chip)
  | .sync chips _ => decide (chipsValid chips)
  | .cal _ _ => true

end Sys2Proof
end

