-- ==== Sys2Proof/Decode.lean ====
section
/-! DEFINITION. Decoding a 32-bit command word (R90 to R99, R112), total and rejecting by name, and the encoder written from the
same formats. -/

namespace Sys2Proof

/-- Why a word is no command (R112). All three raise IllegalCommand (R231). -/
inductive DecodeError where
  /-- `op` is not 0x01..0x0A. -/
  | unknownOp
  /-- A reserved bit of the format is 1. -/
  | reservedBit
  /-- SETPAT kind 6 or 7. -/
  | unknownKind
  deriving DecidableEq, Repr

/-- The command, if the reserved field is 0 (R91). -/
def ifReservedZero {n : Nat} (reserved : BitVec n) (i : Instr) : Except DecodeError Instr :=
  if reserved = 0#n then .ok i else .error .reservedBit

/-- Format K's kind field (R95). -/
def decodeKind (kind : BitVec 3) : Except DecodeError Instr :=
  match kind.toNat with
  | 0 => .ok .setpatNone
  | 1 => .ok .setpatRamp
  | 2 => .ok .setpatDeskew
  | 3 => .ok .setpatSync
  | 4 => .ok .setpatCustom
  | 5 => .ok .setpatDual
  | _ => .error .unknownKind

/-- Format K (R95): reserved bits first, then the kind. -/
def decodeSetpat (w : Word) : Except DecodeError Instr :=
  if w.extractLsb' 3 21 = 0#21 then decodeKind (w.extractLsb' 0 3) else .error .reservedBit

/-- Decode a command word (R91 to R99). -/
def decode (w : Word) : Except DecodeError Instr :=
  match (w.extractLsb' 24 8).toNat with
  | 0x01 => ifReservedZero (w.extractLsb' 4 20) (.setcs (w.extractLsb' 0 4))
  | 0x02 => .ok (.wrreg (w.extractLsb' 16 8) (w.extractLsb' 0 16))
  | 0x03 => decodeSetpat w
  | 0x04 => ifReservedZero (w.extractLsb' 2 22) (.setfmt (w.getLsbD 0) (w.getLsbD 1))
  | 0x05 => .ok (.snap (w.extractLsb' 16 8) (w.extractLsb' 0 16))
  | 0x06 => ifReservedZero (w.extractLsb' 19 5 ++ w.extractLsb' 12 4)
      (.dlytap (w.extractLsb' 16 3) (w.extractLsb' 0 8) (w.extractLsb' 8 4))
  | 0x07 => ifReservedZero (w.extractLsb' 0 16) (.bitslip (w.extractLsb' 16 8))
  | 0x08 => ifReservedZero (w.extractLsb' 19 5 ++ w.extractLsb' 8 8) (.caltaps (w.extractLsb' 16 3) (w.extractLsb' 0 8))
  | 0x09 => ifReservedZero (w.extractLsb' 8 8) (.sync (w.extractLsb' 16 8) (w.extractLsb' 0 8))
  | 0x0A => ifReservedZero (w.extractLsb' 16 8) (.cal (w.extractLsb' 8 8) (w.extractLsb' 0 8))
  | _ => .error .unknownOp

/-- The word of a command (R93 to R99), fields from the most significant down, reserved bits 0. -/
def encode : Instr → Word
  | .setcs mask => 0x01#8 ++ 0#20 ++ mask
  | .wrreg addr value => 0x02#8 ++ addr ++ value
  | .setpatNone => 0x03#8 ++ 0#21 ++ 0#3
  | .setpatRamp => 0x03#8 ++ 0#21 ++ 1#3
  | .setpatDeskew => 0x03#8 ++ 0#21 ++ 2#3
  | .setpatSync => 0x03#8 ++ 0#21 ++ 3#3
  | .setpatCustom => 0x03#8 ++ 0#21 ++ 4#3
  | .setpatDual => 0x03#8 ++ 0#21 ++ 5#3
  | .setfmt invertMsb msbFirst => 0x04#8 ++ 0#22 ++ BitVec.ofBool msbFirst ++ BitVec.ofBool invertMsb
  | .snap chips count => 0x05#8 ++ chips ++ count
  | .dlytap chip tap lanes => 0x06#8 ++ 0#5 ++ chip ++ 0#4 ++ lanes ++ tap
  | .bitslip chips => 0x07#8 ++ chips ++ 0#16
  | .caltaps chip expected => 0x08#8 ++ 0#5 ++ chip ++ 0#8 ++ expected
  | .sync chips expected => 0x09#8 ++ chips ++ 0#8 ++ expected
  | .cal deskewExpected syncExpected => 0x0A#8 ++ 0#8 ++ deskewExpected ++ syncExpected

/-- A row of spec/opcode_table.json: a word belongs to it iff `word &&& mask = pattern`. -/
structure OpcodeRow where
  pattern : Word
  mask : Word
  deriving DecidableEq, Repr

/-- The row of the opcode table a command belongs to. -/
def Instr.row : Instr → OpcodeRow
  | .setcs _ => ⟨0x01000000, 0xFFFFFFF0⟩
  | .wrreg _ _ => ⟨0x02000000, 0xFF000000⟩
  | .setpatNone => ⟨0x03000000, 0xFFFFFFFF⟩
  | .setpatRamp => ⟨0x03000001, 0xFFFFFFFF⟩
  | .setpatDeskew => ⟨0x03000002, 0xFFFFFFFF⟩
  | .setpatSync => ⟨0x03000003, 0xFFFFFFFF⟩
  | .setpatCustom => ⟨0x03000004, 0xFFFFFFFF⟩
  | .setpatDual => ⟨0x03000005, 0xFFFFFFFF⟩
  | .setfmt _ _ => ⟨0x04000000, 0xFFFFFFFC⟩
  | .snap _ _ => ⟨0x05000000, 0xFF000000⟩
  | .dlytap _ _ _ => ⟨0x06000000, 0xFFF8F000⟩
  | .bitslip _ => ⟨0x07000000, 0xFF00FFFF⟩
  | .caltaps _ _ => ⟨0x08000000, 0xFFF8FF00⟩
  | .sync _ _ => ⟨0x09000000, 0xFF00FF00⟩
  | .cal _ _ => ⟨0x0A000000, 0xFFFF0000⟩

/-- All fifteen rows, in the table's order. -/
def opcodeTable : List OpcodeRow :=
  [Instr.row (.setcs 0), Instr.row (.wrreg 0 0), Instr.row .setpatNone, Instr.row .setpatRamp, Instr.row .setpatDeskew,
    Instr.row .setpatSync, Instr.row .setpatCustom, Instr.row .setpatDual, Instr.row (.setfmt false false),
    Instr.row (.snap 0 0), Instr.row (.dlytap 0 0 0), Instr.row (.bitslip 0), Instr.row (.caltaps 0 0),
    Instr.row (.sync 0 0), Instr.row (.cal 0 0)]

/-- The command the decoder reads from an instruction of `nbits` bits whose bits are `w`, bit 0 the least significant bit of the
one word a command has (R90); bits from `nbits` up are 0. -/
def decodeTableWord (nbits w : Nat) : Option Instr :=
  match decode (BitVec.ofNat 32 (w % 2 ^ nbits)) with
  | .ok i => some i
  | .error _ => none

end Sys2Proof
end

