-- ==== Sys2Proof/Machine/Flags.lean ====
section
/-! DEFINITION. The data the sequencer computes on: sign conversion (R10, R165), the sweep's mismatch counts and good-tap
predicate (R188 to R190), and the tap selection (R191 to R193). The design has no condition codes (R22). -/

namespace Sys2Proof.Machine

/-- The sign conversion of a raw byte (R10, R165): `((v + 128) mod 256) - 128`. -/
def conv (v : Byte) : Sample := BitVec.ofInt 8 (((v.toNat : Int) + 128) % 256 - 128)

/-- Row `r` of the sweep's 8-row, 128-column view of a byte stream (R188). -/
def row8 (raw : List Byte) (r : Nat) : List Byte := (raw.drop (128 * r)).take 128

/-- How many samples of row `r` differ from the expected byte (R189). -/
def mismatches (raw : List Byte) (r : Nat) (expect : Sample) : Nat :=
  (row8 raw r).countP fun b => decide (conv b ≠ expect)

/-- The even count of logical lane `L`: row `L` of the 8-row view (R188, R189). -/
def evenCount (raw : List Byte) (lane : Fin 4) (expect : Sample) : BitVec 8 :=
  BitVec.ofNat 8 (mismatches raw lane.val expect)

/-- The odd count of logical lane `L`: row `L + 4` of the 8-row view (R188, R189). -/
def oddCount (raw : List Byte) (lane : Fin 4) (expect : Sample) : BitVec 8 :=
  BitVec.ofNat 8 (mismatches raw (lane.val + 4) expect)

/-- The arbiter (R189, R190): a tap is good when both counts are zero. -/
def goodTap (even odd : BitVec 8) : Bool := decide (even = 0) && decide (odd = 0)

/-- A 32-bit map with bit `t` replaced by `b`. -/
def setMapBit (g : BitVec 32) (t : Nat) (b : Bool) : BitVec 32 :=
  (g &&& ~~~(1#32 <<< t)) ||| ((BitVec.ofBool b).setWidth 32 <<< t)

/-- The good-tap list of a GOOD map: its set bits, ascending (R34, R190). -/
def tapsOf (g : BitVec 32) : List Nat := (List.range 32).filter fun t => g.getLsbD t

/-- The largest element (0 for the empty list). -/
def maxOf (g : List Nat) : Nat := g.foldr max 0

/-- The smallest element (0 for the empty list). -/
def minOf : List Nat → Nat
  | [] => 0
  | t :: g => g.foldr min t

/-- `Rotate(G)` (R192): a list wider than 16 has 32 added to its taps below 16 and is sorted again. -/
def rotate (g : List Nat) : List Nat :=
  if maxOf g - minOf g > 16 then (g.map fun t => if t < 16 then t + 32 else t).insertionSort (· ≤ ·) else g

/-- The selected tap (R193): the element at index `length div 2` of the possibly rotated list, reduced mod 32. -/
def selectTap (g : List Nat) : BitVec 5 := BitVec.ofNat 5 ((rotate g).getD ((rotate g).length / 2) 0 % 32)

end Sys2Proof.Machine
end

