-- ==== Sys2Proof/Machine/Registers.lean ====
section
/-! DEFINITION. The plain data types of the sequencer's registers, of the device behind the register transport and of the
environment's inputs (10_state.md, 20_memory.md). -/

namespace Sys2Proof.Machine

/-- `PHASE`, the bit-banger's state (R26, R135). -/
inductive Phase where
  | idle | low | high | post
  deriving DecidableEq, Repr, Inhabited

/-- The order in which a transport word yields its bytes (R6, R64). -/
inductive ByteOrder where
  | big | little
  deriving DecidableEq, Repr, Inhabited

/-- One operation of the transport port, with its operands (R61): `TWrite`, `TRead`, `TReadBlock`. -/
inductive TOp where
  | write (region : String) (index : Nat) (word : Word)
  | read (region : String) (index : Nat)
  | readBlock (region : String) (offset length : Nat)
  deriving DecidableEq, Repr, Inhabited

/-- What the environment answers when a transport operation is about to be issued.
`completes` and `fails` are the two outcomes of R61 and R80; `landed` says whether a failing operation took effect (R80: "may
or may not have taken effect"). `resetFirst` is the host asserting reset at this boundary: the operation is not issued (R260). -/
inductive PortAnswer where
  | completes
  | fails (landed : Bool)
  | resetFirst
  deriving DecidableEq, Repr, Inhabited

/-- The content of one capture as plain data (R79): word `i` of chip `c` is `words[c][i]`, and `fill` where that list has ended. -/
structure Capture where
  words : Vector (List Word) 4
  fill : Word
  deriving DecidableEq, Repr, Inhabited

/-- The fault registers (R25). `halt` is HALT, `err` is ERR, `errcp` is ERRCP, `errop` is ERROP. -/
structure FaultRegs where
  halt : Bool
  err : BitVec 2
  errcp : Nat
  errop : Nat
  deriving DecidableEq, Repr, Inhabited

/-- The working registers of the state machines (R26, R27). -/
structure Work where
  phase : Phase
  sr : BitVec 24
  bitidx : BitVec 5
  substep : Nat
  tapidx : BitVec 5
  curchip : Fin 4
  expect : Sample
  evcnt : Vector (BitVec 8) 4
  odcnt : Vector (BitVec 8) 4
  attempt : BitVec 4
  raw : List Byte
  deriving DecidableEq, Repr, Inhabited

/-- The result registers (R28 to R36). `samples[c][L][k]` is SAMPLES, `errcnt[L][t]` is the pair (even, odd) of ERRCNT. -/
structure Results where
  samples : Vector (Vector (Vector Sample 1024) 4) 4
  sampleLen : BitVec 11
  sampleValid : BitVec 4
  errcnt : Vector (Vector (BitVec 8 × BitVec 8) 32) 4
  good : Vector (BitVec 32) 4
  calValid : Bool
  calChip : Fin 4
  syncok : Vector Bool 4
  syncValid : BitVec 4
  deriving DecidableEq, Repr, Inhabited

/-- The device-side state of one ADC chip and its deserializer: ADCREG (R43), RXSR and RXCNT (R44), TAP (R46), SLIP (R47). -/
structure Chip where
  adcreg : Vector (BitVec 16) 256
  rxsr : BitVec 24
  rxcnt : Nat
  tap : Vector (BitVec 5) 4
  slip : Nat
  deriving DecidableEq, Repr, Inhabited

/-- The capture buffer's bytes: (address, byte) cells in rising address order, none of them 0 (R42; the form is `Memory.Wf`). -/
abbrev Memory := List Host.Cell

/-- The device behind the transport (R40 to R47). `captures` counts the captures so far, an input of the oracle (R79). -/
structure Device where
  ctrl0 : Word
  ctrl1 : Word
  prev0 : Word
  prev1 : Word
  capbuf : Memory
  chips : Vector Chip 4
  captures : Nat
  deriving DecidableEq, Repr, Inhabited

/-- The environment's inputs, as lists the step reads from the front: the answers to the coming transport operations (R80, R260)
and the contents of the coming captures (R79). Where a list has ended, the value is an opaque constant of Config. `draws` feeds
those constants a fresh argument; `resetLine` is the host's reset input between commands (R268). -/
structure Env where
  answers : List PortAnswer
  captures : List Capture
  draws : Nat
  resetLine : Bool
  deriving DecidableEq, Repr, Inhabited

end Sys2Proof.Machine
end

