-- ==== Sys2Proof/Machine/Memory.lean ====
section
/-! DEFINITION. Memory: the bytes of the capture buffer (R42, R62) as rising (address, byte) cells, and the byte order (R64). -/

namespace Sys2Proof.Machine

/-- Every cell's address is at least `lo`, addresses rise strictly, and no cell holds 0, what an unlisted address reads as. -/
def Memory.wfFrom : Nat → Memory → Bool
  | _, [] => true
  | lo, (a, b) :: m => decide (lo ≤ a) && decide (b ≠ 0) && Memory.wfFrom (a + 1) m

/-- The canonical form of memory. -/
def Memory.wf (m : Memory) : Bool := Memory.wfFrom 0 m

/-- The byte at an address; an unlisted address reads as 0 (log 7). -/
def Memory.read : Memory → Nat → Byte
  | [], _ => 0
  | (x, b) :: m, a => if x = a then b else if a < x then 0 else Memory.read m a

/-- Memory with byte `b` at address `a`; writing 0, what an unlisted address reads as, removes the cell. -/
def Memory.write (a : Nat) (b : Byte) : Memory → Memory
  | [] => if b = 0 then [] else [(a, b)]
  | (x, c) :: m =>
    if x < a then (x, c) :: Memory.write a b m
    else (if b = 0 then [] else [(a, b)]) ++ if x = a then m else (x, c) :: m

/-- The canonical memory that holds `f a` at the last `n` addresses `a` below `top`, and nothing else. -/
def Memory.fillBelow (f : Nat → Byte) (top : Nat) : Nat → Memory
  | 0 => []
  | n + 1 =>
    if f (top - (n + 1)) = 0 then Memory.fillBelow f top n
    else (top - (n + 1), f (top - (n + 1))) :: Memory.fillBelow f top n

/-- The bytes at the last `n` addresses below `top`, in rising order. -/
def Memory.readBelow (top : Nat) : Nat → Memory → List Byte
  | 0, _ => []
  | n + 1, m => Memory.read m (top - (n + 1)) :: Memory.readBelow top n (m.dropWhile fun c => decide (c.1 ≤ top - (n + 1)))

/-- Byte `j` of a word's four bytes in the stream (R64). -/
def ByteOrder.byteOf : ByteOrder → Word → Nat → Byte
  | .big, w, j => w.extractLsb' (8 * (3 - j)) 8
  | .little, w, j => w.extractLsb' (8 * j) 8

/-- The word whose four stream bytes are `b0 b1 b2 b3` (R64). -/
def ByteOrder.wordOf : ByteOrder → Byte → Byte → Byte → Byte → Word
  | .big, b0, b1, b2, b3 => b0 ++ b1 ++ b2 ++ b3
  | .little, b0, b1, b2, b3 => b3 ++ b2 ++ b1 ++ b0

/-- Memory with word `w` at word index `i`: its four stream bytes at 4 `i` to 4 `i` + 3 (R62, R64; log 19). -/
def Memory.writeWord (o : ByteOrder) (i : Nat) (w : Word) (m : Memory) : Memory :=
  Memory.write (4 * i + 3) (o.byteOf w 3) (Memory.write (4 * i + 2) (o.byteOf w 2)
    (Memory.write (4 * i + 1) (o.byteOf w 1) (Memory.write (4 * i) (o.byteOf w 0) m)))

/-- The words of a byte run whose length is a multiple of 4. -/
def ByteOrder.toWords (o : ByteOrder) : List Byte → List Word
  | b0 :: b1 :: b2 :: b3 :: bs => o.wordOf b0 b1 b2 b3 :: ByteOrder.toWords o bs
  | _ => []

/-- The byte stream of a block of words (R64): `B[4i + j]` is byte `j` of word `i`. -/
def ByteOrder.toBytes (o : ByteOrder) (ws : List Word) : List Byte :=
  ws.flatMap fun w => [o.byteOf w 0, o.byteOf w 1, o.byteOf w 2, o.byteOf w 3]

/-- Word `i` of chip `c` in a capture given as data. -/
def Capture.word (k : Capture) (c : Fin 4) (i : Nat) : Word := k.words[c][i]?.getD k.fill

/-- How many words one chip's part of CAPBUF has: MAXSAMP and STRIDE of R5. -/
def stride : Nat := 1024

/-- The bytes of CAPBUF: 4 chips of `stride` words (R42). -/
def capbufBytes : Nat := 4 * (4 * stride)

/-- The chip whose part of CAPBUF holds byte address `a` (R42). -/
def chipOfByte (a : Nat) : Fin 4 := Fin.ofNat 4 (a / (4 * stride))

/-- The byte a capture with words `oracle` puts at byte address `a` of CAPBUF (R42, R64, R75; log 19). -/
def captureByte (o : ByteOrder) (oracle : Fin 4 → Nat → Word) (a : Nat) : Byte :=
  o.byteOf (oracle (chipOfByte a) (a / 4 % stride)) (a % 4)

/-- CAPBUF after a capture: all 4096 words replaced (R75). -/
def captureMemory (o : ByteOrder) (oracle : Fin 4 → Nat → Word) : Memory :=
  Memory.fillBelow (captureByte o oracle) capbufBytes capbufBytes

end Sys2Proof.Machine
end

