-- ==== Sys2Proof/Config.lean ====
section
/-! DEFINITION. What an implementation fixes (the named parameters of R6) and the free values (opaque constants, no body). -/

namespace Sys2Proof

open Machine

/-- The named parameters of R6. A state carries them (`State.params`), so a statement about every state holds for every choice. -/
structure Params where
  regionCtrl : String
  idxSer : Nat
  idxCap : Nat
  regionCap : String
  sclkBit : Nat
  sdataBit : Nat
  csLsb : Nat
  snapBit : Nat
  bitslipLsb : Nat
  tapLsb : Nat
  rstLsb : Nat
  patRegA : BitVec 8
  patRegB : BitVec 8
  fmtReg : BitVec 8
  byteOrder : ByteOrder
  deriving DecidableEq, Repr, Inhabited

/-- The field of `m` bits from bit `a` up and the field of `n` bits from bit `b` up share no bit. -/
abbrev FieldsApart (a m b n : Nat) : Prop := a + m ≤ b ∨ b + n ≤ a

/-- The constraint on CTRL0's fields in R6: clock and data lie in 0..31, outside the chip-select field and apart. -/
abbrev Params.Ctrl0Wf (p : Params) : Prop :=
  p.sclkBit ≤ 31 ∧ p.sdataBit ≤ 31 ∧ p.csLsb ≤ 28 ∧ p.sclkBit ≠ p.sdataBit ∧
  FieldsApart p.sclkBit 1 p.csLsb 4 ∧ FieldsApart p.sdataBit 1 p.csLsb 4

/-- The constraint on CTRL1's fields in R6: the four fields lie inside the word and do not overlap. -/
abbrev Params.Ctrl1Wf (p : Params) : Prop :=
  p.snapBit ≤ 31 ∧ p.bitslipLsb ≤ 28 ∧ p.tapLsb ≤ 27 ∧ p.rstLsb ≤ 16 ∧
  FieldsApart p.snapBit 1 p.bitslipLsb 4 ∧ FieldsApart p.snapBit 1 p.tapLsb 5 ∧ FieldsApart p.snapBit 1 p.rstLsb 16 ∧
  FieldsApart p.bitslipLsb 4 p.tapLsb 5 ∧ FieldsApart p.bitslipLsb 4 p.rstLsb 16 ∧ FieldsApart p.tapLsb 5 p.rstLsb 16

/-- Every constraint of R6's last column. -/
abbrev Params.Wf (p : Params) : Prop :=
  p.regionCtrl ≠ p.regionCap ∧ p.idxSer ≠ p.idxCap ∧ p.Ctrl0Wf ∧ p.Ctrl1Wf ∧ p.patRegA ≠ p.patRegB

/-- FREE VALUE (R80, R260; log 2): the environment's answer to the `n`-th operation after State's list of answers has ended. -/
opaque Config.portAnswer (n : Nat) (op : TOp) : PortAnswer

/-- FREE VALUE (R79; log 3): word `i` of chip `c` in the capture the device takes in state `d`, after State's list of captures
has ended. `d` includes the number of captures so far. -/
opaque Config.captureWord (d : Device) (c : Fin 4) (i : Nat) : Word

/-- FREE VALUE (R37, U2; log 8): every result register after a fault, but for the limit R236 sets on
the valid flags. -/
opaque Config.freeResults (n : Nat) : Results

/-- FREE VALUE (R28, R166; log 9): entry `[c][L][k]` of SAMPLES that a capture leaves unspecified. -/
opaque Config.freeSample (n c L k : Nat) : Sample

/-- FREE VALUE (R36, U11; log 9): SYNCOK of a chip that the last SYNC did not cover. -/
opaque Config.freeBit (n c : Nat) : Bool

end Sys2Proof
end

