-- ==== Sys2Proof/Machine/Operands.lean ====
section
/-! DEFINITION. Operand assembly (R110, R111), the words the sequencer writes to CTRL0 and CTRL1 (R100 to R102), and the values
it writes to the ADC's registers (R105, R106). -/

namespace Sys2Proof.Machine

/-- `clamp` of R9. -/
def clamp (x lo hi : Nat) : Nat := if x < lo then lo else if hi < x then hi else x

/-- SNAP's `count` clamped into 1..1024 (R110, R161). -/
def clampCount (count : BitVec 16) : Nat := clamp count.toNat 1 1024

/-- DLYTAP's `tap` clamped into 0..31 (R110): saturation, not masking. -/
def clampTap (tap : BitVec 8) : BitVec 5 := BitVec.ofNat 5 (clamp tap.toNat 0 31)

/-- The chip an identifier names, if it exists (R111). -/
def chipOf (chip : BitVec 3) : Option (Fin 4) :=
  if h : chip.toNat < 4 then some ⟨chip.toNat, h⟩ else none

/-- The 4-bit chip mask of a set of identifiers, if all exist (R111, R12). -/
def chipSetOf (chips : BitVec 8) : Option (BitVec 4) :=
  if chips.extractLsb' 4 4 = 0#4 then some (chips.extractLsb' 0 4) else none

/-- `sext_8` of an `expected` field (R110): the same eight bits, read as a signed number. -/
def expectedOf (field : BitVec 8) : Sample := field

/-- The mask of one chip, and of one lane (R12). -/
def oneOf (i : Fin 4) : BitVec 4 := 1#4 <<< i.val

/-- `rev4`, the lane-bit reversal (R10, R181). -/
def rev4 (m : BitVec 4) : BitVec 4 :=
  BitVec.ofBool (m.getLsbD 0) ++ BitVec.ofBool (m.getLsbD 1) ++ BitVec.ofBool (m.getLsbD 2) ++ BitVec.ofBool (m.getLsbD 3)

/-- The serial frame `addr ∥ value` (R101). -/
def frame (addr : BitVec 8) (value : BitVec 16) : BitVec 24 := addr ++ value

/-- `csn`: the chip selects are active low (R100, R134). -/
def csnOf (csmask : BitVec 4) : BitVec 4 := ~~~csmask

/-- A 4-bit field placed at bit `lsb` of a word. -/
def field4 (v : BitVec 4) (lsb : Nat) : Word := v.setWidth 32 <<< lsb

/-- A single bit placed at bit `i` of a word. -/
def bitAt (b : Bool) (i : Nat) : Word := (BitVec.ofBool b).setWidth 32 <<< i

/-- `IDLE_WORD` (R100): clock 0, data 0 (log 18), all selects high. -/
def idleWord (p : Params) : Word := field4 0b1111 p.csLsb

/-- `LO(b)` (R100). -/
def loWord (p : Params) (csmask : BitVec 4) (b : Bool) : Word := bitAt b p.sdataBit ||| field4 (csnOf csmask) p.csLsb

/-- `HI(b)` (R100). -/
def hiWord (p : Params) (csmask : BitVec 4) (b : Bool) : Word := bitAt true p.sclkBit ||| loWord p csmask b

/-- `ZERO` (R102). -/
def zeroWord : Word := 0

/-- `TRIG` (R102). -/
def trigWord (p : Params) : Word := bitAt true p.snapBit

/-- `SLIPW(chips)` (R102). -/
def slipWord (p : Params) (chips : BitVec 4) : Word := field4 chips p.bitslipLsb

/-- `TAPW(t)` (R102). -/
def tapWord (p : Params) (t : BitVec 5) : Word := t.setWidth 32 <<< p.tapLsb

/-- `TAPRST(t, c, m)` (R102), for logical lane mask `m`. -/
def tapResetWord (p : Params) (t : BitVec 5) (c : Fin 4) (m : BitVec 4) : Word :=
  tapWord p t ||| field4 (rev4 m) (p.rstLsb + 4 * c.val)

/-- SETPAT's kinds (R95, R150). -/
inductive PatKind where
  | none | ramp | deskew | sync | custom | dual
  deriving DecidableEq, Repr

/-- The setting write of a pattern kind, if it has one (R105, R150). -/
def patternWrite (p : Params) : PatKind → List (BitVec 8 × BitVec 16)
  | .none => []
  | .ramp => [(p.patRegA, 0x0040)]
  | .deskew => [(p.patRegB, 0x0001)]
  | .sync => [(p.patRegB, 0x0002)]
  | .custom => [(p.patRegA, 0x0010)]
  | .dual => [(p.patRegA, 0x0020)]

/-- SETPAT's serial writes in order (R150): clear A, clear B, then the setting write. -/
def patternWrites (p : Params) (kind : PatKind) : List (BitVec 8 × BitVec 16) :=
  (p.patRegA, 0x0000) :: (p.patRegB, 0x0000) :: patternWrite p kind

/-- The value of the data-format register (R106): bit 2 is `invert_msb`, bit 3 is `msb_first`. -/
def formatValue (invertMsb msbFirst : Bool) : BitVec 16 :=
  (BitVec.ofBool invertMsb).setWidth 16 <<< 2 ||| (BitVec.ofBool msbFirst).setWidth 16 <<< 3

end Sys2Proof.Machine
end

