-- ==== Sys2Proof/Machine/Device.lean ====
section
/-! DEFINITION. The device reference model behind the transport (R72 to R77): what one completed write to CTRL0 or CTRL1 does. -/

namespace Sys2Proof.Machine

/-- Bit `i` goes 0 → 1 between the previous word and the new one (R72, R75 to R77). -/
def rises (prev w : Word) (i : Nat) : Bool := !prev.getLsbD i && w.getLsbD i

/-- Chip `c` is selected by a CTRL0 word: its select bit is 0 (R40, R73). -/
def selects (p : Params) (w : Word) (c : Fin 4) : Bool := !w.getLsbD (p.csLsb + c.val)

/-- The first `if` of R73: a frame opens. -/
def Chip.openFrame (ch : Chip) : Chip := { ch with rxcnt := 0 }

/-- The second `if` of R73: one bit is shifted in and the count saturates at 25. -/
def Chip.shiftIn (b : Bool) (ch : Chip) : Chip :=
  { ch with rxsr := ch.rxsr <<< 1 ||| (BitVec.ofBool b).setWidth 24, rxcnt := min (ch.rxcnt + 1) 25 }

/-- A 24-bit frame is latched: the register at the frame's address takes the frame's value (R73). -/
def Chip.latch (ch : Chip) : Chip :=
  { ch with adcreg := ch.adcreg.set (ch.rxsr.extractLsb' 16 8).toNat (ch.rxsr.extractLsb' 0 16) (ch.rxsr.extractLsb' 16 8).isLt }

/-- The third `if` of R73: a frame closes; it is latched if it had exactly 24 bits. -/
def Chip.closeFrame (ch : Chip) : Chip :=
  { (if ch.rxcnt = 24 then ch.latch else ch) with rxcnt := 0 }

/-- The three `if`s of R73 in order, for a chip that was selected (`psel`), is selected (`sel`) and sees a clock edge (`rise`) with
data bit `b`. -/
def Chip.clocked (psel sel rise b : Bool) (ch : Chip) : Chip :=
  let opened := if sel && !psel then ch.openFrame else ch
  let shifted := if rise && sel then opened.shiftIn b else opened
  if psel && !sel then shifted.closeFrame else shifted

/-- The serial receiver of chip `c` on a write of `w` to CTRL0 (R73). -/
def Chip.receive (p : Params) (prev w : Word) (c : Fin 4) (ch : Chip) : Chip :=
  ch.clocked (selects p prev c) (selects p w c) (rises prev w p.sclkBit) (w.getLsbD p.sdataBit)

/-- The tap value a CTRL1 word carries (R77). -/
def tapField (p : Params) (w : Word) : BitVec 5 := w.extractLsb' p.tapLsb 5

/-- The bit of CTRL1 that strobes logical lane `L` of chip `c`: strobe `3 - L` of the chip (R41, R77). -/
def strobeBit (p : Params) (c lane : Fin 4) : Nat := p.rstLsb + 4 * c.val + (3 - lane.val)

/-- Bit-slip (R76) and tap load (R77) of chip `c` on a write of `w` to CTRL1. -/
def Chip.slipAndLoad (p : Params) (prev w : Word) (c : Fin 4) (ch : Chip) : Chip :=
  { ch with
    slip := if rises prev w (p.bitslipLsb + c.val) then ch.slip + 1 else ch.slip
    tap := Vector.ofFn fun lane => if rises prev w (strobeBit p c lane) then tapField p w else ch.tap[lane] }

/-- The device on a write of `w` to CTRL0 (R72, R73). -/
def Device.onCtrl0 (p : Params) (w : Word) (d : Device) : Device :=
  { d with
    chips := Vector.ofFn fun c => d.chips[c].receive p d.prev0 w c
    ctrl0 := w
    prev0 := w }

/-- Does this write to CTRL1 trigger a capture (R75)? -/
def Device.triggered (p : Params) (w : Word) (d : Device) : Bool := rises d.prev1 w p.snapBit

/-- The capture of R75, with the oracle's words. -/
def Device.capture (p : Params) (oracle : Fin 4 → Nat → Word) (d : Device) : Device :=
  { d with capbuf := captureMemory p.byteOrder oracle, captures := d.captures + 1 }

/-- The device on a write of `w` to CTRL1 (R72, R75 to R77); `oracle` is the content of a capture, should this write trigger one. -/
def Device.onCtrl1 (p : Params) (w : Word) (oracle : Fin 4 → Nat → Word) (d : Device) : Device :=
  { (if d.triggered p w then d.capture p oracle else d) with
    chips := Vector.ofFn fun c => d.chips[c].slipAndLoad p d.prev1 w c
    ctrl1 := w
    prev1 := w }

/-- The words at indices `offset .. offset + length - 1` of CAPBUF (R61). -/
def Device.readBlock (p : Params) (offset length : Nat) (d : Device) : List Word :=
  p.byteOrder.toWords (Memory.readBelow (4 * offset + 4 * length) (4 * length) d.capbuf)

end Sys2Proof.Machine
end

