-- ==== Sys2Proof/Machine/Defaults.lean ====
section
/-! DEFINITION. The default parameters of R6 and the values the registers hold at reset (R261; for those R261 leaves
unspecified, the value log 5 or log 6 names). -/

namespace Sys2Proof

open Machine

/-- The defaults of R6 (log 11). -/
def Params.default : Params where
  regionCtrl := "CTRL"
  idxSer := 0
  idxCap := 1
  regionCap := "CAPBUF"
  sclkBit := 9
  sdataBit := 8
  csLsb := 0
  snapBit := 0
  bitslipLsb := 7
  tapLsb := 11
  rstLsb := 16
  patRegA := 0x25
  patRegB := 0x45
  fmtReg := 0x46
  byteOrder := .big

namespace Machine

/-- R261: HALT, ERR, ERRCP, ERROP are 0. -/
def FaultRegs.atReset : FaultRegs where
  halt := false
  err := 0
  errcp := 0
  errop := 0

/-- R261: PHASE = IDLE, SUBSTEP = 0. The rest is unspecified there; DESIGN CHOICE 0 (log 5). -/
def Work.atReset : Work where
  phase := .idle
  sr := 0
  bitidx := 0
  substep := 0
  tapidx := 0
  curchip := 0
  expect := 0
  evcnt := Vector.replicate 4 0
  odcnt := Vector.replicate 4 0
  attempt := 0
  raw := []

/-- R261: SAMPLE_VALID, CAL_VALID, SYNC_VALID are 0. The rest is unspecified there; DESIGN CHOICE 0 (log 5). -/
def Results.atReset : Results where
  samples := Vector.replicate 4 (Vector.replicate 4 (Vector.replicate 1024 0))
  sampleLen := 0
  sampleValid := 0
  errcnt := Vector.replicate 4 (Vector.replicate 32 (0, 0))
  good := Vector.replicate 4 0
  calValid := false
  calChip := 0
  syncok := Vector.replicate 4 false
  syncValid := 0

/-- A chip at power-on. DESIGN CHOICE (log 6): R43, R44, R46 leave it unspecified; 95_test_vectors.md starts from zeros. SLIP
starts at 0 (R47). -/
def Chip.atPowerOn : Chip where
  adcreg := Vector.replicate 256 0
  rxsr := 0
  rxcnt := 0
  tap := Vector.replicate 4 0
  slip := 0

/-- The device at power-on. DESIGN CHOICE (log 6, log 7): R40 to R45 leave it unspecified; 95_test_vectors.md starts with CTRL0 and
PREV0 idle (all selects high) and CTRL1 and PREV1 zero. -/
def Device.atPowerOn : Device where
  ctrl0 := 0x0000000F
  ctrl1 := 0
  prev0 := 0x0000000F
  prev1 := 0
  capbuf := []
  chips := Vector.replicate 4 Chip.atPowerOn
  captures := 0

/-- No pending input (log 2, log 3, log 10, log 12). -/
def Env.atReset : Env where
  answers := []
  captures := []
  draws := 0
  resetLine := false

end Machine

end Sys2Proof
end

