-- ==== Sys2Proof/Machine/State.lean ====
section
/-! DEFINITION. The state of the machine: the sequencer's registers, the device behind the transport, the command stream, the
environment's inputs and the port's history; and the state right after reset. -/

namespace Sys2Proof.Machine

/-- The machine (10_state.md). `params` and `prog` are fixed during a run (R6, R21). `port` is the model's own field: every
transport operation issued so far, newest first (R60, R70; log 16). -/
structure State where
  params : Params
  prog : List Word
  cp : Nat
  csmask : BitVec 4
  faults : FaultRegs
  work : Work
  res : Results
  dev : Device
  env : Env
  port : List TOp
  deriving DecidableEq, Repr

/-- Why a step does not happen. A command never ends in one of these: its faults are next states (R236). -/
inductive Fault where
  /-- HALT = 1: the sequencer fetches no further command until reset (R237). Raised by `step`. Safe: there is no step. -/
  | halted
  /-- `cp` is not inside the command stream: the run has ended (R21, R266). Raised by `step`. Safe: there is no step. -/
  | endOfRun
  deriving DecidableEq, Repr

/-- Why the model gives an instruction no meaning. -/
inductive Refusal where
  /-- An arm of `exec` without a meaning. Raised by no arm of this model. Safe. -/
  | notModelled (mnemonic : String)
  deriving DecidableEq, Repr

/-- The machine right after reset (R261), with no command stream supplied yet, the device at power-on and the default parameters
(log 5, log 6, log 7, log 11, log 13). -/
def State.reset : State where
  params := Params.default
  prog := []
  cp := 0
  csmask := 0b1111
  faults := FaultRegs.atReset
  work := Work.atReset
  res := Results.atReset
  dev := Device.atPowerOn
  env := Env.atReset
  port := []

end Sys2Proof.Machine
end

