-- ==== Sys2Proof/Machine/Ops.lean ====
section
/-! DEFINITION. The named operations every meaning is built from: the fault action (R236), reset (R260 to R263), issuing one
transport operation (R61, R80) and sequencing them in program order (R70). -/

namespace Sys2Proof.Machine

/-- How a part of a command ends: `go` continues with the next operation, `stop` abandons the command in this state (R236, R260). -/
inductive Flow where
  | go (s : State)
  | stop (s : State)
  deriving DecidableEq, Repr

/-- Program order (R70): the second part starts only after the first has completed. -/
def Flow.andThen (f : Flow) (k : State → Flow) : Flow :=
  match f with
  | .go s => k s
  | .stop s => .stop s

/-- `for x in xs in this order: body x`. -/
def Flow.each {α : Type} (body : α → State → Flow) : List α → State → Flow
  | [], s => .go s
  | x :: xs, s => (body x s).andThen (Flow.each body xs)

/-- A register update that is no transport operation. -/
def Flow.update (f : State → State) (s : State) : Flow := .go (f s)

/-! ### Register updates -/

def State.setCsmask (m : BitVec 4) (s : State) : State := { s with csmask := m }
def State.setWork (w : Work) (s : State) : State := { s with work := w }
def State.setRes (r : Results) (s : State) : State := { s with res := r }
def State.setDev (d : Device) (s : State) : State := { s with dev := d }
def State.setEnv (e : Env) (s : State) : State := { s with env := e }
def State.setFaults (f : FaultRegs) (s : State) : State := { s with faults := f }
def State.setCp (n : Nat) (s : State) : State := { s with cp := n }
def State.logOp (op : TOp) (s : State) : State := { s with port := op :: s.port }
def State.setPhase (ph : Phase) (s : State) : State := s.setWork { s.work with phase := ph }
def State.setSubstep (n : Nat) (s : State) : State := s.setWork { s.work with substep := n }

/-- Advance the counter that feeds the free values (log 10). -/
def State.bumpDraws (s : State) : State := s.setEnv { s.env with draws := s.env.draws + 1 }

/-! ### Faults (60_exceptions.md) -/

/-- The three fault causes (R230). -/
inductive Cause where
  | invalidChipIdentifier
  | transportFailure
  | illegalCommand
  deriving DecidableEq, Repr

/-- The code of a cause in ERR (R25, R230). -/
def Cause.code : Cause → BitVec 2
  | .invalidChipIdentifier => 1
  | .transportFailure => 2
  | .illegalCommand => 3

/-- The fault action (R236): ERR, ERRCP, ERROP and HALT are written, the working registers return to their idle values, `cp` is not
advanced, no transport operation is issued, and every result register holds any value from then on (R37; log 8). `info` is the
failing operation's index, or 0. -/
def State.raise (cause : Cause) (info : Nat) (s : State) : State :=
  ((((s.setFaults { halt := true, err := cause.code, errcp := s.cp, errop := info }).setPhase .idle).setSubstep 0).setRes
    (Config.freeResults s.env.draws)).bumpDraws

/-- The fault action of TransportFailure (R233): ERROP is the failing operation's index in the command's trace. -/
def State.transportFailure (s : State) : State := s.raise .transportFailure s.work.substep

/-- The same results, but for the valid flags that `before` does not have. -/
def Results.within (before r : Results) : Results :=
  { r with
    sampleValid := r.sampleValid &&& before.sampleValid
    calValid := r.calValid && before.calValid
    syncValid := r.syncValid &&& before.syncValid }

/-- An aborted command sets no result-valid flag (R236): of those in force only flags of `before`, the result registers when the
command started, remain possible (log 8). -/
def State.setsNoFlag (before : Results) (s : State) : State := s.setRes (before.within s.res)

/-- A fault raised before the command's first operation (R231, R232). -/
def State.refuse (cause : Cause) (s : State) : State := (s.raise cause 0).setsNoFlag s.res

/-! ### Reset (70_reset_and_hazards.md) -/

/-- The host's reset (R260 to R263): the sequencer's registers take their reset values, no transport operation is issued, and the
device, the command stream and the parameters stay (log 12). -/
def State.hostReset (s : State) : State :=
  { s with
    cp := 0
    csmask := 0b1111
    faults := FaultRegs.atReset
    work := Work.atReset
    res := Results.atReset
    env := { s.env with resetLine := false } }

/-! ### Transport operations (20_memory.md) -/

/-- The environment's answer to operation `op`, should it be the next one (R80, R260; log 2). -/
def Env.answerTo (op : TOp) (e : Env) : PortAnswer :=
  match e.answers with
  | a :: _ => a
  | [] => Config.portAnswer e.draws op

/-- The answer has been given: the next operation reads the next one. -/
def State.takeAnswer (s : State) : State :=
  s.setEnv { s.env with answers := s.env.answers.tail, draws := s.env.draws + 1 }

/-- Issue one transport operation (R61, R80, R233, R260). `effect` is what the device does when the operation takes effect. A failing
operation is issued, may or may not take effect, and aborts the command; a reset at this boundary abandons the command with the
operation not issued. -/
def issue (op : TOp) (effect : State → State) (s : State) : Flow :=
  match s.env.answerTo op with
  | .completes => .go ((effect (s.takeAnswer.logOp op)).setSubstep (s.work.substep + 1))
  | .fails true => .stop (effect (s.takeAnswer.logOp op)).transportFailure
  | .fails false => .stop (s.takeAnswer.logOp op).transportFailure
  | .resetFirst => .stop s.takeAnswer.hostReset

/-- The content of the next capture (R79; log 3). -/
def State.oracleWord (s : State) : Fin 4 → Nat → Word :=
  match s.env.captures with
  | k :: _ => k.word
  | [] => Config.captureWord s.dev

/-- A word reaches CTRL0. -/
def State.ctrl0Lands (w : Word) (s : State) : State := s.setDev (s.dev.onCtrl0 s.params w)

/-- If this word triggers a capture, the capture's content has been given. -/
def State.takeCapture (w : Word) (s : State) : State :=
  if s.dev.triggered s.params w then s.setEnv { s.env with captures := s.env.captures.tail } else s

/-- A word reaches CTRL1. -/
def State.ctrl1Lands (w : Word) (s : State) : State :=
  (s.takeCapture w).setDev (s.dev.onCtrl1 s.params w s.oracleWord)

/-- `TWrite(REGION_CTRL, IDX_SER, w)`. -/
def writeCtrl0 (w : Word) (s : State) : Flow :=
  issue (.write s.params.regionCtrl s.params.idxSer w) (State.ctrl0Lands w) s

/-- `TWrite(REGION_CTRL, IDX_CAP, w)`. -/
def writeCtrl1 (w : Word) (s : State) : Flow :=
  issue (.write s.params.regionCtrl s.params.idxCap w) (State.ctrl1Lands w) s

/-- `TReadBlock(REGION_CAP, offset, length)`, with what the sequencer does with the words. Reading has no effect on the device (R68). -/
def readCapbuf (offset length : Nat) (store : List Word → State → State) (s : State) : Flow :=
  (issue (.readBlock s.params.regionCap offset length) id s).andThen fun s' =>
    .go (store (s'.dev.readBlock s'.params offset length) s')

/-- Three writes to CTRL1, the shape of every pulse (R163, R182, R211). -/
def pulseCtrl1 (w0 w1 w2 : Word) (s : State) : Flow :=
  (writeCtrl1 w0 s).andThen fun s => (writeCtrl1 w1 s).andThen (writeCtrl1 w2)

/-! ### A command from start to end -/

/-- No operation of the command has completed yet (R27). -/
def State.beginCommand (s : State) : State := s.setSubstep 0

/-- A command that completed advances `cp` (R21, R130); one that was abandoned leaves the state it was abandoned in. The counter of
the free values advances too, so that no two commands share one (log 10). -/
def Flow.finish : Flow → State
  | .go s => ((s.setCp (s.cp + 1)).setSubstep 0).bumpDraws
  | .stop s => s

/-- What the end of an abandoned command does. -/
def Flow.onStop (f : State → State) : Flow → Flow
  | .go s => .go s
  | .stop s => .stop (f s)

/-- Run a command's body from its first operation. -/
def runCommand (body : State → Flow) (s : State) : State := ((body s.beginCommand).onStop (State.setsNoFlag s.res)).finish

/-- A command with a `chip` operand: an identifier that does not exist is a fault before the first operation (R111, R232). -/
def withChip (chip : BitVec 3) (body : Fin 4 → State → Flow) (s : State) : State :=
  match chipOf chip with
  | some c => runCommand (body c) s
  | none => s.refuse .invalidChipIdentifier

/-- A command with a `chips` operand (R111, R232). -/
def withChips (chips : BitVec 8) (body : BitVec 4 → State → Flow) (s : State) : State :=
  match chipSetOf chips with
  | some set => runCommand (body set) s
  | none => s.refuse .invalidChipIdentifier

/-- The chips of a mask, ascending (R12). -/
def chipsIn (set : BitVec 4) : List (Fin 4) := (List.finRange 4).filter fun c => set.getLsbD c.val

end Sys2Proof.Machine
end

