-- ==== Sys2Proof/Machine/Snapshot.lean ====
section
/-! DEFINITION. Snapshot capture and reshaper (42_snapshot.md): SNAP and `Snap(S, n)`. -/

namespace Sys2Proof.Machine

/-- `Trigger()` (R163). -/
def trigger (s : State) : Flow := pulseCtrl1 zeroWord (trigWord s.params) zeroWord s

/-- One lane of a 4-row, `n`-column capture (R162, R165): column `k` of lane `L` is byte `L * n + k` of the stream, converted; columns
from `n` up keep what they held. -/
def reshapeLane (raw : List Byte) (n lane : Nat) (old : Vector Sample 1024) : Vector Sample 1024 :=
  tabulate 1024 fun k => if k.val < n then conv (raw.getD (lane * n + k.val) 0) else old[k]

/-- The words of chip `c` have been read (R162): RAW and SAMPLES[c] are written. -/
def State.storeChip (c : Fin 4) (n : Nat) (words : List Word) (s : State) : State :=
  let raw := s.params.byteOrder.toBytes words
  (s.setWork { s.work with raw := raw }).setRes
    { s.res with
      samples := s.res.samples.set c (Vector.ofFn fun lane => reshapeLane raw n lane.val s.res.samples[c][lane]) }

/-- Read back chip `c` (R164). -/
def readChip (n : Nat) (c : Fin 4) : State → Flow := readCapbuf (c.val * stride) n (State.storeChip c n)

/-- SAMPLES after a capture of the chips `set` with `n` columns: entries outside it become unspecified (R166, R28; log 9). -/
def forgetSamples (draw : Nat) (set : BitVec 4) (n : Nat) (old : Vector (Vector (Vector Sample 1024) 4) 4) :
    Vector (Vector (Vector Sample 1024) 4) 4 :=
  Vector.ofFn fun c => Vector.ofFn fun lane => tabulate 1024 fun k =>
    if set.getLsbD c.val && decide (k.val < n) then old[c][lane][k] else Config.freeSample draw c.val lane.val k.val

/-- The end of a capture (R166): SAMPLE_LEN and SAMPLE_VALID are written. -/
def State.endSnap (set : BitVec 4) (n : Nat) (s : State) : State :=
  s.setRes
    { s.res with
      samples := forgetSamples s.env.draws set n s.res.samples
      sampleLen := BitVec.ofNat 11 n
      sampleValid := set }

/-- `Snap(S, n)` (R162): one trigger pulse, one block read per chip in ascending order, then the result registers. -/
def snapshot (set : BitVec 4) (n : Nat) (s : State) : Flow :=
  ((trigger s).andThen (Flow.each (readChip n) (chipsIn set))).andThen (Flow.update (State.endSnap set n))

/-- SNAP (R160). -/
def execSnap (chips : BitVec 8) (count : BitVec 16) (s : State) : Host.Outcome State Fault Refusal :=
  .next (withChips chips (fun set => snapshot set (clampCount count)) s)

end Sys2Proof.Machine
end

