-- ==== Sys2Proof/Machine/DelayTap.lean ====
section
/-! DEFINITION. The delay-tap write and the sweep (43_delay_tap.md): DLYTAP and CALTAPS. -/

namespace Sys2Proof.Machine

/-- `DelayWrite(c, t, m)` (R182). -/
def delayWrite (c : Fin 4) (t : BitVec 5) (lanes : BitVec 4) (s : State) : Flow :=
  pulseCtrl1 (tapWord s.params t) (tapResetWord s.params t c lanes) zeroWord s

/-- DLYTAP (R180). -/
def execDlytap (chip : BitVec 3) (tap : BitVec 8) (lanes : BitVec 4) (s : State) : Host.Outcome State Fault Refusal :=
  .next (withChip chip (fun c => delayWrite c (clampTap tap) lanes) s)

/-- `Count(TAPIDX)` (R189): the counters, ERRCNT and GOOD of the capture in RAW, for all four lanes. -/
def State.countTap (s : State) : State :=
  let even := Vector.ofFn fun lane => evenCount s.work.raw lane s.work.expect
  let odd := Vector.ofFn fun lane => oddCount s.work.raw lane s.work.expect
  (s.setWork { s.work with evcnt := even, odcnt := odd }).setRes
    { s.res with
      errcnt := Vector.ofFn fun lane => s.res.errcnt[lane].set s.work.tapidx.toNat (even[lane], odd[lane]) s.work.tapidx.isLt
      good := Vector.ofFn fun lane => setMapBit s.res.good[lane] s.work.tapidx.toNat (goodTap even[lane] odd[lane]) }

/-- One tap of the sweep (R187): all four lanes to the tap, a capture of 256 words, the counts. -/
def sweepTap (t : BitVec 5) (s : State) : Flow :=
  (((Flow.update (fun s => s.setWork { s.work with tapidx := t }) s).andThen
    (fun s => delayWrite s.work.curchip s.work.tapidx 0b1111 s)).andThen
    (fun s => snapshot (oneOf s.work.curchip) 256 s)).andThen (Flow.update State.countTap)

/-- The taps 0..31 in order (R187). -/
def allTaps : List (BitVec 5) := (List.range 32).map (BitVec.ofNat 5)

/-- `Sweep()` (R187). -/
def sweep : State → Flow := Flow.each sweepTap allTaps

/-- One lane of `SelectAndProgram()` (R191, R194, R195): a lane with no good tap is skipped. -/
def programLane (lane : Fin 4) (s : State) : Flow :=
  if tapsOf s.res.good[lane] = [] then .go s
  else delayWrite s.work.curchip (selectTap (tapsOf s.res.good[lane])) (oneOf lane) s

/-- `SelectAndProgram()` (R191): the lanes in ascending order. -/
def selectAndProgram : State → Flow := Flow.each programLane (List.finRange 4)

/-- The body of CALTAPS for a valid chip (R186). -/
def calibrateTaps (c : Fin 4) (expect : Sample) (s : State) : Flow :=
  (((Flow.update (fun s => s.setWork { s.work with curchip := c, expect := expect }) s).andThen sweep).andThen
    selectAndProgram).andThen (Flow.update fun s => s.setRes { s.res with calChip := c, calValid := true })

/-- CALTAPS (R186). -/
def execCaltaps (chip : BitVec 3) (expected : BitVec 8) (s : State) : Host.Outcome State Fault Refusal :=
  .next (withChip chip (fun c => calibrateTaps c (expectedOf expected)) s)

end Sys2Proof.Machine
end

