-- ==== Sys2Proof/Machine/Serial.lean ====
section
/-! DEFINITION. The serial register programmer (40_serial_programmer.md): SETCS, WRREG and `SerialWrite`. -/

namespace Sys2Proof.Machine

/-- `SR[BITIDX]`, the bit being sent (R135). -/
def State.currentBit (s : State) : Bool := s.work.sr.getLsbD s.work.bitidx.toNat

/-- The start of `SerialWrite` (R135): SR and BITIDX are loaded. -/
def State.loadFrame (addr : BitVec 8) (value : BitVec 16) (s : State) : State :=
  s.setWork { s.work with sr := frame addr value, bitidx := 23 }

/-- After a HIGH write (R135): the next bit, or POST after the last. -/
def State.nextBit (s : State) : State :=
  if s.work.bitidx = 0 then s.setPhase .post
  else s.setWork { s.work with bitidx := s.work.bitidx - 1, phase := .low }

/-- One step of the bit-banger (R135): one write, then the phase moves. IDLE has no write of its own between two cycles. -/
def serialStep (s : State) : Flow :=
  match s.work.phase with
  | .idle => .go s
  | .low => (writeCtrl0 (loWord s.params s.csmask s.currentBit) s).andThen (Flow.update (State.setPhase .high))
  | .high => (writeCtrl0 (hiWord s.params s.csmask s.currentBit) s).andThen (Flow.update State.nextBit)
  | .post => (writeCtrl0 (idleWord s.params) s).andThen (Flow.update (State.setPhase .idle))

/-- `n` steps of the bit-banger. -/
def serialRun : Nat → State → Flow
  | 0, s => .go s
  | n + 1, s => (serialStep s).andThen (serialRun n)

/-- `SerialWrite(a, v)` (R133, R135): the leading idle word, then 24 LOW and 24 HIGH steps and one POST step, 50 writes in all. -/
def serialWrite (addr : BitVec 8) (value : BitVec 16) (s : State) : Flow :=
  (writeCtrl0 (idleWord s.params) (s.loadFrame addr value)).andThen fun s => serialRun 49 (s.setPhase .low)

/-- Several serial writes in order. -/
def serialWrites (writes : List (BitVec 8 × BitVec 16)) : State → Flow :=
  Flow.each (fun av => serialWrite av.1 av.2) writes

/-- SETCS (R131). -/
def execSetcs (mask : BitVec 4) (s : State) : Host.Outcome State Fault Refusal :=
  .next (runCommand (Flow.update (State.setCsmask mask)) s)

/-- WRREG (R132). -/
def execWrreg (addr : BitVec 8) (value : BitVec 16) (s : State) : Host.Outcome State Fault Refusal :=
  .next (runCommand (serialWrite addr value) s)

end Sys2Proof.Machine
end

