-- ==== Sys2Proof/Machine/Pattern.lean ====
section
/-! DEFINITION. The pattern and format controller (41_pattern_format.md): SETPAT, one meaning per kind, and SETFMT. -/

namespace Sys2Proof.Machine

/-- The body of SETPAT (R150). -/
def setPattern (kind : PatKind) (s : State) : Flow := serialWrites (patternWrites s.params kind) s

/-- SETPAT none (R150). -/
def execSetpatNone (s : State) : Host.Outcome State Fault Refusal := .next (runCommand (setPattern .none) s)

/-- SETPAT ramp (R150). -/
def execSetpatRamp (s : State) : Host.Outcome State Fault Refusal := .next (runCommand (setPattern .ramp) s)

/-- SETPAT deskew (R150). -/
def execSetpatDeskew (s : State) : Host.Outcome State Fault Refusal := .next (runCommand (setPattern .deskew) s)

/-- SETPAT sync (R150). -/
def execSetpatSync (s : State) : Host.Outcome State Fault Refusal := .next (runCommand (setPattern .sync) s)

/-- SETPAT custom (R150). -/
def execSetpatCustom (s : State) : Host.Outcome State Fault Refusal := .next (runCommand (setPattern .custom) s)

/-- SETPAT dual (R150). -/
def execSetpatDual (s : State) : Host.Outcome State Fault Refusal := .next (runCommand (setPattern .dual) s)

/-- The body of SETFMT (R153). -/
def setFormat (invertMsb msbFirst : Bool) (s : State) : Flow :=
  serialWrite s.params.fmtReg (formatValue invertMsb msbFirst) s

/-- SETFMT (R153). -/
def execSetfmt (invertMsb msbFirst : Bool) (s : State) : Host.Outcome State Fault Refusal :=
  .next (runCommand (setFormat invertMsb msbFirst) s)

end Sys2Proof.Machine
end

