-- ==== Sys2Proof/Machine/Sync.lean ====
section
/-! DEFINITION. Bit-slip synchronisation and the orchestrator (44_sync_orchestrator.md): BITSLIP, SYNC and CAL. -/

namespace Sys2Proof.Machine

/-- `SlipPulse(S)` (R211). -/
def slipPulse (set : BitVec 4) (s : State) : Flow := pulseCtrl1 zeroWord (slipWord s.params set) zeroWord s

/-- BITSLIP (R210). -/
def execBitslip (chips : BitVec 8) (s : State) : Host.Outcome State Fault Refusal :=
  .next (withChips chips slipPulse s)

/-- `SAMPLES[c][0][0] = EXPECT` (R214). -/
def State.syncMatch (c : Fin 4) (s : State) : Bool := decide (s.res.samples[c][0][0] = s.work.expect)

/-- The loop of `SyncChip(c)` with `n` attempts left (R214): ATTEMPT counts the pulses issued, 8 - `n` at this point. -/
def syncLoop (c : Fin 4) : Nat → State → Flow
  | 0, s => .go s
  | n + 1, s => (snapshot (oneOf c) 1 s).andThen fun s =>
      if s.syncMatch c then .go s
      else (slipPulse (oneOf c) s).andThen fun s =>
        syncLoop c n (s.setWork { s.work with attempt := s.work.attempt + 1 })

/-- The verdict of `SyncChip(c)` (R214): SYNCOK[c] from the final capture. -/
def State.verdict (c : Fin 4) (s : State) : State :=
  s.setRes { s.res with syncok := s.res.syncok.set c (s.syncMatch c) }

/-- `SyncChip(c)` (R214): up to NSLIP = 8 attempts, then the final capture. -/
def syncChip (c : Fin 4) (s : State) : Flow :=
  ((syncLoop c 8 (s.setWork { s.work with curchip := c, attempt := 0 })).andThen (snapshot (oneOf c) 1)).andThen
    (Flow.update (State.verdict c))

/-- The end of SYNC (R213, R216): SYNC_VALID is written; SYNCOK of a chip not covered is unspecified (R36, U11; log 9). -/
def State.endSync (set : BitVec 4) (s : State) : State :=
  s.setRes
    { s.res with
      syncok := Vector.ofFn fun c => if set.getLsbD c.val then s.res.syncok[c] else Config.freeBit s.env.draws c.val
      syncValid := set }

/-- The body of SYNC for a valid chip set (R213). -/
def synchronize (set : BitVec 4) (expect : Sample) (s : State) : Flow :=
  ((Flow.update (fun s => s.setWork { s.work with expect := expect }) s).andThen
    (Flow.each syncChip (chipsIn set))).andThen (Flow.update (State.endSync set))

/-- SYNC (R213). -/
def execSync (chips : BitVec 8) (expected : BitVec 8) (s : State) : Host.Outcome State Fault Refusal :=
  .next (withChips chips (fun set => synchronize set (expectedOf expected)) s)

/-- The body of CAL (R219). -/
def calibrate (deskewExpect syncExpect : Sample) (s : State) : Flow :=
  (((setPattern .deskew s).andThen (Flow.each (fun c => calibrateTaps c deskewExpect) (List.finRange 4))).andThen
    (setPattern .sync)).andThen (synchronize 0b1111 syncExpect)

/-- CAL (R219). -/
def execCal (deskewExpected syncExpected : BitVec 8) (s : State) : Host.Outcome State Fault Refusal :=
  .next (runCommand (calibrate (expectedOf deskewExpected) (expectedOf syncExpected)) s)

end Sys2Proof.Machine
end

