-- ==== Sys2Proof/Machine/Dispatch.lean ====
section
/-! DEFINITION. One arm per command: the meaning of each. -/

namespace Sys2Proof.Machine

def exec (i : Instr) (s : State) : Host.Outcome State Fault Refusal :=
  match i with
  | .setcs mask => Sys2Proof.Machine.execSetcs mask s
  | .wrreg addr value => Sys2Proof.Machine.execWrreg addr value s
  | .setpatNone => Sys2Proof.Machine.execSetpatNone s
  | .setpatRamp => Sys2Proof.Machine.execSetpatRamp s
  | .setpatDeskew => Sys2Proof.Machine.execSetpatDeskew s
  | .setpatSync => Sys2Proof.Machine.execSetpatSync s
  | .setpatCustom => Sys2Proof.Machine.execSetpatCustom s
  | .setpatDual => Sys2Proof.Machine.execSetpatDual s
  | .setfmt invertMsb msbFirst => Sys2Proof.Machine.execSetfmt invertMsb msbFirst s
  | .snap chips count => Sys2Proof.Machine.execSnap chips count s
  | .dlytap chip tap lanes => Sys2Proof.Machine.execDlytap chip tap lanes s
  | .bitslip chips => Sys2Proof.Machine.execBitslip chips s
  | .caltaps chip expected => Sys2Proof.Machine.execCaltaps chip expected s
  | .sync chips expected => Sys2Proof.Machine.execSync chips expected s
  | .cal deskewExpected syncExpected => Sys2Proof.Machine.execCal deskewExpected syncExpected s

end Sys2Proof.Machine
end

