-- ==== Sys2Proof/Machine/Fetch.lean ====
section
/-! DEFINITION. Fetching and decoding the command at `cp` (R21, R237, R231), and placing a command there. -/

namespace Sys2Proof.Machine

/-- `prog[cp]`, if `cp` is inside the command stream (R21). -/
def State.fetch (s : State) : Option Word := s.prog[s.cp]?

/-- One command word: its meaning, or IllegalCommand before any transport operation (R231). -/
def runWord (w : Word) (s : State) : Host.Outcome State Fault Refusal :=
  match decode w with
  | .ok i => exec i s
  | .error _ => .next (s.refuse .illegalCommand)

/-- Fetch and run the next command; at the end of the command stream there is no step (R266). -/
def fetchAndRun (s : State) : Host.Outcome State Fault Refusal :=
  match s.fetch with
  | some w => runWord w s
  | none => .fault .endOfRun

/-- The command stream with word `w` at index `i`; missing earlier words are 0. -/
def placeWord (prog : List Word) (i : Nat) (w : Word) : List Word :=
  prog.take i ++ List.replicate (i - prog.length) 0 ++ w :: prog.drop (i + 1)

end Sys2Proof.Machine
end

