-- ==== Sys2Proof/Machine/Step.lean ====
section
/-! DEFINITION. One step of the machine: one command (log 1). -/

namespace Sys2Proof.Machine

/-- A reset asserted between commands comes first (R260); a halted sequencer has no step (R237); otherwise one command runs. -/
def step (s : State) : Host.Outcome State Fault Refusal :=
  if s.env.resetLine then .next s.hostReset
  else if s.faults.halt then .fault .halted
  else fetchAndRun s

/-- `s` with the command whose bits are `w` at the place `step` fetches from, and reset not asserted (log 13). -/
def State.withFetchWord (s : State) (nbits w : Nat) : State :=
  { s with
    prog := placeWord s.prog s.cp (BitVec.ofNat 32 (w % 2 ^ nbits))
    env := { s.env with resetLine := false } }

end Sys2Proof.Machine
end

