-- ==== Sys2Proof/Machine/HostPort.lean ====
section
/-! DEFINITION. What the host can do to the machine between steps, and how it reads results (R268, R30, R34). -/

namespace Sys2Proof.Machine

/-- The run has not begun (R261, R267, R268; log 23): no command has completed or faulted since reset. -/
def State.beforeRun (s : State) : Bool := decide (s.cp = 0) && !s.faults.halt

/-- The host supplies the command stream (R21, R268), possible only before the run. -/
def State.supply (prog : List Word) (s : State) : Option State := if s.beforeRun then some { s with prog := prog } else none

/-- The host asserts reset between commands; the next step takes it (R260, R268). -/
def State.assertReset (s : State) : State := s.setEnv { s.env with resetLine := true }

/-- The sequencer is not running (R21, R268; log 23): the run has ended or halted, or the sequencer is held in reset. -/
def State.notRunning (s : State) : Bool := s.env.resetLine || s.faults.halt || decide (s.prog.length ≤ s.cp)

/-- How many words CAPBUF has (R42). -/
def capbufWords : Nat := 4 * stride

/-- The host itself reads CTRL0 (R268), possible only while the sequencer is not running. -/
def State.hostReadCtrl0 (s : State) : Option Word := if s.notRunning then some s.dev.ctrl0 else none

/-- The host itself reads CTRL1 (R268), possible only while the sequencer is not running. -/
def State.hostReadCtrl1 (s : State) : Option Word := if s.notRunning then some s.dev.ctrl1 else none

/-- The host itself writes CTRL0 (R268), possible only while the sequencer is not running: the device reacts as to any write (R72). -/
def State.hostWriteCtrl0 (w : Word) (s : State) : Option State := if s.notRunning then some (s.ctrl0Lands w) else none

/-- The host itself writes CTRL1 (R268), possible only while the sequencer is not running (R72). -/
def State.hostWriteCtrl1 (w : Word) (s : State) : Option State := if s.notRunning then some (s.ctrl1Lands w) else none

/-- The host itself reads `length` words of CAPBUF from word index `offset` (R268, R61), possible only while the sequencer is not
running; words outside CAPBUF do not exist (R62). -/
def State.hostReadCapbuf (offset length : Nat) (s : State) : Option (List Word) :=
  if s.notRunning ∧ offset + length ≤ capbufWords then some (s.dev.readBlock s.params offset length) else none

/-- The host itself writes word `index` of CAPBUF (R268, R67; log 23), possible only while the sequencer is not running. -/
def State.hostWriteCapbuf (index : Nat) (w : Word) (s : State) : Option State :=
  if s.notRunning ∧ index < capbufWords then
    some (s.setDev { s.dev with capbuf := s.dev.capbuf.writeWord s.params.byteOrder index w })
  else none

/-- The snapshot result of lane `L` of chip `c`: SAMPLES[c][L][0 .. SAMPLE_LEN - 1] (R30). -/
def Results.sampleSeq (r : Results) (c lane : Fin 4) : List Sample := r.samples[c][lane].toList.take r.sampleLen.toNat

/-- The good-tap list of lane `L` (R34). -/
def Results.goodTaps (r : Results) (lane : Fin 4) : List Nat := tapsOf r.good[lane]

end Sys2Proof.Machine
end

