-- ==== Sys2Proof/Safety.lean ====
section
/-! DEFINITION. The terms the statements use: the premises of R267, the end of a run (R266), the legal port operations (R62, R63,
R100, R102), the invariants of the machine, and the device-side effects the rules name. -/

namespace Sys2Proof.Machine

/-! ### Premises at the start of a run (R267) -/

/-- The sequencer's registers for which R261 gives a value hold it. -/
def State.AtReset (s : State) : Prop :=
  s.csmask = 0b1111 ∧ s.cp = 0 ∧ s.faults = FaultRegs.atReset ∧ s.work.phase = .idle ∧ s.work.substep = 0 ∧
  s.res.sampleValid = 0 ∧ s.res.calValid = false ∧ s.res.syncValid = 0

/-- HALT = 0 and ERR = 0. -/
def State.NoFault (s : State) : Prop := s.faults.halt = false ∧ s.faults.err = 0

/-- The environment's answer to the `k`-th coming operation (0-based), should that be `op`. -/
def State.answerAt (s : State) (k : Nat) (op : TOp) : PortAnswer :=
  match s.env.answers[k]? with
  | some a => a
  | none => Config.portAnswer (s.env.draws + k) op

/-- `NoTransportFailure` for the next `n` operations: each of them completes, and no reset is asserted before it. -/
def State.NoTransportFailure (n : Nat) (s : State) : Prop := ∀ k, k < n → ∀ op, s.answerAt k op = .completes

/-! ### The end of a run (R266) -/

/-- Every command completed. -/
def State.Ended (s : State) : Prop := s.faults.halt = false ∧ s.cp = s.prog.length

/-- The run has faulted. -/
def State.Faulted (s : State) : Prop := s.faults.halt = true

/-! ### The port -/

/-- A word the sequencer may write to CTRL0 (R100). -/
def LegalCtrl0 (p : Params) (w : Word) : Prop :=
  w = idleWord p ∨ ∃ m b, w = loWord p m b ∨ w = hiWord p m b

/-- A word the sequencer may write to CTRL1 (R102). -/
def LegalCtrl1 (p : Params) (w : Word) : Prop :=
  w = zeroWord ∨ w = trigWord p ∨ (∃ m, w = slipWord p m) ∨ (∃ t, w = tapWord p t) ∨ ∃ t c m, w = tapResetWord p t c m

/-- A transport operation the sequencer may issue (R62, R63, R66): a legal word to CTRL0 or CTRL1, or a block read that starts at the
first word of a chip's part of CAPBUF and stays inside it. `TRead` is never legal. -/
def LegalOp (p : Params) : TOp → Prop
  | .write region index w =>
    region = p.regionCtrl ∧ (index = p.idxSer ∧ LegalCtrl0 p w ∨ index = p.idxCap ∧ LegalCtrl1 p w)
  | .read _ _ => False
  | .readBlock region offset length =>
    region = p.regionCap ∧ 1 ≤ length ∧ length ≤ stride ∧ ∃ c : Fin 4, offset = c.val * stride

/-! ### The world behind the port -/

/-- What stands behind the port: the device and the contents of the coming captures. -/
structure World where
  dev : Device
  captures : List Capture
  deriving DecidableEq, Repr

/-- The content of the world's next capture (R79). -/
def World.oracle (w : World) : Fin 4 → Nat → Word :=
  match w.captures with
  | k :: _ => k.word
  | [] => Config.captureWord w.dev

/-- What one operation that takes effect does to the world (R68, R72 to R77): a write acts on the control word it names, a read
on nothing. -/
def World.perform (p : Params) (op : TOp) (w : World) : World :=
  match op with
  | .write region index word =>
    if region = p.regionCtrl ∧ index = p.idxSer then { w with dev := w.dev.onCtrl0 p word }
    else if region = p.regionCtrl ∧ index = p.idxCap then
      { dev := w.dev.onCtrl1 p word w.oracle
        captures := if w.dev.triggered p word then w.captures.tail else w.captures }
    else w
  | .read _ _ => w
  | .readBlock _ _ _ => w

/-- A run of operations, oldest first, each taking effect before the next (R70). -/
def World.replay (p : Params) (ops : List TOp) (w : World) : World := ops.foldl (fun w op => w.perform p op) w

/-- The world behind the port of a state. -/
def State.world (s : State) : World := { dev := s.dev, captures := s.env.captures }

/-! ### Invariants -/

/-- The device's part: memory is canonical and inside CAPBUF (R42), bit counts are in 0..25 (R44). -/
structure Device.Inv (d : Device) : Prop where
  memory : d.capbuf.wf = true
  inside : ∀ cell ∈ d.capbuf, cell.1 < capbufBytes
  counts : ∀ c : Fin 4, d.chips[c].rxcnt ≤ 25

/-- What holds between commands: the parameters meet R6, the device meets its invariant, PHASE is IDLE and SUBSTEP 0 (R26, R27), ERR
is 0 exactly while HALT is 0 (R25), and every operation issued so far was legal. -/
structure State.Inv (s : State) : Prop where
  params : s.params.Wf
  device : s.dev.Inv
  phase : s.work.phase = .idle
  substep : s.work.substep = 0
  fault : s.faults.halt = true ↔ s.faults.err ≠ 0
  port : ∀ op ∈ s.port, LegalOp s.params op

/-! ### Commands and their effects -/

/-- Every result-valid flag in force in `t` was in force in `s` (R236). -/
structure NoNewFlag (s t : State) : Prop where
  sample : ∀ c : Fin 4, t.res.sampleValid.getLsbD c.val = true → s.res.sampleValid.getLsbD c.val = true
  cal : t.res.calValid = true → s.res.calValid = true
  sync : ∀ c : Fin 4, t.res.syncValid.getLsbD c.val = true → s.res.syncValid.getLsbD c.val = true

/-- `t` is `s` with the fault registers written for a fault with code `code` before the first operation (R231, R232), but for the
result registers (any value, R37, with no new valid flag, R236) and the model's counter of free values (log 8, log 10). -/
structure RefusedWith (code : BitVec 2) (s t : State) : Prop where
  rest : t =
    { s with
      faults := { halt := true, err := code, errcp := s.cp, errop := 0 }
      res := t.res
      env := { s.env with draws := t.env.draws } }
  flags : NoNewFlag s t

/-- What every completed command leaves behind: `cp` is one further, SUBSTEP is 0 again, and the parameters, the command stream, the
fault registers and the reset input are as before (R21, R25, R130). -/
structure Completed (s t : State) : Prop where
  params : t.params = s.params
  prog : t.prog = s.prog
  cp : t.cp = s.cp + 1
  faults : t.faults = s.faults
  substep : t.work.substep = 0
  resetLine : t.env.resetLine = s.env.resetLine

/-- The command ended in TransportFailure at operation `k` (R233, R236). -/
structure FaultedAt (k : Nat) (s t : State) : Prop where
  params : t.params = s.params
  prog : t.prog = s.prog
  cp : t.cp = s.cp
  csmask : t.csmask = s.csmask
  faults : t.faults = { halt := true, err := 2, errcp := s.cp, errop := k }
  phase : t.work.phase = .idle
  substep : t.work.substep = 0

/-- The device's CTRL0 side is the same: the control word, its previous word, and every chip's registers and receiver. -/
structure SameSerial (d e : Device) : Prop where
  ctrl0 : e.ctrl0 = d.ctrl0
  prev0 : e.prev0 = d.prev0
  adcreg : ∀ c : Fin 4, e.chips[c].adcreg = d.chips[c].adcreg
  rxsr : ∀ c : Fin 4, e.chips[c].rxsr = d.chips[c].rxsr
  rxcnt : ∀ c : Fin 4, e.chips[c].rxcnt = d.chips[c].rxcnt

/-- Every byte of memory is the same. -/
def SameMemory (d e : Device) : Prop := ∀ a, e.capbuf.read a = d.capbuf.read a

/-- The device's CTRL1 side is the same: the control word, its previous word, memory, the count of captures, and every chip's taps
and slips. -/
structure SameCapture (d e : Device) : Prop where
  ctrl1 : e.ctrl1 = d.ctrl1
  prev1 : e.prev1 = d.prev1
  memory : SameMemory d e
  captures : e.captures = d.captures
  tap : ∀ c : Fin 4, e.chips[c].tap = d.chips[c].tap
  slip : ∀ c : Fin 4, e.chips[c].slip = d.chips[c].slip

/-- The fewest operations a command whose chips exist performs (R131, R138, R150, R153, R162, R182, R196, R211, R215, R220). -/
def minOps : Instr → Nat
  | .setcs _ => 0
  | .wrreg _ _ => 50
  | .setpatNone => 100
  | .setpatRamp => 150
  | .setpatDeskew => 150
  | .setpatSync => 150
  | .setpatCustom => 150
  | .setpatDual => 150
  | .setfmt _ _ => 50
  | .snap chips _ => 3 + (chipsIn (chips.extractLsb' 0 4)).length
  | .dlytap _ _ _ => 3
  | .bitslip _ => 3
  | .caltaps _ _ => 224
  | .sync chips _ => 8 * (chipsIn (chips.extractLsb' 0 4)).length
  | .cal _ _ => 1228

/-- The most operations a command performs (the same rules). -/
def maxOps : Instr → Nat
  | .setcs _ => 0
  | .wrreg _ _ => 50
  | .setpatNone => 100
  | .setpatRamp => 150
  | .setpatDeskew => 150
  | .setpatSync => 150
  | .setpatCustom => 150
  | .setpatDual => 150
  | .setfmt _ _ => 50
  | .snap chips _ => 3 + (chipsIn (chips.extractLsb' 0 4)).length
  | .dlytap _ _ _ => 3
  | .bitslip _ => 3
  | .caltaps _ _ => 236
  | .sync chips _ => 60 * (chipsIn (chips.extractLsb' 0 4)).length
  | .cal _ _ => 1484

/-- The reserved bits of a command word with the given `op` (R93 to R99). -/
def reservedBits : Nat → Word
  | 0x01 => 0x00FFFFF0
  | 0x03 => 0x00FFFFF8
  | 0x04 => 0x00FFFFFC
  | 0x06 => 0x00F8F000
  | 0x07 => 0x0000FFFF
  | 0x08 => 0x00F8FF00
  | 0x09 => 0x0000FF00
  | 0x0A => 0x00FF0000
  | _ => 0

/-- The words R112 calls illegal: an unknown `op`, a reserved bit set, or SETPAT kind 6 or 7. -/
def IllegalWord (w : Word) : Prop :=
  ¬ (0x01 ≤ (w.extractLsb' 24 8).toNat ∧ (w.extractLsb' 24 8).toNat ≤ 0x0A) ∨
  w &&& reservedBits (w.extractLsb' 24 8).toNat ≠ 0 ∨
  ((w.extractLsb' 24 8).toNat = 0x03 ∧ 6 ≤ (w.extractLsb' 0 3).toNat)

/-- SETPAT as a command, by kind (R95). -/
def PatKind.instr : PatKind → Instr
  | .none => .setpatNone
  | .ramp => .setpatRamp
  | .deskew => .setpatDeskew
  | .sync => .setpatSync
  | .custom => .setpatCustom
  | .dual => .setpatDual

/-- The command is a sequence of serial writes: WRREG, SETPAT, SETFMT. -/
def isSerial : Instr → Bool
  | .wrreg _ _ => true
  | .setpatNone => true
  | .setpatRamp => true
  | .setpatDeskew => true
  | .setpatSync => true
  | .setpatCustom => true
  | .setpatDual => true
  | .setfmt _ _ => true
  | .setcs _ => false
  | .snap _ _ => false
  | .dlytap _ _ _ => false
  | .bitslip _ => false
  | .caltaps _ _ => false
  | .sync _ _ => false
  | .cal _ _ => false

/-- The command is SETCS, DLYTAP or BITSLIP: at most one pulse on CTRL1. -/
def isPulse : Instr → Bool
  | .setcs _ => true
  | .dlytap _ _ _ => true
  | .bitslip _ => true
  | .wrreg _ _ => false
  | .setpatNone => false
  | .setpatRamp => false
  | .setpatDeskew => false
  | .setpatSync => false
  | .setpatCustom => false
  | .setpatDual => false
  | .setfmt _ _ => false
  | .snap _ _ => false
  | .caltaps _ _ => false
  | .sync _ _ => false
  | .cal _ _ => false

/-- Write number `k` (0..49) of a serial cycle, in the closed form of R133. -/
def serialWord (p : Params) (csmask : BitVec 4) (addr : BitVec 8) (value : BitVec 16) (k : Nat) : Word :=
  if k = 0 ∨ k = 49 then idleWord p
  else if k % 2 = 1 then loWord p csmask ((frame addr value).getLsbD (23 - (k - 1) / 2))
  else hiWord p csmask ((frame addr value).getLsbD (23 - (k - 1) / 2))

/-- The trace of a serial cycle, oldest first (R133). -/
def serialTrace (p : Params) (csmask : BitVec 4) (addr : BitVec 8) (value : BitVec 16) : List TOp :=
  (List.range 50).map fun k => .write p.regionCtrl p.idxSer (serialWord p csmask addr value k)

/-- A write to CTRL1 as an operation of the port. -/
def ctrl1Op (p : Params) (w : Word) : TOp := .write p.regionCtrl p.idxCap w

/-- The trace of a trigger pulse, oldest first (R163). -/
def triggerTrace (p : Params) : List TOp := [ctrl1Op p zeroWord, ctrl1Op p (trigWord p), ctrl1Op p zeroWord]

/-- The trace of `Snap(S, n)`, oldest first (R162). -/
def snapTrace (p : Params) (set : BitVec 4) (n : Nat) : List TOp :=
  triggerTrace p ++ (chipsIn set).map fun c => .readBlock p.regionCap (c.val * stride) n

/-- The trace of `DelayWrite(c, t, m)`, oldest first (R182). -/
def delayTrace (p : Params) (c : Fin 4) (t : BitVec 5) (lanes : BitVec 4) : List TOp :=
  [ctrl1Op p (tapWord p t), ctrl1Op p (tapResetWord p t c lanes), ctrl1Op p zeroWord]

/-- The trace of `SlipPulse(S)`, oldest first (R211). -/
def slipTrace (p : Params) (set : BitVec 4) : List TOp :=
  [ctrl1Op p zeroWord, ctrl1Op p (slipWord p set), ctrl1Op p zeroWord]

/-- The trace of `Sweep()` for chip `c`, oldest first (R187). -/
def sweepTrace (p : Params) (c : Fin 4) : List TOp :=
  allTaps.flatMap fun t => delayTrace p c t 0b1111 ++ snapTrace p (oneOf c) 256

/-- The trace of `SelectAndProgram()` for chip `c` and the maps `good`, oldest first (R191, R194, R195). -/
def selectTrace (p : Params) (c : Fin 4) (good : Vector (BitVec 32) 4) : List TOp :=
  (List.finRange 4).flatMap fun lane =>
    if tapsOf good[lane] = [] then [] else delayTrace p c (selectTap (tapsOf good[lane])) (oneOf lane)

/-- No chip has a complete 24-bit frame still open (R74): the leading idle word of the next cycle latches nothing. -/
def State.NoStaleFrame (s : State) : Prop :=
  ∀ c : Fin 4, selects s.params s.dev.prev0 c = true → s.dev.chips[c].rxcnt ≠ 24

/-- Register `x` of chip `c` as the leading idle word of a cycle leaves it: a complete frame still open is latched at its own address,
and everything else stays (R74, R139). -/
def Device.closedReg (p : Params) (d : Device) (c : Fin 4) (x : BitVec 8) : BitVec 16 :=
  if selects p d.prev0 c = true ∧ d.chips[c].rxcnt = 24 ∧ x = d.chips[c].rxsr.extractLsb' 16 8 then
    d.chips[c].rxsr.extractLsb' 0 16
  else d.chips[c].adcreg[x.toNat]

/-- The value R151 gives a pattern register's bits by kind: registers A and B. -/
def PatKind.valueA : PatKind → BitVec 16
  | .none => 0x0000
  | .ramp => 0x0040
  | .deskew => 0x0000
  | .sync => 0x0000
  | .custom => 0x0010
  | .dual => 0x0020

/-- Register B's column of R151. -/
def PatKind.valueB : PatKind → BitVec 16
  | .none => 0x0000
  | .ramp => 0x0000
  | .deskew => 0x0001
  | .sync => 0x0002
  | .custom => 0x0000
  | .dual => 0x0000

/-- Byte `i` of chip `c`'s stream in a capture given as data (R64, R164). -/
def Capture.streamByte (k : Capture) (o : ByteOrder) (c : Fin 4) (i : Nat) : Byte := o.byteOf (k.word c (i / 4)) (i % 4)

/-- Column `col` of lane `lane` of chip `c` in a capture read back with `n` columns, converted (R162, R165). -/
def Capture.sample (k : Capture) (o : ByteOrder) (c lane : Fin 4) (n col : Nat) : Sample :=
  conv (k.streamByte o c (lane.val * n + col))

/-- How many columns of row `r` of the 8-row view of chip `c`'s stream differ from `e` (R188, R189), counted on the capture itself. -/
def Capture.rowErrors (k : Capture) (o : ByteOrder) (c : Fin 4) (r : Nat) (e : Sample) : Nat :=
  (List.range 128).countP fun col => decide (conv (k.streamByte o c (128 * r + col)) ≠ e)

/-- Tap `j` is good in lane `lane` of chip `c` by the capture taken there: rows `lane` and `lane + 4` show only the expected byte (R188
to R190). -/
def Capture.GoodAt (k : Capture) (o : ByteOrder) (c lane : Fin 4) (e : Sample) : Prop :=
  k.rowErrors o c lane.val e = 0 ∧ k.rowErrors o c (lane.val + 4) e = 0

/-- A capture shows the sync byte in lane 0 of chip `c` when one column is read (R214). -/
def Capture.shows (k : Capture) (o : ByteOrder) (c : Fin 4) (e : Sample) : Bool := decide (conv (k.streamByte o c 0) = e)

/-! ### Synchronising one chip against given captures (R214, R215) -/

/-- How many pulses the loop of R214 issues with `n` attempts left, its captures being the given ones. -/
def syncPulses (o : ByteOrder) (c : Fin 4) (e : Sample) : Nat → List Capture → Nat
  | 0, _ => 0
  | _ + 1, [] => 0
  | n + 1, k :: ks => if k.shows o c e then 0 else syncPulses o c e n ks + 1

/-- How many captures that takes, the final one included (R215). -/
def syncCaptures (pulses : Nat) : Nat := if pulses < 8 then pulses + 2 else 9

/-- The final capture decides (R214). -/
def syncVerdict (o : ByteOrder) (c : Fin 4) (e : Sample) (caps : List Capture) : Bool :=
  match caps[syncCaptures (syncPulses o c e 8 caps) - 1]? with
  | some k => k.shows o c e
  | none => false

/-- The trace of `SyncChip(c)` with that many pulses, oldest first (R214). -/
def syncChipTrace (p : Params) (c : Fin 4) (pulses : Nat) : List TOp :=
  (List.replicate pulses (snapTrace p (oneOf c) 1 ++ slipTrace p (oneOf c))).flatten ++
    if pulses < 8 then snapTrace p (oneOf c) 1 ++ snapTrace p (oneOf c) 1 else snapTrace p (oneOf c) 1

/-- The trace of SETPAT, oldest first (R150). -/
def patternTrace (p : Params) (csmask : BitVec 4) (kind : PatKind) : List TOp :=
  (patternWrites p kind).flatMap fun av => serialTrace p csmask av.1 av.2

/-- What synchronising the chips of a list in order gives: for each, its pulses and its verdict (R213, R214). -/
def syncOutcome (o : ByteOrder) (e : Sample) : List (Fin 4) → List Capture → List (Fin 4 × Nat × Bool)
  | [], _ => []
  | c :: cs, caps =>
    (c, syncPulses o c e 8 caps, syncVerdict o c e caps) ::
      syncOutcome o e cs (caps.drop (syncCaptures (syncPulses o c e 8 caps)))

/-- How many captures that outcome takes (R215). -/
def outcomeCaptures (outcome : List (Fin 4 × Nat × Bool)) : Nat := (outcome.map fun o => syncCaptures o.2.1).sum

end Sys2Proof.Machine
end

