-- ==== Sys2Proof/Certificates/Slice0/Obligations.lean ====
section
/-! DEFINITION. The statements for the provers. `c`, `lane` and `k` name a chip, a logical lane and a column; `t` is the state after
the command. A statement's premises are those of R267: the parameters meet R6, and no operation fails before the command has ended. -/

open Sys2Proof Sys2Proof.Machine

/-! ### Encoding -/

/-- R93 to R99: decoding the word of a command gives the command back, every operand at every value of its field. -/
def Obligations.DecodeOfEncode : Prop := ∀ i : Instr, decode (encode i) = .ok i

/-- R91: a word that decodes to a command is that command's word, so each word has one meaning. -/
def Obligations.EncodeOfDecode : Prop := ∀ (w : Word) (i : Instr), decode w = .ok i → encode i = w

/-- R112, R231: the illegal words are the ones R112 lists, every other word is a command, and an illegal word raises IllegalCommand
with nothing written but the fault registers. Between commands PHASE is IDLE and SUBSTEP 0 (`StepKeepsTheInvariant`). Of the result
registers the statement says only that no valid flag is set: that they may hold any value after this fault too is log 8, the model's
reading of R37 and R236 where R231 and R236 call the fault precise. -/
def Obligations.IllegalWordsRaise : Prop :=
  ∀ w : Word,
    (IllegalWord w → ∃ e, decode w = .error e) ∧ (¬ IllegalWord w → ∃ i, decode w = .ok i) ∧
    ∀ s : State, IllegalWord w → s.fetch = some w → s.env.resetLine = false → s.faults.halt = false → s.work.phase = .idle →
      s.work.substep = 0 → ∃ t, step s = .next t ∧ RefusedWith 3 s t

/-- 95_test_vectors.md section 2.1: words of the ten commands, and words that are none. -/
def Obligations.SampleWords : Prop :=
  decode 0x01000005#32 = .ok (.setcs 0b0101) ∧ decode 0x02A53C5A#32 = .ok (.wrreg 0xA5 0x3C5A) ∧
  decode 0x03000002#32 = .ok .setpatDeskew ∧ decode 0x04000001#32 = .ok (.setfmt true false) ∧
  decode 0x05050002#32 = .ok (.snap 0b101 2) ∧ decode 0x060102C8#32 = .ok (.dlytap 1 200 0b0010) ∧
  decode 0x07040000#32 = .ok (.bitslip 0b100) ∧ decode 0x080300D5#32 = .ok (.caltaps 3 0xD5) ∧
  decode 0x090A0070#32 = .ok (.sync 0b1010 0x70) ∧ decode 0x0A002A70#32 = .ok (.cal 0x2A 0x70) ∧
  decode 0x0B000000#32 = .error .unknownOp ∧ decode 0x07100001#32 = .error .reservedBit ∧
  decode 0x03000006#32 = .error .unknownKind

/-- spec/opcode_table.json: a word that decodes to a command lies in that command's row, and no word lies in two rows. -/
def Obligations.OpcodeRowsFit : Prop :=
  (∀ (w : Word) (i : Instr), decode w = .ok i → w &&& i.row.mask = i.row.pattern) ∧
  ∀ (w : Word) (i j : Instr), w &&& i.row.mask = i.row.pattern → w &&& j.row.mask = j.row.pattern → i.row = j.row

/-- R118, R119: the pseudo-instructions and the default operands give these words. -/
def Obligations.AssemblerWords : Prop :=
  encode .clrpat = 0x03000000#32 ∧ encode .selall = 0x0100000F#32 ∧
  (∀ c : Fin 4, encode (.selchip c) = 0x01000000#32 ||| 1#32 <<< c.val) ∧
  (∀ c : Fin 4, encode (.snap1 c) = 0x05000001#32 ||| 0x10000#32 <<< c.val) ∧
  encode (.caltapsDefault 1) = 0x0801002A#32 ∧ encode (.syncDefault 1) = 0x09010070#32 ∧ encode .calDefault = 0x0A002A70#32

/-! ### The step -/

/-- R21: with reset not asserted and HALT 0, a step runs the command whose word stands at `cp`. -/
def Obligations.StepRunsTheDecodedCommand : Prop :=
  ∀ (s : State) (w : Word) (i : Instr), s.env.resetLine = false → s.faults.halt = false → s.fetch = some w →
    decode w = .ok i → step s = exec i s

/-- R237: a halted sequencer has no step, whatever stands at `cp`. -/
def Obligations.HaltedSequencerHasNoStep : Prop :=
  ∀ s : State, s.env.resetLine = false → s.faults.halt = true → step s = .fault .halted

/-- R21, R266: at the end of the command stream there is no step. -/
def Obligations.EndOfRunHasNoStep : Prop :=
  ∀ s : State, s.env.resetLine = false → s.faults.halt = false → s.prog.length ≤ s.cp → step s = .fault .endOfRun

/-- R260 to R263: an asserted reset is taken before anything else, whatever HALT holds; the registers R261 names take their values,
no operation is issued, and the device stays; so do the command stream and the parameters (log 12). -/
def Obligations.AssertedResetComesFirst : Prop :=
  ∀ s : State, s.env.resetLine = true →
    ∃ t, step s = .next t ∧ t.AtReset ∧ t.port = s.port ∧ t.dev = s.dev ∧ t.prog = s.prog ∧ t.params = s.params ∧
      t.env.resetLine = false

/-- R261, R267: right after reset the registers R261 names hold its values, there is no fault and nothing has been issued. -/
def Obligations.ResetStateIsAtReset : Prop :=
  State.reset.AtReset ∧ State.reset.NoFault ∧ State.reset.port = [] ∧ State.reset.cp = 0 ∧ State.reset.csmask = 0b1111 ∧
  State.reset.faults.errcp = 0 ∧ State.reset.faults.errop = 0

/-- A command word placed where the next step fetches from is the one the step runs (log 13). -/
def Obligations.PlacedWordRuns : Prop :=
  ∀ (s : State) (w : Nat) (i : Instr), s.faults.halt = false → decodeTableWord 32 w = some i →
    step (s.withFetchWord 32 w) = exec i (s.withFetchWord 32 w)

/-! ### Whole-machine rules -/

/-- Every step keeps the invariant: parameters that meet R6, memory canonical and inside CAPBUF, bit counts at most 25, the working
registers idle between commands (R26, R27), ERR zero exactly while HALT is zero (R25), and only legal operations ever issued (R62,
R63, R66, R100, R102). -/
def Obligations.StepKeepsTheInvariant : Prop := ∀ s t : State, s.Inv → step s = .next t → t.Inv

/-- The state right after reset meets the invariant. -/
def Obligations.ResetMeetsTheInvariant : Prop := State.reset.Inv

/-- R70, R72, R80: whatever a step does, it issues a sequence of legal operations and the world behind the port is that sequence
replayed in order, each operation taking effect before the next; only the last one of a step that ended in TransportFailure may
not have taken effect. -/
def Obligations.WorldIsThePortReplayed : Prop :=
  ∀ s t : State, s.params.Wf → step s = .next t →
    ∃ ops : List TOp, t.port = ops.reverse ++ s.port ∧ (∀ op ∈ ops, LegalOp s.params op) ∧
      (t.world = s.world.replay s.params ops ∨
        (t.faults.halt = true ∧ t.faults.err = 2 ∧ ops ≠ [] ∧ t.world = s.world.replay s.params ops.dropLast))

/-- R21, R23, R236, R260: a command completes, faults or is abandoned by reset, and CSMASK, `cp` and the fault registers follow from
which; SETCS alone writes CSMASK. That a reset leaves the command stream and the parameters as they are is the model's choice
(log 12). -/
def Obligations.CommandOutcomes : Prop :=
  ∀ (i : Instr) (s t : State), exec i s = .next t →
    (Completed s t ∧ t.csmask = match i with | .setcs mask => mask | _ => s.csmask) ∨
    (t.cp = s.cp ∧ t.csmask = s.csmask ∧ t.faults.halt = true ∧ t.faults.err ≠ 0 ∧ t.faults.errcp = s.cp ∧
      t.work.phase = .idle ∧ t.work.substep = 0 ∧ t.params = s.params ∧ t.prog = s.prog) ∨
    (t.AtReset ∧ t.params = s.params ∧ t.prog = s.prog ∧ ∃ k op, s.answerAt k op = .resetFirst)

/-- R68: writing the same word to a control word twice has no effect beyond writing it once. -/
def Obligations.RepeatedWriteChangesNothing : Prop :=
  ∀ (p : Params) (w : Word) (d : Device),
    (d.onCtrl0 p w).onCtrl0 p w = d.onCtrl0 p w ∧
    ∀ first second : Fin 4 → Nat → Word, (d.onCtrl1 p w first).onCtrl1 p w second = d.onCtrl1 p w first

/-! ### Faults -/

/-- R111, R232: a command that names a chip that does not exist raises InvalidChipIdentifier before anything else: only the fault
registers are written. Between commands PHASE is IDLE and SUBSTEP 0 (`StepKeepsTheInvariant`). Of the result registers the statement
says only that no valid flag is set: that they may hold any value after this fault too is log 8, the model's reading of R37 and R236
where R232 and R236 call the fault precise. No other command raises it: a command whose chips exist, or that names none (SETCS,
WRREG, SETPAT, SETFMT, CAL), never ends with that code. -/
def Obligations.MissingChipIsRefused : Prop :=
  (∀ (s : State) (chip : BitVec 3) (chips : BitVec 8) (tap expected : BitVec 8) (lanes : BitVec 4) (count : BitVec 16),
    s.work.phase = .idle → s.work.substep = 0 →
    ∃ t, RefusedWith 1 s t ∧
      (3 < chip.toNat → exec (.dlytap chip tap lanes) s = .next t ∧ exec (.caltaps chip expected) s = .next t) ∧
      (chips.extractLsb' 4 4 ≠ 0#4 →
        exec (.snap chips count) s = .next t ∧ exec (.bitslip chips) s = .next t ∧ exec (.sync chips expected) s = .next t)) ∧
  ∀ (i : Instr) (s t : State), i.wellFormed = true → s.NoFault → exec i s = .next t → t.faults.err ≠ 1

/-- R235: a BITSLIP word with a reserved bit set and a missing chip named raises IllegalCommand, not InvalidChipIdentifier. -/
def Obligations.DecodeComesBeforeTheChipCheck : Prop :=
  ∀ s : State, s.env.resetLine = false → s.faults.halt = false → s.fetch = some 0x07100001#32 →
    ∃ t, step s = .next t ∧ t.faults = { halt := true, err := 3, errcp := s.cp, errop := 0 } ∧ t.dev = s.dev ∧ t.port = s.port

/-- R80, R233, R236: operations 0 to k - 1 complete and operation k fails. If the command has more than k operations it ends in
TransportFailure with ERROP = k: exactly k + 1 operations were issued, the first k took effect in order and the last did or did not.
Otherwise it completes. Every command whose chips exist is covered; a command that always has more than k operations faults. -/
def Obligations.FailingOperationStopsTheCommand : Prop :=
  ∀ (i : Instr) (s : State) (k : Nat), s.params.Wf → i.wellFormed = true → s.NoTransportFailure k →
    (∀ op, ∃ landed, s.answerAt k op = .fails landed) →
    ∃ (t : State) (ops : List TOp), exec i s = .next t ∧ t.port = ops.reverse ++ s.port ∧
      ((minOps i ≤ k ∧ ops.length ≤ k ∧ Completed s t) ∨
        (FaultedAt k s t ∧ ops.length = k + 1 ∧ t.env.resetLine = s.env.resetLine ∧
          (t.world = s.world.replay s.params ops ∨ t.world = s.world.replay s.params ops.dropLast)))

/-- R260, R261, R262: reset asserted when the command is about to issue operation k abandons it there: the first k operations are
all that was issued, and the registers R261 names hold its values. A command that has no operation k has completed before; this
covers every operation, those after the first `minOps` of CALTAPS, SYNC and CAL included. That a reset leaves the command stream and
the parameters as they are is the model's choice (log 12). -/
def Obligations.ResetAbandonsTheCommand : Prop :=
  ∀ (i : Instr) (s : State) (k : Nat), s.params.Wf → i.wellFormed = true → s.NoTransportFailure k →
    (∀ op, s.answerAt k op = .resetFirst) →
    ∃ (t : State) (ops : List TOp), exec i s = .next t ∧ t.port = ops.reverse ++ s.port ∧ t.world = s.world.replay s.params ops ∧
      t.params = s.params ∧ t.prog = s.prog ∧
      ((minOps i ≤ k ∧ ops.length ≤ k ∧ Completed s t) ∨ (t.AtReset ∧ ops.length = k))

/-! ### Every command completes -/

/-- R130, R131, R133, R150, R153, R162, R182, R196, R211, R215, R220: with no failing operation every command whose chips exist
completes, after at least `minOps` and at most `maxOps` operations. -/
def Obligations.CommandsCompleteWithinTheirCounts : Prop :=
  ∀ (i : Instr) (s : State), i.wellFormed = true → s.NoTransportFailure (maxOps i) →
    ∃ (t : State) (ops : List TOp), exec i s = .next t ∧ Completed s t ∧ t.port = ops.reverse ++ s.port ∧ minOps i ≤ ops.length ∧
      ops.length ≤ maxOps i

/-! ### SETCS, WRREG, SETPAT, SETFMT -/

/-- R131: SETCS writes CSMASK, performs no operation, writes no result register and completes in every state. -/
def Obligations.SetcsWritesTheMask : Prop :=
  ∀ (s : State) (mask : BitVec 4),
    ∃ t, exec (.setcs mask) s = .next t ∧ Completed s t ∧ t.csmask = mask ∧ t.port = s.port ∧ t.dev = s.dev ∧ t.res = s.res

/-- R100, R134, R138: the fields of the words written to CTRL0. A bit word carries its bit, the complement of CSMASK, the clock level,
and 0 elsewhere; an idle word has all selects high and 0 elsewhere; the two words of a bit differ in the clock alone. -/
def Obligations.Ctrl0WordFields : Prop :=
  ∀ (p : Params) (mask : BitVec 4) (b : Bool), p.Ctrl0Wf →
    (∀ c : Fin 4, (loWord p mask b).getLsbD (p.csLsb + c.val) = !mask.getLsbD c.val ∧
      (hiWord p mask b).getLsbD (p.csLsb + c.val) = !mask.getLsbD c.val ∧ (idleWord p).getLsbD (p.csLsb + c.val) = true) ∧
    (loWord p mask b).getLsbD p.sdataBit = b ∧ (hiWord p mask b).getLsbD p.sdataBit = b ∧
    (idleWord p).getLsbD p.sdataBit = false ∧ (loWord p mask b).getLsbD p.sclkBit = false ∧
    (hiWord p mask b).getLsbD p.sclkBit = true ∧ (idleWord p).getLsbD p.sclkBit = false ∧
    ∀ j, (j ≠ p.sclkBit → (hiWord p mask b).getLsbD j = (loWord p mask b).getLsbD j) ∧
      (j ≠ p.sclkBit → j ≠ p.sdataBit → ¬ (p.csLsb ≤ j ∧ j ≤ p.csLsb + 3) →
        (loWord p mask b).getLsbD j = false ∧ (idleWord p).getLsbD j = false)

/-- R133: WRREG writes exactly the fifty words of the closed form, in order, and nothing else. -/
def Obligations.WrregTrace : Prop :=
  ∀ (s : State) (addr : BitVec 8) (value : BitVec 16), s.NoTransportFailure 50 →
    ∃ t, exec (.wrreg addr value) s = .next t ∧ Completed s t ∧
      t.port = (serialTrace s.params s.csmask addr value).reverse ++ s.port

/-- R137: a completed WRREG sets the register at `addr` of exactly the selected chips to `value`. The premise `NoStaleFrame` rules out
the residue of R74, a complete frame left open by an aborted cycle. -/
def Obligations.WrregWritesSelectedChips : Prop :=
  ∀ (s : State) (addr : BitVec 8) (value : BitVec 16), s.params.Wf → s.NoStaleFrame → s.NoTransportFailure 50 →
    ∃ t, exec (.wrreg addr value) s = .next t ∧ Completed s t ∧
      ∀ (c : Fin 4) (x : BitVec 8), t.dev.chips[c].adcreg[x.toNat] =
        if s.csmask.getLsbD c.val = true ∧ x = addr then value else s.dev.chips[c].adcreg[x.toNat]

/-- R74, R139: whatever CTRL0 and the receivers held before, every selected chip ends with `value` at `addr`; a chip that had no
complete frame open keeps every other register, and a chip that had one latches it at its own address first. -/
def Obligations.WrregFromAnyReceiverState : Prop :=
  ∀ (s : State) (addr : BitVec 8) (value : BitVec 16), s.params.Wf → s.NoTransportFailure 50 →
    ∃ t, exec (.wrreg addr value) s = .next t ∧ Completed s t ∧
      ∀ (c : Fin 4) (x : BitVec 8), t.dev.chips[c].adcreg[x.toNat] =
        if s.csmask.getLsbD c.val = true ∧ x = addr then value
        else if selects s.params s.dev.prev0 c = true ∧ s.dev.chips[c].rxcnt = 24 ∧ x = s.dev.chips[c].rxsr.extractLsb' 16 8 then
          s.dev.chips[c].rxsr.extractLsb' 0 16
        else s.dev.chips[c].adcreg[x.toNat]

/-- R150: SETPAT writes its two clearing cycles and, for every kind but none, its setting cycle, in that order. -/
def Obligations.SetpatTrace : Prop :=
  ∀ (s : State) (kind : PatKind), s.NoTransportFailure 150 →
    let cycle := serialTrace s.params s.csmask
    let clears := cycle s.params.patRegA 0x0000 ++ cycle s.params.patRegB 0x0000
    ∃ t, exec kind.instr s = .next t ∧ Completed s t ∧
      t.port =
        (match kind with
          | .none => clears
          | .ramp => clears ++ cycle s.params.patRegA 0x0040
          | .deskew => clears ++ cycle s.params.patRegB 0x0001
          | .sync => clears ++ cycle s.params.patRegB 0x0002
          | .custom => clears ++ cycle s.params.patRegA 0x0010
          | .dual => clears ++ cycle s.params.patRegA 0x0020).reverse ++ s.port

/-- R151: after a completed SETPAT every selected chip holds the table's values in the two pattern registers, and no other register of
any chip has changed, but for the one that a complete frame left open by an aborted cycle is latched into first (R74, R139). -/
def Obligations.SetpatSelectsThePattern : Prop :=
  ∀ (s : State) (kind : PatKind), s.params.Wf → s.NoTransportFailure 150 →
    ∃ t, exec kind.instr s = .next t ∧ Completed s t ∧
      ∀ (c : Fin 4) (x : BitVec 8), t.dev.chips[c].adcreg[x.toNat] =
        if s.csmask.getLsbD c.val = true ∧ x = s.params.patRegA then kind.valueA
        else if s.csmask.getLsbD c.val = true ∧ x = s.params.patRegB then kind.valueB
        else s.dev.closedReg s.params c x

/-- R106, R153: a completed SETFMT writes 0x0000, 0x0004, 0x0008 or 0x000C to the format register of the selected chips, one cycle, and
no other register of any chip changes, but for the one that a complete frame left open by an aborted cycle is latched into first
(R74, R139). -/
def Obligations.SetfmtWritesTheFormat : Prop :=
  ∀ (s : State) (invertMsb msbFirst : Bool), s.params.Wf → s.NoTransportFailure 50 →
    let value : BitVec 16 :=
      match invertMsb, msbFirst with
      | false, false => 0x0000
      | true, false => 0x0004
      | false, true => 0x0008
      | true, true => 0x000C
    ∃ t, exec (.setfmt invertMsb msbFirst) s = .next t ∧ Completed s t ∧
      t.port = (serialTrace s.params s.csmask s.params.fmtReg value).reverse ++ s.port ∧
      ∀ (c : Fin 4) (x : BitVec 8), t.dev.chips[c].adcreg[x.toNat] =
        if s.csmask.getLsbD c.val = true ∧ x = s.params.fmtReg then value else s.dev.closedReg s.params c x

/-- The frame of WRREG, SETPAT (every kind) and SETFMT when they complete: CSMASK, every result register, CTRL1, every byte of memory,
the taps and the slips stay; CTRL0 ends at the idle word; of the working registers only SR, BITIDX and PHASE change (log 15); a chip
outside the mask with no complete frame open keeps its registers, and every chip's bit count is 0 if it was selected. -/
def Obligations.SerialCommandsFrame : Prop :=
  ∀ (i : Instr) (s t : State), isSerial i = true → s.params.Wf → exec i s = .next t → t.cp = s.cp + 1 →
    Completed s t ∧ t.csmask = s.csmask ∧ t.res = s.res ∧ SameCapture s.dev t.dev ∧
    t.env.captures = s.env.captures ∧
    t.work = { s.work with sr := t.work.sr, bitidx := 0, phase := .idle, substep := 0 } ∧
    t.dev.ctrl0 = idleWord s.params ∧ t.dev.prev0 = idleWord s.params ∧
    ∀ c : Fin 4,
      (s.csmask.getLsbD c.val = true → t.dev.chips[c].rxcnt = 0) ∧
      (s.csmask.getLsbD c.val = false → (selects s.params s.dev.prev0 c = true → s.dev.chips[c].rxcnt ≠ 24) →
        t.dev.chips[c].adcreg = s.dev.chips[c].adcreg)

/-! ### Words and functions -/

/-- R10: the lane-bit reversal is what R10 writes and is its own inverse; the sign conversion is the formula, lies in -128..127, and
adding back modulo 256 recovers the byte. -/
def Obligations.ReversalAndConversion : Prop :=
  (∀ (m : BitVec 4) (lane : Fin 4), (rev4 m).getLsbD lane.val = m.getLsbD (3 - lane.val)) ∧
  (∀ m : BitVec 4, rev4 (rev4 m) = m) ∧
  ∀ b : Byte, (conv b).toInt = ((b.toNat : Int) + 128) % 256 - 128 ∧ (conv b).toInt % 256 = b.toNat ∧
    (conv b).toInt = if b.toNat ≤ 127 then (b.toNat : Int) else (b.toNat : Int) - 256

/-- R41, R102, R183: the fields of the words written to CTRL1, for every chip and lane, and 0 in every bit outside the four fields. -/
def Obligations.Ctrl1WordFields : Prop :=
  ∀ (p : Params) (set lanes : BitVec 4) (tap : BitVec 5) (c : Fin 4), p.Ctrl1Wf →
    (trigWord p).getLsbD p.snapBit = true ∧ (slipWord p set).getLsbD p.snapBit = false ∧
    (tapWord p tap).getLsbD p.snapBit = false ∧ (tapResetWord p tap c lanes).getLsbD p.snapBit = false ∧
    tapField p (trigWord p) = 0 ∧ tapField p (slipWord p set) = 0 ∧ tapField p (tapWord p tap) = tap ∧
    tapField p (tapResetWord p tap c lanes) = tap ∧
    ∀ c' lane : Fin 4,
      (trigWord p).getLsbD (p.bitslipLsb + c'.val) = false ∧
      (slipWord p set).getLsbD (p.bitslipLsb + c'.val) = set.getLsbD c'.val ∧
      (tapWord p tap).getLsbD (p.bitslipLsb + c'.val) = false ∧
      (tapResetWord p tap c lanes).getLsbD (p.bitslipLsb + c'.val) = false ∧
      (trigWord p).getLsbD (strobeBit p c' lane) = false ∧ (slipWord p set).getLsbD (strobeBit p c' lane) = false ∧
      (tapWord p tap).getLsbD (strobeBit p c' lane) = false ∧
      (tapResetWord p tap c lanes).getLsbD (strobeBit p c' lane) = (decide (c' = c) && lanes.getLsbD lane.val) ∧
      ∀ j, j ≠ p.snapBit → ¬ (p.bitslipLsb ≤ j ∧ j ≤ p.bitslipLsb + 3) → ¬ (p.tapLsb ≤ j ∧ j ≤ p.tapLsb + 4) →
        ¬ (p.rstLsb ≤ j ∧ j ≤ p.rstLsb + 15) →
        (trigWord p).getLsbD j = false ∧ (slipWord p set).getLsbD j = false ∧ (tapWord p tap).getLsbD j = false ∧
        (tapResetWord p tap c lanes).getLsbD j = false

/-! ### DLYTAP and BITSLIP -/

/-- R182, R184 (the clamp: R110): DLYTAP writes its three words and loads the clamped tap into exactly the lanes of the mask of its
chip; every other tap stays. -/
def Obligations.DlytapLoadsItsLanes : Prop :=
  ∀ (s : State) (chip : BitVec 3) (tap : BitVec 8) (lanes : BitVec 4) (c : Fin 4), s.params.Wf → chip.toNat = c.val →
    s.NoTransportFailure 3 →
    let tap' : BitVec 5 := BitVec.ofNat 5 (min tap.toNat 31)
    ∃ t, exec (.dlytap chip tap lanes) s = .next t ∧ Completed s t ∧
      t.port = (delayTrace s.params c tap' lanes).reverse ++ s.port ∧
      ∀ c' lane : Fin 4, t.dev.chips[c'].tap[lane] =
        if c' = c ∧ lanes.getLsbD lane.val = true then tap' else s.dev.chips[c'].tap[lane]

/-- R211: BITSLIP writes its three words and slips each chip of the set by one position; no other chip is slipped. -/
def Obligations.BitslipPulsesItsChips : Prop :=
  ∀ (s : State) (chips : BitVec 8) (set : BitVec 4), s.params.Wf → chips = 0#4 ++ set → s.NoTransportFailure 3 →
    ∃ t, exec (.bitslip chips) s = .next t ∧ Completed s t ∧ t.port = (slipTrace s.params set).reverse ++ s.port ∧
      ∀ c : Fin 4, t.dev.chips[c].slip = if set.getLsbD c.val then s.dev.chips[c].slip + 1 else s.dev.chips[c].slip

/-- The frame of SETCS, DLYTAP and BITSLIP when they complete: every result register, every working register but SUBSTEP (log 15),
the CTRL0 side of the device, every byte of memory and the count of captures stay; CSMASK and CTRL1 change only by SETCS and by the
other two, which leave CTRL1 at zero; no tap changes but by DLYTAP and no slip but by BITSLIP. -/
def Obligations.PulseCommandsFrame : Prop :=
  ∀ (i : Instr) (s t : State), isPulse i = true → s.params.Wf → exec i s = .next t → t.cp = s.cp + 1 →
    Completed s t ∧ t.res = s.res ∧ t.work = { s.work with substep := 0 } ∧ SameSerial s.dev t.dev ∧ SameMemory s.dev t.dev ∧
    t.dev.captures = s.dev.captures ∧ t.env.captures = s.env.captures ∧
    match i with
    | .dlytap _ _ _ =>
      t.csmask = s.csmask ∧ t.dev.ctrl1 = 0 ∧ t.dev.prev1 = 0 ∧ ∀ c : Fin 4, t.dev.chips[c].slip = s.dev.chips[c].slip
    | .bitslip _ =>
      t.csmask = s.csmask ∧ t.dev.ctrl1 = 0 ∧ t.dev.prev1 = 0 ∧ ∀ c : Fin 4, t.dev.chips[c].tap = s.dev.chips[c].tap
    | _ => t.dev = s.dev ∧ t.port = s.port

/-! ### SNAP -/

/-- R30, R161 to R166: SNAP performs one trigger and one block read per chip of the set in ascending order, and the sample of chip `c`, lane
`L`, column `k` is the converted byte `L * n + k` of the chip's part of CAPBUF; SAMPLE_LEN is the clamped count and the length of every lane's sequence. -/
def Obligations.SnapReadsTheCapture : Prop :=
  ∀ (s : State) (chips : BitVec 8) (count : BitVec 16) (set : BitVec 4), s.params.Wf → chips = 0#4 ++ set →
    s.NoTransportFailure (3 + (chipsIn set).length) →
    let n := max 1 (min count.toNat 1024)
    ∃ t, exec (.snap chips count) s = .next t ∧ Completed s t ∧
      t.port = (snapTrace s.params set n).reverse ++ s.port ∧ t.res.sampleLen.toNat = n ∧ t.res.sampleValid = set ∧
      (∀ c lane : Fin 4, (t.res.sampleSeq c lane).length = n) ∧
      ∀ (c lane : Fin 4) (k : Fin 1024), set.getLsbD c.val = true → k.val < n →
        t.res.samples[c][lane][k] = conv (t.dev.capbuf.read (4 * (c.val * 1024) + (lane.val * n + k.val)))

/-- R64, R75: the capture SNAP takes replaces all of CAPBUF, every chip's part, whatever chips it reads back; byte `j` of word `i` of
the stream is byte `3 - j` of the capture's word in big-endian order and byte `j` in little-endian order. -/
def Obligations.SnapCapturesEveryChip : Prop :=
  ∀ (s : State) (chips : BitVec 8) (count : BitVec 16) (set : BitVec 4) (first : Capture) (later : List Capture),
    s.params.Wf → chips = 0#4 ++ set → s.NoTransportFailure (3 + (chipsIn set).length) → s.env.captures = first :: later →
    ∃ t, exec (.snap chips count) s = .next t ∧ Completed s t ∧ t.env.captures = later ∧
      t.dev.captures = s.dev.captures + 1 ∧ t.dev.capbuf.wf = true ∧
      (∀ (c : Fin 4) (i : Fin 1024) (j : Fin 4), t.dev.capbuf.read (4 * (c.val * 1024 + i.val) + j.val) =
        (first.word c i.val).extractLsb' (if s.params.byteOrder = .big then 8 * (3 - j.val) else 8 * j.val) 8) ∧
      ∀ a, 16384 ≤ a → t.dev.capbuf.read a = 0

/-- The frame of a completed SNAP: CSMASK, the calibration and synchronisation results, the CTRL0 side of the device, the taps and the
slips stay; of the working registers only RAW changes (log 15); no byte outside CAPBUF changes; one capture is taken; CTRL1 ends at zero. -/
def Obligations.SnapFrame : Prop :=
  ∀ (s t : State) (chips : BitVec 8) (count : BitVec 16), s.params.Wf → s.dev.Inv → exec (.snap chips count) s = .next t →
    t.cp = s.cp + 1 →
    Completed s t ∧ t.csmask = s.csmask ∧ SameSerial s.dev t.dev ∧ t.dev.ctrl1 = 0 ∧ t.dev.prev1 = 0 ∧
    t.dev.captures = s.dev.captures + 1 ∧ t.env.captures = s.env.captures.tail ∧
    (∀ a, 16384 ≤ a → t.dev.capbuf.read a = s.dev.capbuf.read a) ∧
    (∀ c : Fin 4, t.dev.chips[c].tap = s.dev.chips[c].tap ∧ t.dev.chips[c].slip = s.dev.chips[c].slip) ∧
    t.work = { s.work with raw := t.work.raw, substep := 0 } ∧
    t.res =
      { s.res with
        samples := t.res.samples
        sampleLen := t.res.sampleLen
        sampleValid := t.res.sampleValid }

/-! ### CALTAPS -/

/-- R192: a good-tap list wider than 16 becomes the ascending list of its taps with 32 added to those below 16, all in 16..47; any
other list stays. -/
def Obligations.RotateRule : Prop :=
  ∀ good : BitVec 32,
    let g := tapsOf good
    (maxOf g - minOf g ≤ 16 → rotate g = g) ∧
    (16 < maxOf g - minOf g →
      (rotate g).Perm (g.map fun t => if t < 16 then t + 32 else t) ∧ (rotate g).Pairwise (· ≤ ·) ∧
      ∀ t ∈ rotate g, 16 ≤ t ∧ t ≤ 47)

/-- R197 (j): the selected tap of a lane with a good tap is itself good. -/
def Obligations.SelectedTapIsGood : Prop :=
  ∀ good : BitVec 32, tapsOf good ≠ [] → good.getLsbD (selectTap (tapsOf good)).toNat = true

/-- R34, R186, R187, R191, R194 to R196: CALTAPS performs the sweep and then one delay write per lane with a good tap; a tap is good
exactly when both its counts are 0; such a lane ends at its selected tap and any other lane at tap 31; no other chip's tap
changes; CAL_VALID, CAL_CHIP, SAMPLE_LEN and SAMPLE_VALID say what was done. -/
def Obligations.CaltapsSweepsAndSelects : Prop :=
  ∀ (s : State) (chip : BitVec 3) (expected : BitVec 8) (c : Fin 4), s.params.Wf → chip.toNat = c.val → s.NoTransportFailure 236 →
    ∃ t, exec (.caltaps chip expected) s = .next t ∧ Completed s t ∧
      t.port = (sweepTrace s.params c ++ selectTrace s.params c t.res.good).reverse ++ s.port ∧
      t.res.calValid = true ∧ t.res.calChip = c ∧ t.res.sampleLen = 256 ∧ t.res.sampleValid = 1#4 <<< c.val ∧
      (∀ (lane : Fin 4) (j : Fin 32),
        (t.res.good[lane].getLsbD j.val = true ↔ t.res.errcnt[lane][j] = (0, 0)) ∧
        t.res.errcnt[lane][j].1.toNat ≤ 128 ∧ t.res.errcnt[lane][j].2.toNat ≤ 128) ∧
      ∀ c' lane : Fin 4, t.dev.chips[c'].tap[lane] =
        if c' = c then
          if tapsOf t.res.good[lane] = [] then 31 else selectTap (tapsOf t.res.good[lane])
        else s.dev.chips[c'].tap[lane]

/-- R188 to R190: with the captures given, the counts of lane `L` at tap `j` are the numbers of bytes of rows `L` and `L + 4` of the
8-row view of the chip's stream in the capture taken at that tap which, converted, differ from the expected byte; the tap is
good when both are 0. SAMPLES of the chip holds the 256 columns of the capture at tap 31 (R196). -/
def Obligations.CaltapsCountsItsCaptures : Prop :=
  ∀ (s : State) (chip : BitVec 3) (expected : BitVec 8) (c : Fin 4) (taken : Fin 32 → Capture), s.params.Wf →
    chip.toNat = c.val → s.NoTransportFailure 236 → (∀ j : Fin 32, s.env.captures[j.val]? = some (taken j)) →
    ∃ t, exec (.caltaps chip expected) s = .next t ∧ Completed s t ∧ t.env.captures = s.env.captures.drop 32 ∧
      (∀ (lane : Fin 4) (j : Fin 32),
        t.res.errcnt[lane][j].1.toNat = (taken j).rowErrors s.params.byteOrder c lane.val expected ∧
        t.res.errcnt[lane][j].2.toNat = (taken j).rowErrors s.params.byteOrder c (lane.val + 4) expected ∧
        (t.res.good[lane].getLsbD j.val = true ↔ (taken j).GoodAt s.params.byteOrder c lane expected)) ∧
      t.res.sampleLen = 256 ∧ t.res.sampleValid = 1#4 <<< c.val ∧
      ∀ (lane : Fin 4) (k : Fin 1024), k.val < 256 →
        t.res.samples[c][lane][k] = (taken 31).sample s.params.byteOrder c lane 256 k.val

/-- R197 (a), (h): if every capture of the sweep shows the expected byte everywhere in the chip's stream, all 32 taps are good in every
lane and each lane is set to tap 0; if no capture shows it in some row of every lane, no tap is good and each lane stays at tap 31. -/
def Obligations.CaltapsExtremes : Prop :=
  ∀ (s : State) (chip : BitVec 3) (expected : BitVec 8) (c : Fin 4) (taken : Fin 32 → Capture), s.params.Wf →
    chip.toNat = c.val → s.NoTransportFailure 236 → (∀ j : Fin 32, s.env.captures[j.val]? = some (taken j)) →
    ((∀ (j : Fin 32) (i : Fin 1024), conv ((taken j).streamByte s.params.byteOrder c i.val) = expected) →
      ∃ t, exec (.caltaps chip expected) s = .next t ∧ Completed s t ∧
        ∀ lane : Fin 4, t.res.good[lane] = 0xFFFFFFFF#32 ∧ t.dev.chips[c].tap[lane] = 0) ∧
    ((∀ (j : Fin 32) (lane : Fin 4), ∃ col : Fin 128,
        conv ((taken j).streamByte s.params.byteOrder c (128 * lane.val + col.val)) ≠ expected) →
      ∃ t, exec (.caltaps chip expected) s = .next t ∧ Completed s t ∧
        ∀ lane : Fin 4, t.res.good[lane] = 0 ∧ t.dev.chips[c].tap[lane] = 31)

/-- The frame of a completed CALTAPS: CSMASK, SYNCOK, SYNC_VALID, the CTRL0 side of the device and the slips stay, and no tap of
another chip changes; no byte outside CAPBUF changes; 32 captures were taken and CTRL1 ends at zero; the working registers that
CALTAPS does not use stay (log 15). -/
def Obligations.CaltapsFrame : Prop :=
  ∀ (s t : State) (chip : BitVec 3) (expected : BitVec 8), s.params.Wf → s.dev.Inv → exec (.caltaps chip expected) s = .next t →
    t.cp = s.cp + 1 →
    Completed s t ∧ t.csmask = s.csmask ∧ t.res.syncok = s.res.syncok ∧ t.res.syncValid = s.res.syncValid ∧
    SameSerial s.dev t.dev ∧ t.dev.ctrl1 = 0 ∧ t.dev.prev1 = 0 ∧ t.dev.captures = s.dev.captures + 32 ∧
    t.env.captures = s.env.captures.drop 32 ∧ (∀ a, 16384 ≤ a → t.dev.capbuf.read a = s.dev.capbuf.read a) ∧
    (∀ c : Fin 4, t.dev.chips[c].slip = s.dev.chips[c].slip) ∧
    (∀ c lane : Fin 4, c.val ≠ chip.toNat → t.dev.chips[c].tap[lane] = s.dev.chips[c].tap[lane]) ∧
    t.work.phase = s.work.phase ∧ t.work.sr = s.work.sr ∧ t.work.bitidx = s.work.bitidx ∧ t.work.attempt = s.work.attempt

/-! ### SYNC -/

/-- R213 to R215, R217: with the captures given, SYNC handles its chips in ascending order; for each, the number of pulses is that of the
loop of at most eight attempts on the captures still to come, the final capture decides SYNCOK, and the trace is the one those
numbers give. Afterwards SAMPLES holds the one column of the last capture, for the highest chip of the set (R216). -/
def Obligations.SyncFollowsItsCaptures : Prop :=
  ∀ (s : State) (chips : BitVec 8) (set : BitVec 4) (expected : BitVec 8), s.params.Wf → chips = 0#4 ++ set →
    s.NoTransportFailure 240 → 36 ≤ s.env.captures.length →
    let outcome := syncOutcome s.params.byteOrder expected (chipsIn set) s.env.captures
    ∃ t, exec (.sync chips expected) s = .next t ∧ Completed s t ∧ t.res.syncValid = set ∧
      t.port = (outcome.flatMap fun o => syncChipTrace s.params o.1 o.2.1).reverse ++ s.port ∧
      outcome.map (fun o => o.1) = chipsIn set ∧
      (∀ (c : Fin 4) (pulses : Nat) (ok : Bool), (c, pulses, ok) ∈ outcome →
        pulses ≤ 8 ∧ t.dev.chips[c].slip = s.dev.chips[c].slip + pulses ∧ t.res.syncok[c] = ok) ∧
      t.env.captures = s.env.captures.drop (outcomeCaptures outcome) ∧ outcomeCaptures outcome ≤ 9 * (chipsIn set).length ∧
      ∀ (c lane : Fin 4) (last : Capture), (chipsIn set).getLast? = some c →
        s.env.captures[outcomeCaptures outcome - 1]? = some last →
        t.res.sampleLen = 1 ∧ t.res.sampleValid = 1#4 <<< c.val ∧
        t.res.samples[c][lane][(0 : Fin 1024)] = last.sample s.params.byteOrder c lane 1 0

/-- R213, R214, R215: whatever the captures, SYNC handles its chips in ascending order, each with at most eight attempts: a capture
and a pulse per mismatch, then, unless all eight mismatched, the matching capture, then the final capture. That is 7 k + 8
operations for k pulses below eight and 60 for eight, and the chip is slipped once per pulse. -/
def Obligations.SyncTrace : Prop :=
  ∀ (s : State) (chips : BitVec 8) (set : BitVec 4) (expected : BitVec 8), s.params.Wf → chips = 0#4 ++ set →
    s.NoTransportFailure 240 →
    ∃ (t : State) (pulses : Fin 4 → Nat), exec (.sync chips expected) s = .next t ∧ Completed s t ∧ t.res.syncValid = set ∧
      t.port = ((chipsIn set).flatMap fun c => syncChipTrace s.params c (pulses c)).reverse ++ s.port ∧
      ∀ c : Fin 4, pulses c ≤ 8 ∧
        (syncChipTrace s.params c (pulses c)).length = (if pulses c < 8 then 7 * pulses c + 8 else 60) ∧
        t.dev.chips[c].slip = if set.getLsbD c.val then s.dev.chips[c].slip + pulses c else s.dev.chips[c].slip

/-- R213, R214, R216: the frame of a completed SYNC: CSMASK, the calibration results, the CTRL0 side of the device and every tap
stay; only the chips of the set are slipped, each at most eight times; no byte outside CAPBUF changes; SYNC_VALID is the set; if
the set is empty nothing is issued and the device is untouched; the working registers that SYNC does not use stay (log 15). -/
def Obligations.SyncFrame : Prop :=
  ∀ (s t : State) (chips expected : BitVec 8), s.params.Wf → s.dev.Inv → exec (.sync chips expected) s = .next t →
    t.cp = s.cp + 1 →
    Completed s t ∧ t.csmask = s.csmask ∧ t.res.syncValid = chips.extractLsb' 0 4 ∧ t.res.errcnt = s.res.errcnt ∧
    t.res.good = s.res.good ∧ t.res.calValid = s.res.calValid ∧ t.res.calChip = s.res.calChip ∧ SameSerial s.dev t.dev ∧
    (∀ c : Fin 4, t.dev.chips[c].tap = s.dev.chips[c].tap ∧ s.dev.chips[c].slip ≤ t.dev.chips[c].slip ∧
      t.dev.chips[c].slip ≤ s.dev.chips[c].slip + if chips.getLsbD c.val then 8 else 0) ∧
    (∀ a, 16384 ≤ a → t.dev.capbuf.read a = s.dev.capbuf.read a) ∧
    (chips = 0 → t.dev = s.dev ∧ t.port = s.port) ∧
    (chips ≠ 0 → t.res.sampleLen = 1 ∧ (∃ c : Fin 4, chips.getLsbD c.val = true ∧ t.res.sampleValid = 1#4 <<< c.val ∧
      ∀ c' : Fin 4, chips.getLsbD c'.val = true → c' ≤ c) ∧ t.dev.ctrl1 = 0 ∧ t.dev.prev1 = 0) ∧
    t.work.phase = s.work.phase ∧ t.work.sr = s.work.sr ∧ t.work.bitidx = s.work.bitidx ∧ t.work.tapidx = s.work.tapidx ∧
    t.work.evcnt = s.work.evcnt ∧ t.work.odcnt = s.work.odcnt

/-! ### CAL -/

/-- R219 to R222: CAL completes after 1228 to 1484 operations; the calibration results describe chip 3, SYNCOK covers all four chips,
the sync pattern is left on in the selected chips, and every other register stays, but for the one that a complete frame left open by
an aborted cycle is latched into first (R74, R139). What the results are is `CalFollowsItsCaptures`. -/
def Obligations.CalCalibratesEveryChip : Prop :=
  ∀ (s : State) (deskewExpected syncExpected : BitVec 8), s.params.Wf → s.NoTransportFailure 1484 →
    ∃ (t : State) (ops : List TOp), exec (.cal deskewExpected syncExpected) s = .next t ∧ Completed s t ∧ t.port = ops.reverse ++ s.port ∧
      1228 ≤ ops.length ∧ ops.length ≤ 1484 ∧ t.res.calValid = true ∧ t.res.calChip = 3 ∧ t.res.syncValid = 0b1111 ∧
      t.res.sampleLen = 1 ∧ t.res.sampleValid = 0b1000 ∧ t.csmask = s.csmask ∧
      (∀ (lane : Fin 4) (j : Fin 32), t.res.good[lane].getLsbD j.val = true ↔ t.res.errcnt[lane][j] = (0, 0)) ∧
      (∀ lane : Fin 4, t.dev.chips[(3 : Fin 4)].tap[lane] =
        if tapsOf t.res.good[lane] = [] then 31 else selectTap (tapsOf t.res.good[lane])) ∧
      (∀ (c : Fin 4) (x : BitVec 8), t.dev.chips[c].adcreg[x.toNat] =
        if s.csmask.getLsbD c.val = true ∧ x = s.params.patRegA then 0x0000
        else if s.csmask.getLsbD c.val = true ∧ x = s.params.patRegB then 0x0002
        else s.dev.closedReg s.params c x) ∧
      ∀ c : Fin 4, s.dev.chips[c].slip ≤ t.dev.chips[c].slip ∧ t.dev.chips[c].slip ≤ s.dev.chips[c].slip + 8

/-- The frame of a completed CAL: CSMASK stays, CTRL0 ends at the idle word and CTRL1 at zero, no byte outside CAPBUF changes, a
selected chip ends with no bit of a frame received, and an unselected chip with no complete frame open keeps its registers. -/
def Obligations.CalFrame : Prop :=
  ∀ (s t : State) (deskewExpected syncExpected : BitVec 8), s.params.Wf → s.dev.Inv →
    exec (.cal deskewExpected syncExpected) s = .next t → t.cp = s.cp + 1 →
    Completed s t ∧ t.csmask = s.csmask ∧ t.dev.ctrl0 = idleWord s.params ∧ t.dev.prev0 = idleWord s.params ∧
    t.dev.ctrl1 = 0 ∧ t.dev.prev1 = 0 ∧ (∀ a, 16384 ≤ a → t.dev.capbuf.read a = s.dev.capbuf.read a) ∧
    ∀ c : Fin 4,
      (s.csmask.getLsbD c.val = true → t.dev.chips[c].rxcnt = 0) ∧
      (s.csmask.getLsbD c.val = false → (selects s.params s.dev.prev0 c = true → s.dev.chips[c].rxcnt ≠ 24) →
        t.dev.chips[c].adcreg = s.dev.chips[c].adcreg)

/-- R187, R191, R194, R195, R214, R219: the operations of CAL are those of SETPAT deskew, CALTAPS of chips 0 to 3, SETPAT sync and
SYNC of all four chips, in that order; every lane of every chip ends at the tap its own sweep selects, or at 31 if that sweep
found no good tap; every chip is slipped once per pulse, at most eight times. A tap is in chip `c`'s map exactly when the capture
taken at it, where that capture is given, shows only the deskew byte in both rows of the lane. -/
def Obligations.CalTrace : Prop :=
  ∀ (s : State) (deskewExpected syncExpected : BitVec 8), s.params.Wf → s.NoTransportFailure 1484 →
    ∃ (t : State) (good : Fin 4 → Vector (BitVec 32) 4) (pulses : Fin 4 → Nat),
      exec (.cal deskewExpected syncExpected) s = .next t ∧ Completed s t ∧ good 3 = t.res.good ∧
      t.port = (patternTrace s.params s.csmask .deskew ++
        (List.finRange 4).flatMap (fun c => sweepTrace s.params c ++ selectTrace s.params c (good c)) ++
        patternTrace s.params s.csmask .sync ++
        (List.finRange 4).flatMap fun c => syncChipTrace s.params c (pulses c)).reverse ++ s.port ∧
      (∀ (c lane : Fin 4) (j : Fin 32) (k : Capture), s.env.captures[32 * c.val + j.val]? = some k →
        ((good c)[lane].getLsbD j.val = true ↔ k.GoodAt s.params.byteOrder c lane deskewExpected)) ∧
      ∀ c : Fin 4, pulses c ≤ 8 ∧ t.dev.chips[c].slip = s.dev.chips[c].slip + pulses c ∧
        ∀ lane : Fin 4, t.dev.chips[c].tap[lane] =
          if tapsOf (good c)[lane] = [] then 31 else selectTap (tapsOf (good c)[lane])

/-- R188 to R195, R214 to R216, R219, R221: with the captures given, CAL calibrates chip `c` on captures 32 c to 32 c + 31 with the
deskew byte and synchronises the chips on the captures from 128 on with the sync byte. Every lane ends at the tap selected from the
taps that its chip's captures show good; ERRCNT and GOOD are those of chip 3's sweep; pulses and SYNCOK are those of the loop on its
captures; SAMPLES holds the one column of the last capture, for chip 3. -/
def Obligations.CalFollowsItsCaptures : Prop :=
  ∀ (s : State) (deskewExpected syncExpected : BitVec 8) (taken : Fin 4 → Fin 32 → Capture), s.params.Wf →
    s.NoTransportFailure 1484 → 164 ≤ s.env.captures.length →
    (∀ (c : Fin 4) (j : Fin 32), s.env.captures[32 * c.val + j.val]? = some (taken c j)) →
    let order := s.params.byteOrder
    let outcome := syncOutcome order syncExpected (List.finRange 4) (s.env.captures.drop 128)
    ∃ (t : State) (good : Fin 4 → Vector (BitVec 32) 4), exec (.cal deskewExpected syncExpected) s = .next t ∧ Completed s t ∧
      (∀ (c lane : Fin 4) (j : Fin 32), (good c)[lane].getLsbD j.val = true ↔ (taken c j).GoodAt order c lane deskewExpected) ∧
      (∀ c lane : Fin 4, t.dev.chips[c].tap[lane] =
        if tapsOf (good c)[lane] = [] then 31 else selectTap (tapsOf (good c)[lane])) ∧
      t.res.good = good 3 ∧
      (∀ (lane : Fin 4) (j : Fin 32),
        t.res.errcnt[lane][j].1.toNat = (taken 3 j).rowErrors order 3 lane.val deskewExpected ∧
        t.res.errcnt[lane][j].2.toNat = (taken 3 j).rowErrors order 3 (lane.val + 4) deskewExpected) ∧
      outcome.map (fun o => o.1) = [0, 1, 2, 3] ∧
      (∀ (c : Fin 4) (pulses : Nat) (ok : Bool), (c, pulses, ok) ∈ outcome →
        pulses ≤ 8 ∧ t.dev.chips[c].slip = s.dev.chips[c].slip + pulses ∧ t.res.syncok[c] = ok) ∧
      t.env.captures = s.env.captures.drop (128 + outcomeCaptures outcome) ∧ outcomeCaptures outcome ≤ 36 ∧
      ∀ (lane : Fin 4) (last : Capture), s.env.captures[128 + outcomeCaptures outcome - 1]? = some last →
        t.res.samples[(3 : Fin 4)][lane][(0 : Fin 1024)] = last.sample order 3 lane 1 0

/-! ### The host -/

/-- R62, R67, R72, R268: the host reads and writes CTRL0, CTRL1 and CAPBUF itself only while the sequencer is not running. What it reads
is what the device holds. A control word it writes is read back, with memory and the other control word unchanged by a write to
CTRL0, and the world behind the port reacts as to the sequencer's own write. A word of CAPBUF it writes is read back and no other word
changes (memory in its canonical form). The invariant is kept, and the history of what the sequencer issued stays. When the sequencer
counts as not running is log 23. -/
def Obligations.HostReachesTheTransport : Prop :=
  ∀ s : State,
    (s.notRunning = false → s.hostReadCtrl0 = none ∧ s.hostReadCtrl1 = none ∧
      (∀ w, s.hostWriteCtrl0 w = none ∧ s.hostWriteCtrl1 w = none) ∧
      ∀ i n w, s.hostReadCapbuf i n = none ∧ s.hostWriteCapbuf i w = none) ∧
    (s.notRunning = true → s.hostReadCtrl0 = some s.dev.ctrl0 ∧ s.hostReadCtrl1 = some s.dev.ctrl1 ∧
      (∀ i w, 4096 ≤ i → s.hostReadCapbuf i 1 = none ∧ s.hostWriteCapbuf i w = none) ∧
      (∀ w, ∃ t, s.hostWriteCtrl0 w = some t ∧ t.hostReadCtrl0 = some w ∧ t.hostReadCtrl1 = s.hostReadCtrl1 ∧
        SameMemory s.dev t.dev ∧ t.port = s.port ∧ (s.Inv → t.Inv) ∧
        (s.params.Wf → t.world = s.world.perform s.params (.write s.params.regionCtrl s.params.idxSer w))) ∧
      (∀ w, ∃ t, s.hostWriteCtrl1 w = some t ∧ t.hostReadCtrl1 = some w ∧ t.hostReadCtrl0 = s.hostReadCtrl0 ∧
        (s.dev.triggered s.params w = false → SameMemory s.dev t.dev) ∧ t.port = s.port ∧ (s.Inv → t.Inv) ∧
        (s.params.Wf → t.world = s.world.perform s.params (.write s.params.regionCtrl s.params.idxCap w))) ∧
      ∀ (i : Nat) (w : Word), i < 4096 → s.dev.capbuf.wf = true →
        ∃ t, s.hostWriteCapbuf i w = some t ∧ t.hostReadCapbuf i 1 = some [w] ∧
          (∀ k, k < 4096 → k ≠ i → t.hostReadCapbuf k 1 = s.hostReadCapbuf k 1) ∧ t.port = s.port ∧ (s.Inv → t.Inv))

/-! ### Every fault -/

/-- R236: whatever fault a step ends in, the aborted command sets no result-valid flag, HALT and ERR are written, ERRCP is the index of
the faulting command, `cp` and CSMASK keep their values, PHASE is IDLE and SUBSTEP 0 (SUBSTEP: log 15). -/
def Obligations.FaultsSetNoFlag : Prop :=
  ∀ s t : State, step s = .next t → t.faults.halt = true →
    NoNewFlag s t ∧ t.cp = s.cp ∧ t.csmask = s.csmask ∧ t.faults.err ≠ 0 ∧ t.faults.errcp = s.cp ∧ t.work.phase = .idle ∧
    t.work.substep = 0 ∧ t.params = s.params ∧ t.prog = s.prog ∧ t.env.resetLine = s.env.resetLine

/-! ### The command stream -/

/-- R21, R261, R266, R268: the host supplies the command stream before the run and at no other time. From a state at reset any stream can be
supplied; it replaces the stream and nothing else, keeps the invariant, and the step that follows runs its first command. After any
step a stream can be supplied only if that step ended in a reset, for a command that completed or faulted has begun the run. When a
run counts as not begun is log 23. -/
def Obligations.HostSuppliesTheStreamBeforeTheRun : Prop :=
  (∀ (s : State) (prog : List Word), s.AtReset →
    ∃ t, s.supply prog = some t ∧ t = { s with prog := prog } ∧ (s.Inv → t.Inv) ∧
      ∀ (w : Word) (i : Instr), prog.head? = some w → decode w = .ok i → s.env.resetLine = false → step t = exec i t) ∧
  (∀ s : State, s.cp ≠ 0 ∨ s.faults.halt = true → ∀ prog, s.supply prog = none) ∧
  ∀ (s t : State) (prog : List Word), step s = .next t → t.AtReset ∨ t.supply prog = none
end

