-- ==== Sys2Proof/Laws/Memory.lean ====
section
/-! SUPPORT. Memory: what filling gives back, that it keeps the canonical form, and that a run of reads is the reads one by one. -/

namespace Sys2Proof.Machine

theorem Memory.wfFrom_mono {m : Memory} {lo lo' : Nat} (h : Memory.wfFrom lo m = true) (hl : lo' ≤ lo) :
    Memory.wfFrom lo' m = true := by
  cases m with
  | nil => rfl
  | cons c m =>
    simp only [Memory.wfFrom, Bool.and_eq_true, decide_eq_true_eq] at h ⊢
    exact ⟨⟨by omega, h.1.2⟩, h.2⟩

theorem Memory.wfFrom_fillBelow (f : Nat → Byte) (top n : Nat) (hn : n ≤ top) :
    Memory.wfFrom (top - n) (Memory.fillBelow f top n) = true := by
  induction n with
  | zero => rfl
  | succ n ih =>
    have ih := ih (by omega)
    simp only [Memory.fillBelow]
    split
    · exact Memory.wfFrom_mono ih (by omega)
    · rename_i h
      simp only [Memory.wfFrom, Bool.and_eq_true, decide_eq_true_eq]
      exact ⟨⟨Nat.le_refl _, h⟩, by rw [show top - (n + 1) + 1 = top - n by omega]; exact ih⟩

/-- Filling gives a canonical memory. -/
theorem Memory.wf_fillBelow (f : Nat → Byte) (top n : Nat) (hn : n ≤ top) : (Memory.fillBelow f top n).wf = true :=
  Memory.wfFrom_mono (Memory.wfFrom_fillBelow f top n hn) (by omega)

/-- Filling lists addresses below `top` only. -/
theorem Memory.fillBelow_lt (f : Nat → Byte) (top n : Nat) (hn : n ≤ top) :
    ∀ cell ∈ Memory.fillBelow f top n, cell.1 < top := by
  induction n with
  | zero => simp [Memory.fillBelow]
  | succ n ih =>
    intro cell hc
    simp only [Memory.fillBelow] at hc
    split at hc
    · exact ih (by omega) cell hc
    · rcases List.mem_cons.mp hc with rfl | hc
      · show top - (n + 1) < top
        omega
      · exact ih (by omega) cell hc

/-- Below the first listed address memory reads as 0. -/
theorem Memory.read_lt {m : Memory} {lo a : Nat} (h : Memory.wfFrom lo m = true) (ha : a < lo) : m.read a = 0 := by
  cases m with
  | nil => rfl
  | cons c m =>
    simp only [Memory.wfFrom, Bool.and_eq_true, decide_eq_true_eq] at h
    simp only [Memory.read]
    rw [if_neg (by omega), if_pos (by omega)]

/-- An address above every listed one reads as 0. -/
theorem Memory.read_outside {m : Memory} {top a : Nat} (h : ∀ cell ∈ m, cell.1 < top) (ha : top ≤ a) : m.read a = 0 := by
  induction m with
  | nil => rfl
  | cons c m ih =>
    have hc := h c (by simp)
    simp only [Memory.read]
    rw [if_neg (by omega)]
    split
    · rfl
    · exact ih fun cell hm => h cell (by simp [hm])

/-- A filled memory reads as what it was filled with. -/
theorem Memory.read_fillBelow (f : Nat → Byte) (top n a : Nat) (hn : n ≤ top) (h1 : top - n ≤ a) (h2 : a < top) :
    (Memory.fillBelow f top n).read a = f a := by
  induction n with
  | zero => omega
  | succ n ih =>
    have hw := Memory.wfFrom_fillBelow f top n (by omega)
    simp only [Memory.fillBelow]
    by_cases ha : a = top - (n + 1)
    · subst ha
      split
      · rename_i h
        rw [Memory.read_lt hw (by omega), h]
      · simp [Memory.read]
    · split
      · exact ih (by omega) (by omega)
      · simp only [Memory.read]
        rw [if_neg (by omega), if_neg (by omega)]
        exact ih (by omega) (by omega)

/-- A canonical memory listing more than `a` reads as 0 at `a`, so one may write there in front. -/
theorem Memory.wfFrom_write {m : Memory} {lo a : Nat} (b : Byte) (h : Memory.wfFrom lo m = true) (ha : lo ≤ a) :
    Memory.wfFrom lo (m.write a b) = true := by
  induction m generalizing lo with
  | nil =>
    simp only [Memory.write]
    split
    · rfl
    · rename_i hb
      simp only [Memory.wfFrom, Bool.and_eq_true, decide_eq_true_eq]
      exact ⟨⟨ha, hb⟩, trivial⟩
  | cons c m ih =>
    obtain ⟨x, v⟩ := c
    simp only [Memory.wfFrom, Bool.and_eq_true, decide_eq_true_eq] at h
    have h0 := h.2
    simp only [Memory.write]
    split
    · have := ih h.2 (by omega)
      simp only [Memory.wfFrom, Bool.and_eq_true, decide_eq_true_eq]
      exact ⟨h.1, this⟩
    · by_cases hb : b = 0
      · rw [if_pos hb]
        split
        · exact Memory.wfFrom_mono h.2 (by omega)
        · simp only [List.nil_append, Memory.wfFrom, Bool.and_eq_true, decide_eq_true_eq]
          exact h
      · rw [if_neg hb]
        simp only [List.singleton_append, Memory.wfFrom, Bool.and_eq_true, decide_eq_true_eq]
        refine ⟨⟨ha, hb⟩, ?_⟩
        split
        · rename_i hx
          rw [← hx]; exact h.2
        · simp only [Memory.wfFrom, Bool.and_eq_true, decide_eq_true_eq]
          exact ⟨⟨by omega, h.1.2⟩, h.2⟩

/-- Writing keeps the canonical form. -/
theorem Memory.wf_write {m : Memory} (a : Nat) (b : Byte) (h : m.wf = true) : (m.write a b).wf = true :=
  Memory.wfFrom_write b h (Nat.zero_le _)

/-- A read after a write: the byte written at its address, what was there at every other. -/
theorem Memory.read_write {m : Memory} {lo : Nat} (a : Nat) (b : Byte) (h : Memory.wfFrom lo m = true) (x : Nat) :
    (m.write a b).read x = if x = a then b else m.read x := by
  induction m generalizing lo with
  | nil =>
    simp only [Memory.write]
    split <;> simp only [Memory.read] <;> grind
  | cons c m ih =>
    obtain ⟨y, v⟩ := c
    simp only [Memory.wfFrom, Bool.and_eq_true, decide_eq_true_eq] at h
    have h1 (z : Nat) (hz : z < y + 1) : Memory.read m z = 0 := Memory.read_lt h.2 hz
    simp only [Memory.write]
    split
    · simp only [Memory.read, ih h.2]
      grind
    · by_cases hb : b = 0
      · rw [if_pos hb]
        split
        · simp only [List.nil_append, Memory.read]
          grind
        · simp only [List.nil_append, Memory.read]
          grind
      · rw [if_neg hb]
        split
        · simp only [List.singleton_append, Memory.read]
          grind
        · simp only [List.singleton_append, Memory.read]
          grind

/-- Writing lists at most the address written besides. -/
theorem Memory.mem_write {m : Memory} {a : Nat} {b : Byte} {cell : Host.Cell} (h : cell ∈ m.write a b) : cell.1 = a ∨ cell ∈ m := by
  induction m with
  | nil =>
    simp only [Memory.write] at h
    split at h <;> simp at h
    exact .inl (by rw [h])
  | cons c m ih =>
    simp only [Memory.write] at h
    split at h
    · rcases List.mem_cons.mp h with h | h
      · exact .inr (by rw [h]; simp)
      · rcases ih h with h | h
        · exact .inl h
        · exact .inr (by simp [h])
    · rcases List.mem_append.mp h with h | h
      · split at h <;> simp at h
        exact .inl (by rw [h])
      · split at h
        · exact .inr (by simp [h])
        · exact .inr h

/-- Writing a word keeps the canonical form. -/
theorem Memory.wf_writeWord (o : ByteOrder) (i : Nat) (w : Word) {m : Memory} (h : m.wf = true) : (m.writeWord o i w).wf = true :=
  Memory.wf_write _ _ (Memory.wf_write _ _ (Memory.wf_write _ _ (Memory.wf_write _ _ h)))

/-- Writing a word below `top` words lists no address from 4 `top` up. -/
theorem Memory.writeWord_lt (o : ByteOrder) {i top : Nat} (w : Word) {m : Memory} (hi : i < top)
    (h : ∀ cell ∈ m, cell.1 < 4 * top) : ∀ cell ∈ m.writeWord o i w, cell.1 < 4 * top := by
  intro cell hc
  rcases Memory.mem_write hc with e | hc
  · omega
  rcases Memory.mem_write hc with e | hc
  · omega
  rcases Memory.mem_write hc with e | hc
  · omega
  rcases Memory.mem_write hc with e | hc
  · omega
  exact h cell hc

/-- A byte after a word was written. -/
theorem Memory.read_writeWord (o : ByteOrder) (i : Nat) (w : Word) {m : Memory} (h : m.wf = true) (x : Nat) :
    (m.writeWord o i w).read x = if x / 4 = i then o.byteOf w (x % 4) else m.read x := by
  have w0 := Memory.wf_write (4 * i) (o.byteOf w 0) h
  have w1 := Memory.wf_write (4 * i + 1) (o.byteOf w 1) w0
  have w2 := Memory.wf_write (4 * i + 2) (o.byteOf w 2) w1
  unfold Memory.writeWord
  rw [Memory.read_write _ _ w2, Memory.read_write _ _ w1, Memory.read_write _ _ w0, Memory.read_write _ _ h]
  by_cases hx : x / 4 = i
  · rw [if_pos hx]
    have hr : x = 4 * i + x % 4 := by omega
    have hm : x % 4 < 4 := Nat.mod_lt _ (by omega)
    generalize x % 4 = r at hr hm
    subst hr
    match r, hm with
    | 0, _ => simp
    | 1, _ => simp
    | 2, _ => simp
    | 3, _ => simp
  · rw [if_neg hx, if_neg (by omega), if_neg (by omega), if_neg (by omega), if_neg (by omega)]

/-- Dropping the cells up to `a` changes no later byte of a canonical memory. -/
theorem Memory.read_dropWhile {m : Memory} {lo a b : Nat} (h : Memory.wfFrom lo m = true) (hb : a < b) :
    Memory.read (m.dropWhile fun c => decide (c.1 ≤ a)) b = m.read b := by
  induction m generalizing lo with
  | nil => rfl
  | cons c m ih =>
    obtain ⟨x, v⟩ := c
    simp only [Memory.wfFrom, Bool.and_eq_true, decide_eq_true_eq] at h
    by_cases hx : x ≤ a
    · rw [List.dropWhile_cons_of_pos (by simpa using hx), ih h.2]
      simp only [Memory.read]
      rw [if_neg (by omega), if_neg (by omega)]
    · rw [List.dropWhile_cons_of_neg (by simpa using hx)]

theorem Memory.wfFrom_dropWhile {m : Memory} {lo a : Nat} (h : Memory.wfFrom lo m = true) :
    ∃ lo', Memory.wfFrom lo' (m.dropWhile fun c => decide (c.1 ≤ a)) = true := by
  induction m generalizing lo with
  | nil => exact ⟨0, rfl⟩
  | cons c m ih =>
    by_cases hx : c.1 ≤ a
    · rw [List.dropWhile_cons_of_pos (by simpa using hx)]
      simp only [Memory.wfFrom, Bool.and_eq_true, decide_eq_true_eq] at h
      exact ih h.2
    · rw [List.dropWhile_cons_of_neg (by simpa using hx)]
      exact ⟨lo, h⟩

/-- In a canonical memory a run of reads is the reads one by one. -/
theorem Memory.readBelow_eq {m : Memory} {lo top n : Nat} (h : Memory.wfFrom lo m = true) (hn : n ≤ top) :
    Memory.readBelow top n m = (List.range n).map fun i => m.read (top - n + i) := by
  induction n generalizing m lo with
  | zero => rfl
  | succ n ih =>
    obtain ⟨lo', hw⟩ := Memory.wfFrom_dropWhile (a := top - (n + 1)) h
    rw [Memory.readBelow, ih hw (by omega), List.range_succ_eq_map, List.map_cons, List.map_map]
    refine congrArg₂ _ (by simp) (List.map_congr_left fun i _ => ?_)
    rw [Memory.read_dropWhile h (by omega)]
    simp only [Function.comp]
    congr 1
    omega

@[simp] theorem Memory.readBelow_length (top n : Nat) (m : Memory) : (Memory.readBelow top n m).length = n := by
  induction n generalizing m with
  | zero => rfl
  | succ n ih => simp [Memory.readBelow, ih]

/-- A capture leaves memory canonical and inside CAPBUF. -/
theorem captureMemory_wf (o : ByteOrder) (oracle : Fin 4 → Nat → Word) : (captureMemory o oracle).wf = true :=
  Memory.wf_fillBelow _ _ _ (Nat.le_refl _)

theorem captureMemory_inside (o : ByteOrder) (oracle : Fin 4 → Nat → Word) :
    ∀ cell ∈ captureMemory o oracle, cell.1 < capbufBytes :=
  Memory.fillBelow_lt _ _ _ (Nat.le_refl _)

/-- What CAPBUF reads as after a capture. -/
theorem captureMemory_read (o : ByteOrder) (oracle : Fin 4 → Nat → Word) (a : Nat) (h : a < capbufBytes) :
    (captureMemory o oracle).read a = captureByte o oracle a :=
  Memory.read_fillBelow _ _ _ _ (Nat.le_refl _) (by omega) h

/-- The bits of a word made of four bytes, `x0` the most significant. -/
theorem getLsbD_four_bytes (x0 x1 x2 x3 : Byte) (i : Nat) (hi : i < 8) :
    BitVec.getLsbD (w := 32) (x0 ++ x1 ++ x2 ++ x3) i = x3.getLsbD i ∧
    BitVec.getLsbD (w := 32) (x0 ++ x1 ++ x2 ++ x3) (8 + i) = x2.getLsbD i ∧
    BitVec.getLsbD (w := 32) (x0 ++ x1 ++ x2 ++ x3) (16 + i) = x1.getLsbD i ∧
    BitVec.getLsbD (w := 32) (x0 ++ x1 ++ x2 ++ x3) (24 + i) = x0.getLsbD i := by
  have h (j : Nat) : BitVec.getLsbD (w := 32) (x0 ++ x1 ++ x2 ++ x3) j =
      BitVec.getLsbD (w := 8 + 8 + 8 + 8) (x0 ++ x1 ++ x2 ++ x3) j := rfl
  simp only [h, BitVec.getLsbD_append]
  refine ⟨?_, ?_, ?_, ?_⟩ <;> grind

/-- Splitting the stream into words and back loses nothing, in either byte order. -/
theorem ByteOrder.byteOf_wordOf (o : ByteOrder) (b0 b1 b2 b3 : Byte) :
    [o.byteOf (o.wordOf b0 b1 b2 b3) 0, o.byteOf (o.wordOf b0 b1 b2 b3) 1, o.byteOf (o.wordOf b0 b1 b2 b3) 2,
      o.byteOf (o.wordOf b0 b1 b2 b3) 3] = [b0, b1, b2, b3] := by
  cases o <;> simp only [ByteOrder.byteOf, ByteOrder.wordOf, List.cons.injEq, and_true] <;>
    refine ⟨?_, ?_, ?_, ?_⟩ <;> ext i hi <;> simp <;>
      simp [getLsbD_four_bytes b0 b1 b2 b3 i hi, getLsbD_four_bytes b3 b2 b1 b0 i hi, hi]

/-- A word put together again from its stream bytes. -/
theorem ByteOrder.wordOf_byteOf (o : ByteOrder) (w : Word) : o.wordOf (o.byteOf w 0) (o.byteOf w 1) (o.byteOf w 2) (o.byteOf w 3) = w := by
  cases o <;> apply BitVec.eq_of_getLsbD_eq <;> intro i hi <;> simp only [ByteOrder.byteOf, ByteOrder.wordOf]
  all_goals
    have h (x0 x1 x2 x3 : Byte) (j : Nat) : BitVec.getLsbD (w := 32) (x0 ++ x1 ++ x2 ++ x3) j =
      BitVec.getLsbD (w := 8 + 8 + 8 + 8) (x0 ++ x1 ++ x2 ++ x3) j := rfl
    simp only [h, BitVec.getLsbD_append, BitVec.getLsbD_extractLsb']
    grind

/-- The words of a byte run, as bytes again, are the run. -/
theorem ByteOrder.toBytes_toWords (o : ByteOrder) (k : Nat) (bs : List Byte) (h : bs.length = 4 * k) :
    o.toBytes (o.toWords bs) = bs := by
  induction k generalizing bs with
  | zero =>
    obtain rfl := List.length_eq_zero_iff.mp h
    rfl
  | succ k ih =>
    match bs, h with
    | b0 :: b1 :: b2 :: b3 :: bs, h =>
      have := ih bs (by simp only [List.length_cons] at h; omega)
      simp only [ByteOrder.toBytes, ByteOrder.toWords, List.flatMap_cons, ByteOrder.byteOf_wordOf] at this ⊢
      rw [this]
      rfl

end Sys2Proof.Machine
end

