-- ==== Sys2Proof/Laws/Device.lean ====
section
/-! SUPPORT. The device reference model (R72 to R77): its fields after one write, and its invariant. -/

namespace Sys2Proof.Machine

section
variable (p : Params) (w : Word) (oracle : Fin 4 → Nat → Word) (d : Device)

@[simp] theorem Device.onCtrl0_ctrl0 : (d.onCtrl0 p w).ctrl0 = w := rfl
@[simp] theorem Device.onCtrl0_prev0 : (d.onCtrl0 p w).prev0 = w := rfl
@[simp] theorem Device.onCtrl0_ctrl1 : (d.onCtrl0 p w).ctrl1 = d.ctrl1 := rfl
@[simp] theorem Device.onCtrl0_prev1 : (d.onCtrl0 p w).prev1 = d.prev1 := rfl
@[simp] theorem Device.onCtrl0_capbuf : (d.onCtrl0 p w).capbuf = d.capbuf := rfl
@[simp] theorem Device.onCtrl0_captures : (d.onCtrl0 p w).captures = d.captures := rfl
theorem Device.onCtrl0_chip (c : Fin 4) : (d.onCtrl0 p w).chips[c] = d.chips[c].receive p d.prev0 w c := by
  simp [Device.onCtrl0]

@[simp] theorem Device.onCtrl1_ctrl1 : (d.onCtrl1 p w oracle).ctrl1 = w := rfl
@[simp] theorem Device.onCtrl1_prev1 : (d.onCtrl1 p w oracle).prev1 = w := rfl
@[simp] theorem Device.onCtrl1_ctrl0 : (d.onCtrl1 p w oracle).ctrl0 = d.ctrl0 := by
  unfold Device.onCtrl1
  split <;> rfl
@[simp] theorem Device.onCtrl1_prev0 : (d.onCtrl1 p w oracle).prev0 = d.prev0 := by
  unfold Device.onCtrl1
  split <;> rfl
theorem Device.onCtrl1_capbuf :
    (d.onCtrl1 p w oracle).capbuf = if d.triggered p w then captureMemory p.byteOrder oracle else d.capbuf := by
  unfold Device.onCtrl1
  split <;> rfl
theorem Device.onCtrl1_captures :
    (d.onCtrl1 p w oracle).captures = if d.triggered p w then d.captures + 1 else d.captures := by
  unfold Device.onCtrl1
  split <;> rfl
theorem Device.onCtrl1_chip (c : Fin 4) :
    (d.onCtrl1 p w oracle).chips[c] = d.chips[c].slipAndLoad p d.prev1 w c := by
  simp [Device.onCtrl1]

end

/-! ### One chip -/

section
variable (p : Params) (prev w : Word) (c : Fin 4) (ch : Chip)

@[simp] theorem Chip.slipAndLoad_adcreg : (ch.slipAndLoad p prev w c).adcreg = ch.adcreg := rfl
@[simp] theorem Chip.slipAndLoad_rxsr : (ch.slipAndLoad p prev w c).rxsr = ch.rxsr := rfl
@[simp] theorem Chip.slipAndLoad_rxcnt : (ch.slipAndLoad p prev w c).rxcnt = ch.rxcnt := rfl
theorem Chip.slipAndLoad_slip :
    (ch.slipAndLoad p prev w c).slip = if rises prev w (p.bitslipLsb + c.val) then ch.slip + 1 else ch.slip := rfl
theorem Chip.slipAndLoad_tap (lane : Fin 4) :
    (ch.slipAndLoad p prev w c).tap[lane] = if rises prev w (strobeBit p c lane) then tapField p w else ch.tap[lane] := by
  simp [Chip.slipAndLoad]

@[simp] theorem Chip.clocked_tap (psel sel rise b : Bool) : (ch.clocked psel sel rise b).tap = ch.tap := by
  unfold Chip.clocked Chip.closeFrame Chip.openFrame Chip.shiftIn Chip.latch
  grind
@[simp] theorem Chip.clocked_slip (psel sel rise b : Bool) : (ch.clocked psel sel rise b).slip = ch.slip := by
  unfold Chip.clocked Chip.closeFrame Chip.openFrame Chip.shiftIn Chip.latch
  grind
@[simp] theorem Chip.receive_tap : (ch.receive p prev w c).tap = ch.tap := Chip.clocked_tap _ _ _ _ _
@[simp] theorem Chip.receive_slip : (ch.receive p prev w c).slip = ch.slip := Chip.clocked_slip _ _ _ _ _

/-- A chip that stays deselected ignores the write (R74). -/
theorem Chip.clocked_off (rise b : Bool) : ch.clocked false false rise b = ch := by
  simp [Chip.clocked]

/-- Select falls while the clock does not rise: a frame opens. -/
theorem Chip.clocked_open (b : Bool) : ch.clocked false true false b = ch.openFrame := by
  simp [Chip.clocked]

/-- A selected chip without a clock edge ignores the write. -/
theorem Chip.clocked_hold (b : Bool) : ch.clocked true true false b = ch := by
  simp [Chip.clocked]

/-- A selected chip with a clock edge takes the bit. -/
theorem Chip.clocked_bit (b : Bool) : ch.clocked true true true b = ch.shiftIn b := by
  simp [Chip.clocked]

/-- Select rises: the frame closes. -/
theorem Chip.clocked_close (rise b : Bool) : ch.clocked true false rise b = ch.closeFrame := by
  simp [Chip.clocked]

/-- The bit count stays in 0..25 (R44). -/
theorem Chip.clocked_rxcnt_le (psel sel rise b : Bool) (h : ch.rxcnt ≤ 25) : (ch.clocked psel sel rise b).rxcnt ≤ 25 := by
  unfold Chip.clocked Chip.closeFrame Chip.openFrame Chip.shiftIn
  grind

end

/-! ### The device invariant -/

theorem Device.Inv.onCtrl0 {p : Params} {w : Word} {d : Device} (h : d.Inv) : (d.onCtrl0 p w).Inv where
  memory := h.memory
  inside := h.inside
  counts := fun c => by
    rw [Device.onCtrl0_chip]
    exact Chip.clocked_rxcnt_le _ _ _ _ _ (h.counts c)

theorem Device.Inv.onCtrl1 {p : Params} {w : Word} {oracle : Fin 4 → Nat → Word} {d : Device} (h : d.Inv) :
    (d.onCtrl1 p w oracle).Inv where
  memory := by
    rw [Device.onCtrl1_capbuf]
    split
    · exact captureMemory_wf _ _
    · exact h.memory
  inside := by
    rw [Device.onCtrl1_capbuf]
    split
    · exact captureMemory_inside _ _
    · exact h.inside
  counts := fun c => by
    rw [Device.onCtrl1_chip]
    exact h.counts c

theorem Device.atPowerOn_inv : Device.atPowerOn.Inv where
  memory := rfl
  inside := by simp [Device.atPowerOn]
  counts := by decide

end Sys2Proof.Machine
end

