-- ==== Sys2Proof/Laws/State.lean ====
section
/-! SUPPORT. One lemma per field per named update of State, so that no later proof unfolds a record update. -/

namespace Sys2Proof.Machine

/-! ### `State.setCsmask` -/

@[simp] theorem State.setCsmask_params (m : BitVec 4) (s : State) : (s.setCsmask m).params = s.params := rfl
@[simp] theorem State.setCsmask_prog (m : BitVec 4) (s : State) : (s.setCsmask m).prog = s.prog := rfl
@[simp] theorem State.setCsmask_cp (m : BitVec 4) (s : State) : (s.setCsmask m).cp = s.cp := rfl
@[simp] theorem State.setCsmask_csmask (m : BitVec 4) (s : State) : (s.setCsmask m).csmask = m := rfl
@[simp] theorem State.setCsmask_faults (m : BitVec 4) (s : State) : (s.setCsmask m).faults = s.faults := rfl
@[simp] theorem State.setCsmask_work (m : BitVec 4) (s : State) : (s.setCsmask m).work = s.work := rfl
@[simp] theorem State.setCsmask_res (m : BitVec 4) (s : State) : (s.setCsmask m).res = s.res := rfl
@[simp] theorem State.setCsmask_dev (m : BitVec 4) (s : State) : (s.setCsmask m).dev = s.dev := rfl
@[simp] theorem State.setCsmask_env (m : BitVec 4) (s : State) : (s.setCsmask m).env = s.env := rfl
@[simp] theorem State.setCsmask_port (m : BitVec 4) (s : State) : (s.setCsmask m).port = s.port := rfl

/-! ### `State.setWork` -/

@[simp] theorem State.setWork_params (w : Work) (s : State) : (s.setWork w).params = s.params := rfl
@[simp] theorem State.setWork_prog (w : Work) (s : State) : (s.setWork w).prog = s.prog := rfl
@[simp] theorem State.setWork_cp (w : Work) (s : State) : (s.setWork w).cp = s.cp := rfl
@[simp] theorem State.setWork_csmask (w : Work) (s : State) : (s.setWork w).csmask = s.csmask := rfl
@[simp] theorem State.setWork_faults (w : Work) (s : State) : (s.setWork w).faults = s.faults := rfl
@[simp] theorem State.setWork_work (w : Work) (s : State) : (s.setWork w).work = w := rfl
@[simp] theorem State.setWork_res (w : Work) (s : State) : (s.setWork w).res = s.res := rfl
@[simp] theorem State.setWork_dev (w : Work) (s : State) : (s.setWork w).dev = s.dev := rfl
@[simp] theorem State.setWork_env (w : Work) (s : State) : (s.setWork w).env = s.env := rfl
@[simp] theorem State.setWork_port (w : Work) (s : State) : (s.setWork w).port = s.port := rfl

/-! ### `State.setRes` -/

@[simp] theorem State.setRes_params (r : Results) (s : State) : (s.setRes r).params = s.params := rfl
@[simp] theorem State.setRes_prog (r : Results) (s : State) : (s.setRes r).prog = s.prog := rfl
@[simp] theorem State.setRes_cp (r : Results) (s : State) : (s.setRes r).cp = s.cp := rfl
@[simp] theorem State.setRes_csmask (r : Results) (s : State) : (s.setRes r).csmask = s.csmask := rfl
@[simp] theorem State.setRes_faults (r : Results) (s : State) : (s.setRes r).faults = s.faults := rfl
@[simp] theorem State.setRes_work (r : Results) (s : State) : (s.setRes r).work = s.work := rfl
@[simp] theorem State.setRes_res (r : Results) (s : State) : (s.setRes r).res = r := rfl
@[simp] theorem State.setRes_dev (r : Results) (s : State) : (s.setRes r).dev = s.dev := rfl
@[simp] theorem State.setRes_env (r : Results) (s : State) : (s.setRes r).env = s.env := rfl
@[simp] theorem State.setRes_port (r : Results) (s : State) : (s.setRes r).port = s.port := rfl

/-! ### `State.setDev` -/

@[simp] theorem State.setDev_params (d : Device) (s : State) : (s.setDev d).params = s.params := rfl
@[simp] theorem State.setDev_prog (d : Device) (s : State) : (s.setDev d).prog = s.prog := rfl
@[simp] theorem State.setDev_cp (d : Device) (s : State) : (s.setDev d).cp = s.cp := rfl
@[simp] theorem State.setDev_csmask (d : Device) (s : State) : (s.setDev d).csmask = s.csmask := rfl
@[simp] theorem State.setDev_faults (d : Device) (s : State) : (s.setDev d).faults = s.faults := rfl
@[simp] theorem State.setDev_work (d : Device) (s : State) : (s.setDev d).work = s.work := rfl
@[simp] theorem State.setDev_res (d : Device) (s : State) : (s.setDev d).res = s.res := rfl
@[simp] theorem State.setDev_dev (d : Device) (s : State) : (s.setDev d).dev = d := rfl
@[simp] theorem State.setDev_env (d : Device) (s : State) : (s.setDev d).env = s.env := rfl
@[simp] theorem State.setDev_port (d : Device) (s : State) : (s.setDev d).port = s.port := rfl

/-! ### `State.setEnv` -/

@[simp] theorem State.setEnv_params (e : Env) (s : State) : (s.setEnv e).params = s.params := rfl
@[simp] theorem State.setEnv_prog (e : Env) (s : State) : (s.setEnv e).prog = s.prog := rfl
@[simp] theorem State.setEnv_cp (e : Env) (s : State) : (s.setEnv e).cp = s.cp := rfl
@[simp] theorem State.setEnv_csmask (e : Env) (s : State) : (s.setEnv e).csmask = s.csmask := rfl
@[simp] theorem State.setEnv_faults (e : Env) (s : State) : (s.setEnv e).faults = s.faults := rfl
@[simp] theorem State.setEnv_work (e : Env) (s : State) : (s.setEnv e).work = s.work := rfl
@[simp] theorem State.setEnv_res (e : Env) (s : State) : (s.setEnv e).res = s.res := rfl
@[simp] theorem State.setEnv_dev (e : Env) (s : State) : (s.setEnv e).dev = s.dev := rfl
@[simp] theorem State.setEnv_env (e : Env) (s : State) : (s.setEnv e).env = e := rfl
@[simp] theorem State.setEnv_port (e : Env) (s : State) : (s.setEnv e).port = s.port := rfl

/-! ### `State.setFaults` -/

@[simp] theorem State.setFaults_params (f : FaultRegs) (s : State) : (s.setFaults f).params = s.params := rfl
@[simp] theorem State.setFaults_prog (f : FaultRegs) (s : State) : (s.setFaults f).prog = s.prog := rfl
@[simp] theorem State.setFaults_cp (f : FaultRegs) (s : State) : (s.setFaults f).cp = s.cp := rfl
@[simp] theorem State.setFaults_csmask (f : FaultRegs) (s : State) : (s.setFaults f).csmask = s.csmask := rfl
@[simp] theorem State.setFaults_faults (f : FaultRegs) (s : State) : (s.setFaults f).faults = f := rfl
@[simp] theorem State.setFaults_work (f : FaultRegs) (s : State) : (s.setFaults f).work = s.work := rfl
@[simp] theorem State.setFaults_res (f : FaultRegs) (s : State) : (s.setFaults f).res = s.res := rfl
@[simp] theorem State.setFaults_dev (f : FaultRegs) (s : State) : (s.setFaults f).dev = s.dev := rfl
@[simp] theorem State.setFaults_env (f : FaultRegs) (s : State) : (s.setFaults f).env = s.env := rfl
@[simp] theorem State.setFaults_port (f : FaultRegs) (s : State) : (s.setFaults f).port = s.port := rfl

/-! ### `State.setCp` -/

@[simp] theorem State.setCp_params (n : Nat) (s : State) : (s.setCp n).params = s.params := rfl
@[simp] theorem State.setCp_prog (n : Nat) (s : State) : (s.setCp n).prog = s.prog := rfl
@[simp] theorem State.setCp_cp (n : Nat) (s : State) : (s.setCp n).cp = n := rfl
@[simp] theorem State.setCp_csmask (n : Nat) (s : State) : (s.setCp n).csmask = s.csmask := rfl
@[simp] theorem State.setCp_faults (n : Nat) (s : State) : (s.setCp n).faults = s.faults := rfl
@[simp] theorem State.setCp_work (n : Nat) (s : State) : (s.setCp n).work = s.work := rfl
@[simp] theorem State.setCp_res (n : Nat) (s : State) : (s.setCp n).res = s.res := rfl
@[simp] theorem State.setCp_dev (n : Nat) (s : State) : (s.setCp n).dev = s.dev := rfl
@[simp] theorem State.setCp_env (n : Nat) (s : State) : (s.setCp n).env = s.env := rfl
@[simp] theorem State.setCp_port (n : Nat) (s : State) : (s.setCp n).port = s.port := rfl

/-! ### `State.logOp` -/

@[simp] theorem State.logOp_params (op : TOp) (s : State) : (s.logOp op).params = s.params := rfl
@[simp] theorem State.logOp_prog (op : TOp) (s : State) : (s.logOp op).prog = s.prog := rfl
@[simp] theorem State.logOp_cp (op : TOp) (s : State) : (s.logOp op).cp = s.cp := rfl
@[simp] theorem State.logOp_csmask (op : TOp) (s : State) : (s.logOp op).csmask = s.csmask := rfl
@[simp] theorem State.logOp_faults (op : TOp) (s : State) : (s.logOp op).faults = s.faults := rfl
@[simp] theorem State.logOp_work (op : TOp) (s : State) : (s.logOp op).work = s.work := rfl
@[simp] theorem State.logOp_res (op : TOp) (s : State) : (s.logOp op).res = s.res := rfl
@[simp] theorem State.logOp_dev (op : TOp) (s : State) : (s.logOp op).dev = s.dev := rfl
@[simp] theorem State.logOp_env (op : TOp) (s : State) : (s.logOp op).env = s.env := rfl
@[simp] theorem State.logOp_port (op : TOp) (s : State) : (s.logOp op).port = op :: s.port := rfl

/-! ### `State.setPhase` -/

@[simp] theorem State.setPhase_params (ph : Phase) (s : State) : (s.setPhase ph).params = s.params := rfl
@[simp] theorem State.setPhase_prog (ph : Phase) (s : State) : (s.setPhase ph).prog = s.prog := rfl
@[simp] theorem State.setPhase_cp (ph : Phase) (s : State) : (s.setPhase ph).cp = s.cp := rfl
@[simp] theorem State.setPhase_csmask (ph : Phase) (s : State) : (s.setPhase ph).csmask = s.csmask := rfl
@[simp] theorem State.setPhase_faults (ph : Phase) (s : State) : (s.setPhase ph).faults = s.faults := rfl
@[simp] theorem State.setPhase_work (ph : Phase) (s : State) : (s.setPhase ph).work = { s.work with phase := ph } := rfl
@[simp] theorem State.setPhase_res (ph : Phase) (s : State) : (s.setPhase ph).res = s.res := rfl
@[simp] theorem State.setPhase_dev (ph : Phase) (s : State) : (s.setPhase ph).dev = s.dev := rfl
@[simp] theorem State.setPhase_env (ph : Phase) (s : State) : (s.setPhase ph).env = s.env := rfl
@[simp] theorem State.setPhase_port (ph : Phase) (s : State) : (s.setPhase ph).port = s.port := rfl

/-! ### `State.setSubstep` -/

@[simp] theorem State.setSubstep_params (n : Nat) (s : State) : (s.setSubstep n).params = s.params := rfl
@[simp] theorem State.setSubstep_prog (n : Nat) (s : State) : (s.setSubstep n).prog = s.prog := rfl
@[simp] theorem State.setSubstep_cp (n : Nat) (s : State) : (s.setSubstep n).cp = s.cp := rfl
@[simp] theorem State.setSubstep_csmask (n : Nat) (s : State) : (s.setSubstep n).csmask = s.csmask := rfl
@[simp] theorem State.setSubstep_faults (n : Nat) (s : State) : (s.setSubstep n).faults = s.faults := rfl
@[simp] theorem State.setSubstep_work (n : Nat) (s : State) : (s.setSubstep n).work = { s.work with substep := n } := rfl
@[simp] theorem State.setSubstep_res (n : Nat) (s : State) : (s.setSubstep n).res = s.res := rfl
@[simp] theorem State.setSubstep_dev (n : Nat) (s : State) : (s.setSubstep n).dev = s.dev := rfl
@[simp] theorem State.setSubstep_env (n : Nat) (s : State) : (s.setSubstep n).env = s.env := rfl
@[simp] theorem State.setSubstep_port (n : Nat) (s : State) : (s.setSubstep n).port = s.port := rfl

/-! ### `State.bumpDraws` -/

@[simp] theorem State.bumpDraws_params (s : State) : (s.bumpDraws).params = s.params := rfl
@[simp] theorem State.bumpDraws_prog (s : State) : (s.bumpDraws).prog = s.prog := rfl
@[simp] theorem State.bumpDraws_cp (s : State) : (s.bumpDraws).cp = s.cp := rfl
@[simp] theorem State.bumpDraws_csmask (s : State) : (s.bumpDraws).csmask = s.csmask := rfl
@[simp] theorem State.bumpDraws_faults (s : State) : (s.bumpDraws).faults = s.faults := rfl
@[simp] theorem State.bumpDraws_work (s : State) : (s.bumpDraws).work = s.work := rfl
@[simp] theorem State.bumpDraws_res (s : State) : (s.bumpDraws).res = s.res := rfl
@[simp] theorem State.bumpDraws_dev (s : State) : (s.bumpDraws).dev = s.dev := rfl
@[simp] theorem State.bumpDraws_env (s : State) : (s.bumpDraws).env = { s.env with draws := s.env.draws + 1 } := rfl
@[simp] theorem State.bumpDraws_port (s : State) : (s.bumpDraws).port = s.port := rfl

/-! ### `State.takeAnswer` -/

@[simp] theorem State.takeAnswer_params (s : State) : (s.takeAnswer).params = s.params := rfl
@[simp] theorem State.takeAnswer_prog (s : State) : (s.takeAnswer).prog = s.prog := rfl
@[simp] theorem State.takeAnswer_cp (s : State) : (s.takeAnswer).cp = s.cp := rfl
@[simp] theorem State.takeAnswer_csmask (s : State) : (s.takeAnswer).csmask = s.csmask := rfl
@[simp] theorem State.takeAnswer_faults (s : State) : (s.takeAnswer).faults = s.faults := rfl
@[simp] theorem State.takeAnswer_work (s : State) : (s.takeAnswer).work = s.work := rfl
@[simp] theorem State.takeAnswer_res (s : State) : (s.takeAnswer).res = s.res := rfl
@[simp] theorem State.takeAnswer_dev (s : State) : (s.takeAnswer).dev = s.dev := rfl
@[simp] theorem State.takeAnswer_env (s : State) : (s.takeAnswer).env = { s.env with answers := s.env.answers.tail, draws := s.env.draws + 1 } := rfl
@[simp] theorem State.takeAnswer_port (s : State) : (s.takeAnswer).port = s.port := rfl

/-! ### `State.ctrl0Lands` -/

@[simp] theorem State.ctrl0Lands_params (w : Word) (s : State) : (s.ctrl0Lands w).params = s.params := rfl
@[simp] theorem State.ctrl0Lands_prog (w : Word) (s : State) : (s.ctrl0Lands w).prog = s.prog := rfl
@[simp] theorem State.ctrl0Lands_cp (w : Word) (s : State) : (s.ctrl0Lands w).cp = s.cp := rfl
@[simp] theorem State.ctrl0Lands_csmask (w : Word) (s : State) : (s.ctrl0Lands w).csmask = s.csmask := rfl
@[simp] theorem State.ctrl0Lands_faults (w : Word) (s : State) : (s.ctrl0Lands w).faults = s.faults := rfl
@[simp] theorem State.ctrl0Lands_work (w : Word) (s : State) : (s.ctrl0Lands w).work = s.work := rfl
@[simp] theorem State.ctrl0Lands_res (w : Word) (s : State) : (s.ctrl0Lands w).res = s.res := rfl
@[simp] theorem State.ctrl0Lands_dev (w : Word) (s : State) : (s.ctrl0Lands w).dev = s.dev.onCtrl0 s.params w := rfl
@[simp] theorem State.ctrl0Lands_env (w : Word) (s : State) : (s.ctrl0Lands w).env = s.env := rfl
@[simp] theorem State.ctrl0Lands_port (w : Word) (s : State) : (s.ctrl0Lands w).port = s.port := rfl

/-! ### `State.loadFrame` -/

@[simp] theorem State.loadFrame_params (a : BitVec 8) (v : BitVec 16) (s : State) : (s.loadFrame a v).params = s.params := rfl
@[simp] theorem State.loadFrame_prog (a : BitVec 8) (v : BitVec 16) (s : State) : (s.loadFrame a v).prog = s.prog := rfl
@[simp] theorem State.loadFrame_cp (a : BitVec 8) (v : BitVec 16) (s : State) : (s.loadFrame a v).cp = s.cp := rfl
@[simp] theorem State.loadFrame_csmask (a : BitVec 8) (v : BitVec 16) (s : State) : (s.loadFrame a v).csmask = s.csmask := rfl
@[simp] theorem State.loadFrame_faults (a : BitVec 8) (v : BitVec 16) (s : State) : (s.loadFrame a v).faults = s.faults := rfl
@[simp] theorem State.loadFrame_work (a : BitVec 8) (v : BitVec 16) (s : State) : (s.loadFrame a v).work = { s.work with sr := frame a v, bitidx := 23 } := rfl
@[simp] theorem State.loadFrame_res (a : BitVec 8) (v : BitVec 16) (s : State) : (s.loadFrame a v).res = s.res := rfl
@[simp] theorem State.loadFrame_dev (a : BitVec 8) (v : BitVec 16) (s : State) : (s.loadFrame a v).dev = s.dev := rfl
@[simp] theorem State.loadFrame_env (a : BitVec 8) (v : BitVec 16) (s : State) : (s.loadFrame a v).env = s.env := rfl
@[simp] theorem State.loadFrame_port (a : BitVec 8) (v : BitVec 16) (s : State) : (s.loadFrame a v).port = s.port := rfl

/-! ### `State.raise` -/

@[simp] theorem State.raise_params (c : Cause) (n : Nat) (s : State) : (s.raise c n).params = s.params := rfl
@[simp] theorem State.raise_prog (c : Cause) (n : Nat) (s : State) : (s.raise c n).prog = s.prog := rfl
@[simp] theorem State.raise_cp (c : Cause) (n : Nat) (s : State) : (s.raise c n).cp = s.cp := rfl
@[simp] theorem State.raise_csmask (c : Cause) (n : Nat) (s : State) : (s.raise c n).csmask = s.csmask := rfl
@[simp] theorem State.raise_faults (c : Cause) (n : Nat) (s : State) : (s.raise c n).faults = { halt := true, err := c.code, errcp := s.cp, errop := n } := rfl
@[simp] theorem State.raise_work (c : Cause) (n : Nat) (s : State) : (s.raise c n).work = { s.work with phase := .idle, substep := 0 } := rfl
@[simp] theorem State.raise_res (c : Cause) (n : Nat) (s : State) : (s.raise c n).res = Config.freeResults s.env.draws := rfl
@[simp] theorem State.raise_dev (c : Cause) (n : Nat) (s : State) : (s.raise c n).dev = s.dev := rfl
@[simp] theorem State.raise_env (c : Cause) (n : Nat) (s : State) : (s.raise c n).env = { s.env with draws := s.env.draws + 1 } := rfl
@[simp] theorem State.raise_port (c : Cause) (n : Nat) (s : State) : (s.raise c n).port = s.port := rfl

/-! ### `State.transportFailure` -/

@[simp] theorem State.transportFailure_params (s : State) : (s.transportFailure).params = s.params := rfl
@[simp] theorem State.transportFailure_prog (s : State) : (s.transportFailure).prog = s.prog := rfl
@[simp] theorem State.transportFailure_cp (s : State) : (s.transportFailure).cp = s.cp := rfl
@[simp] theorem State.transportFailure_csmask (s : State) : (s.transportFailure).csmask = s.csmask := rfl
@[simp] theorem State.transportFailure_faults (s : State) : (s.transportFailure).faults = { halt := true, err := 2, errcp := s.cp, errop := s.work.substep } := rfl
@[simp] theorem State.transportFailure_work (s : State) : (s.transportFailure).work = { s.work with phase := .idle, substep := 0 } := rfl
@[simp] theorem State.transportFailure_res (s : State) : (s.transportFailure).res = Config.freeResults s.env.draws := rfl
@[simp] theorem State.transportFailure_dev (s : State) : (s.transportFailure).dev = s.dev := rfl
@[simp] theorem State.transportFailure_env (s : State) : (s.transportFailure).env = { s.env with draws := s.env.draws + 1 } := rfl
@[simp] theorem State.transportFailure_port (s : State) : (s.transportFailure).port = s.port := rfl

/-! ### `State.setsNoFlag` -/

@[simp] theorem State.setsNoFlag_params (r : Results) (s : State) : (s.setsNoFlag r).params = s.params := rfl
@[simp] theorem State.setsNoFlag_prog (r : Results) (s : State) : (s.setsNoFlag r).prog = s.prog := rfl
@[simp] theorem State.setsNoFlag_cp (r : Results) (s : State) : (s.setsNoFlag r).cp = s.cp := rfl
@[simp] theorem State.setsNoFlag_csmask (r : Results) (s : State) : (s.setsNoFlag r).csmask = s.csmask := rfl
@[simp] theorem State.setsNoFlag_faults (r : Results) (s : State) : (s.setsNoFlag r).faults = s.faults := rfl
@[simp] theorem State.setsNoFlag_work (r : Results) (s : State) : (s.setsNoFlag r).work = s.work := rfl
@[simp] theorem State.setsNoFlag_dev (r : Results) (s : State) : (s.setsNoFlag r).dev = s.dev := rfl
@[simp] theorem State.setsNoFlag_env (r : Results) (s : State) : (s.setsNoFlag r).env = s.env := rfl
@[simp] theorem State.setsNoFlag_port (r : Results) (s : State) : (s.setsNoFlag r).port = s.port := rfl
@[simp] theorem State.setsNoFlag_res (r : Results) (s : State) : (s.setsNoFlag r).res = r.within s.res := rfl

/-! ### `State.refuse` -/

@[simp] theorem State.refuse_params (c : Cause) (s : State) : (s.refuse c).params = s.params := rfl
@[simp] theorem State.refuse_prog (c : Cause) (s : State) : (s.refuse c).prog = s.prog := rfl
@[simp] theorem State.refuse_cp (c : Cause) (s : State) : (s.refuse c).cp = s.cp := rfl
@[simp] theorem State.refuse_csmask (c : Cause) (s : State) : (s.refuse c).csmask = s.csmask := rfl
@[simp] theorem State.refuse_faults (c : Cause) (s : State) : (s.refuse c).faults = { halt := true, err := c.code, errcp := s.cp, errop := 0 } := rfl
@[simp] theorem State.refuse_work (c : Cause) (s : State) : (s.refuse c).work = { s.work with phase := .idle, substep := 0 } := rfl
@[simp] theorem State.refuse_res (c : Cause) (s : State) : (s.refuse c).res = s.res.within (Config.freeResults s.env.draws) := rfl
@[simp] theorem State.refuse_dev (c : Cause) (s : State) : (s.refuse c).dev = s.dev := rfl
@[simp] theorem State.refuse_env (c : Cause) (s : State) : (s.refuse c).env = { s.env with draws := s.env.draws + 1 } := rfl
@[simp] theorem State.refuse_port (c : Cause) (s : State) : (s.refuse c).port = s.port := rfl

/-! ### `State.hostReset` -/

@[simp] theorem State.hostReset_params (s : State) : (s.hostReset).params = s.params := rfl
@[simp] theorem State.hostReset_prog (s : State) : (s.hostReset).prog = s.prog := rfl
@[simp] theorem State.hostReset_cp (s : State) : (s.hostReset).cp = 0 := rfl
@[simp] theorem State.hostReset_csmask (s : State) : (s.hostReset).csmask = 0b1111 := rfl
@[simp] theorem State.hostReset_faults (s : State) : (s.hostReset).faults = FaultRegs.atReset := rfl
@[simp] theorem State.hostReset_work (s : State) : (s.hostReset).work = Work.atReset := rfl
@[simp] theorem State.hostReset_res (s : State) : (s.hostReset).res = Results.atReset := rfl
@[simp] theorem State.hostReset_dev (s : State) : (s.hostReset).dev = s.dev := rfl
@[simp] theorem State.hostReset_env (s : State) : (s.hostReset).env = { s.env with resetLine := false } := rfl
@[simp] theorem State.hostReset_port (s : State) : (s.hostReset).port = s.port := rfl

/-! ### `State.beginCommand` -/

@[simp] theorem State.beginCommand_params (s : State) : (s.beginCommand).params = s.params := rfl
@[simp] theorem State.beginCommand_prog (s : State) : (s.beginCommand).prog = s.prog := rfl
@[simp] theorem State.beginCommand_cp (s : State) : (s.beginCommand).cp = s.cp := rfl
@[simp] theorem State.beginCommand_csmask (s : State) : (s.beginCommand).csmask = s.csmask := rfl
@[simp] theorem State.beginCommand_faults (s : State) : (s.beginCommand).faults = s.faults := rfl
@[simp] theorem State.beginCommand_work (s : State) : (s.beginCommand).work = { s.work with substep := 0 } := rfl
@[simp] theorem State.beginCommand_res (s : State) : (s.beginCommand).res = s.res := rfl
@[simp] theorem State.beginCommand_dev (s : State) : (s.beginCommand).dev = s.dev := rfl
@[simp] theorem State.beginCommand_env (s : State) : (s.beginCommand).env = s.env := rfl
@[simp] theorem State.beginCommand_port (s : State) : (s.beginCommand).port = s.port := rfl

/-! ### `State.storeChip` -/

@[simp] theorem State.storeChip_params (c : Fin 4) (n : Nat) (ws : List Word) (s : State) : (s.storeChip c n ws).params = s.params := rfl
@[simp] theorem State.storeChip_prog (c : Fin 4) (n : Nat) (ws : List Word) (s : State) : (s.storeChip c n ws).prog = s.prog := rfl
@[simp] theorem State.storeChip_cp (c : Fin 4) (n : Nat) (ws : List Word) (s : State) : (s.storeChip c n ws).cp = s.cp := rfl
@[simp] theorem State.storeChip_csmask (c : Fin 4) (n : Nat) (ws : List Word) (s : State) : (s.storeChip c n ws).csmask = s.csmask := rfl
@[simp] theorem State.storeChip_faults (c : Fin 4) (n : Nat) (ws : List Word) (s : State) : (s.storeChip c n ws).faults = s.faults := rfl
@[simp] theorem State.storeChip_work (c : Fin 4) (n : Nat) (ws : List Word) (s : State) : (s.storeChip c n ws).work = { s.work with raw := s.params.byteOrder.toBytes ws } := rfl
@[simp] theorem State.storeChip_dev (c : Fin 4) (n : Nat) (ws : List Word) (s : State) : (s.storeChip c n ws).dev = s.dev := rfl
@[simp] theorem State.storeChip_env (c : Fin 4) (n : Nat) (ws : List Word) (s : State) : (s.storeChip c n ws).env = s.env := rfl
@[simp] theorem State.storeChip_port (c : Fin 4) (n : Nat) (ws : List Word) (s : State) : (s.storeChip c n ws).port = s.port := rfl

/-! ### `State.endSnap` -/

@[simp] theorem State.endSnap_params (set : BitVec 4) (n : Nat) (s : State) : (s.endSnap set n).params = s.params := rfl
@[simp] theorem State.endSnap_prog (set : BitVec 4) (n : Nat) (s : State) : (s.endSnap set n).prog = s.prog := rfl
@[simp] theorem State.endSnap_cp (set : BitVec 4) (n : Nat) (s : State) : (s.endSnap set n).cp = s.cp := rfl
@[simp] theorem State.endSnap_csmask (set : BitVec 4) (n : Nat) (s : State) : (s.endSnap set n).csmask = s.csmask := rfl
@[simp] theorem State.endSnap_faults (set : BitVec 4) (n : Nat) (s : State) : (s.endSnap set n).faults = s.faults := rfl
@[simp] theorem State.endSnap_work (set : BitVec 4) (n : Nat) (s : State) : (s.endSnap set n).work = s.work := rfl
@[simp] theorem State.endSnap_dev (set : BitVec 4) (n : Nat) (s : State) : (s.endSnap set n).dev = s.dev := rfl
@[simp] theorem State.endSnap_env (set : BitVec 4) (n : Nat) (s : State) : (s.endSnap set n).env = s.env := rfl
@[simp] theorem State.endSnap_port (set : BitVec 4) (n : Nat) (s : State) : (s.endSnap set n).port = s.port := rfl

/-! ### `State.countTap` -/

@[simp] theorem State.countTap_params (s : State) : (s.countTap).params = s.params := rfl
@[simp] theorem State.countTap_prog (s : State) : (s.countTap).prog = s.prog := rfl
@[simp] theorem State.countTap_cp (s : State) : (s.countTap).cp = s.cp := rfl
@[simp] theorem State.countTap_csmask (s : State) : (s.countTap).csmask = s.csmask := rfl
@[simp] theorem State.countTap_faults (s : State) : (s.countTap).faults = s.faults := rfl
@[simp] theorem State.countTap_dev (s : State) : (s.countTap).dev = s.dev := rfl
@[simp] theorem State.countTap_env (s : State) : (s.countTap).env = s.env := rfl
@[simp] theorem State.countTap_port (s : State) : (s.countTap).port = s.port := rfl
@[simp] theorem State.countTap_phase (s : State) : s.countTap.work.phase = s.work.phase := rfl
@[simp] theorem State.countTap_sr (s : State) : s.countTap.work.sr = s.work.sr := rfl
@[simp] theorem State.countTap_bitidx (s : State) : s.countTap.work.bitidx = s.work.bitidx := rfl
@[simp] theorem State.countTap_substep (s : State) : s.countTap.work.substep = s.work.substep := rfl
@[simp] theorem State.countTap_tapidx (s : State) : s.countTap.work.tapidx = s.work.tapidx := rfl
@[simp] theorem State.countTap_curchip (s : State) : s.countTap.work.curchip = s.work.curchip := rfl
@[simp] theorem State.countTap_expect (s : State) : s.countTap.work.expect = s.work.expect := rfl
@[simp] theorem State.countTap_attempt (s : State) : s.countTap.work.attempt = s.work.attempt := rfl
@[simp] theorem State.countTap_raw (s : State) : s.countTap.work.raw = s.work.raw := rfl
@[simp] theorem State.countTap_samples (s : State) : s.countTap.res.samples = s.res.samples := rfl
@[simp] theorem State.countTap_sampleLen (s : State) : s.countTap.res.sampleLen = s.res.sampleLen := rfl
@[simp] theorem State.countTap_sampleValid (s : State) : s.countTap.res.sampleValid = s.res.sampleValid := rfl
@[simp] theorem State.countTap_calValid (s : State) : s.countTap.res.calValid = s.res.calValid := rfl
@[simp] theorem State.countTap_calChip (s : State) : s.countTap.res.calChip = s.res.calChip := rfl
@[simp] theorem State.countTap_syncok (s : State) : s.countTap.res.syncok = s.res.syncok := rfl
@[simp] theorem State.countTap_syncValid (s : State) : s.countTap.res.syncValid = s.res.syncValid := rfl

/-! ### `State.verdict` -/

@[simp] theorem State.verdict_params (c : Fin 4) (s : State) : (s.verdict c).params = s.params := rfl
@[simp] theorem State.verdict_prog (c : Fin 4) (s : State) : (s.verdict c).prog = s.prog := rfl
@[simp] theorem State.verdict_cp (c : Fin 4) (s : State) : (s.verdict c).cp = s.cp := rfl
@[simp] theorem State.verdict_csmask (c : Fin 4) (s : State) : (s.verdict c).csmask = s.csmask := rfl
@[simp] theorem State.verdict_faults (c : Fin 4) (s : State) : (s.verdict c).faults = s.faults := rfl
@[simp] theorem State.verdict_work (c : Fin 4) (s : State) : (s.verdict c).work = s.work := rfl
@[simp] theorem State.verdict_res (c : Fin 4) (s : State) : (s.verdict c).res = { s.res with syncok := s.res.syncok.set c (s.syncMatch c) } := rfl
@[simp] theorem State.verdict_dev (c : Fin 4) (s : State) : (s.verdict c).dev = s.dev := rfl
@[simp] theorem State.verdict_env (c : Fin 4) (s : State) : (s.verdict c).env = s.env := rfl
@[simp] theorem State.verdict_port (c : Fin 4) (s : State) : (s.verdict c).port = s.port := rfl

/-! ### `State.endSync` -/

@[simp] theorem State.endSync_params (set : BitVec 4) (s : State) : (s.endSync set).params = s.params := rfl
@[simp] theorem State.endSync_prog (set : BitVec 4) (s : State) : (s.endSync set).prog = s.prog := rfl
@[simp] theorem State.endSync_cp (set : BitVec 4) (s : State) : (s.endSync set).cp = s.cp := rfl
@[simp] theorem State.endSync_csmask (set : BitVec 4) (s : State) : (s.endSync set).csmask = s.csmask := rfl
@[simp] theorem State.endSync_faults (set : BitVec 4) (s : State) : (s.endSync set).faults = s.faults := rfl
@[simp] theorem State.endSync_work (set : BitVec 4) (s : State) : (s.endSync set).work = s.work := rfl
@[simp] theorem State.endSync_dev (set : BitVec 4) (s : State) : (s.endSync set).dev = s.dev := rfl
@[simp] theorem State.endSync_env (set : BitVec 4) (s : State) : (s.endSync set).env = s.env := rfl
@[simp] theorem State.endSync_port (set : BitVec 4) (s : State) : (s.endSync set).port = s.port := rfl
@[simp] theorem State.endSync_samples (set : BitVec 4) (s : State) : (s.endSync set).res.samples = s.res.samples := rfl
@[simp] theorem State.endSync_sampleLen (set : BitVec 4) (s : State) : (s.endSync set).res.sampleLen = s.res.sampleLen := rfl
@[simp] theorem State.endSync_sampleValid (set : BitVec 4) (s : State) : (s.endSync set).res.sampleValid = s.res.sampleValid := rfl
@[simp] theorem State.endSync_errcnt (set : BitVec 4) (s : State) : (s.endSync set).res.errcnt = s.res.errcnt := rfl
@[simp] theorem State.endSync_good (set : BitVec 4) (s : State) : (s.endSync set).res.good = s.res.good := rfl
@[simp] theorem State.endSync_calValid (set : BitVec 4) (s : State) : (s.endSync set).res.calValid = s.res.calValid := rfl
@[simp] theorem State.endSync_calChip (set : BitVec 4) (s : State) : (s.endSync set).res.calChip = s.res.calChip := rfl
@[simp] theorem State.endSync_syncValid (set : BitVec 4) (s : State) : (s.endSync set).res.syncValid = set := rfl

/-! ### `State.takeCapture`, `State.ctrl1Lands`, `State.nextBit` -/

@[simp] theorem State.takeCapture_params (w : Word) (s : State) : (s.takeCapture w).params = s.params := by
  unfold State.takeCapture
  split <;> rfl
@[simp] theorem State.takeCapture_prog (w : Word) (s : State) : (s.takeCapture w).prog = s.prog := by
  unfold State.takeCapture
  split <;> rfl
@[simp] theorem State.takeCapture_cp (w : Word) (s : State) : (s.takeCapture w).cp = s.cp := by
  unfold State.takeCapture
  split <;> rfl
@[simp] theorem State.takeCapture_csmask (w : Word) (s : State) : (s.takeCapture w).csmask = s.csmask := by
  unfold State.takeCapture
  split <;> rfl
@[simp] theorem State.takeCapture_faults (w : Word) (s : State) : (s.takeCapture w).faults = s.faults := by
  unfold State.takeCapture
  split <;> rfl
@[simp] theorem State.takeCapture_work (w : Word) (s : State) : (s.takeCapture w).work = s.work := by
  unfold State.takeCapture
  split <;> rfl
@[simp] theorem State.takeCapture_res (w : Word) (s : State) : (s.takeCapture w).res = s.res := by
  unfold State.takeCapture
  split <;> rfl
@[simp] theorem State.takeCapture_dev (w : Word) (s : State) : (s.takeCapture w).dev = s.dev := by
  unfold State.takeCapture
  split <;> rfl
@[simp] theorem State.takeCapture_port (w : Word) (s : State) : (s.takeCapture w).port = s.port := by
  unfold State.takeCapture
  split <;> rfl
@[simp] theorem State.ctrl1Lands_params (w : Word) (s : State) : (s.ctrl1Lands w).params = s.params := by
  simp [State.ctrl1Lands]
@[simp] theorem State.ctrl1Lands_prog (w : Word) (s : State) : (s.ctrl1Lands w).prog = s.prog := by
  simp [State.ctrl1Lands]
@[simp] theorem State.ctrl1Lands_cp (w : Word) (s : State) : (s.ctrl1Lands w).cp = s.cp := by
  simp [State.ctrl1Lands]
@[simp] theorem State.ctrl1Lands_csmask (w : Word) (s : State) : (s.ctrl1Lands w).csmask = s.csmask := by
  simp [State.ctrl1Lands]
@[simp] theorem State.ctrl1Lands_faults (w : Word) (s : State) : (s.ctrl1Lands w).faults = s.faults := by
  simp [State.ctrl1Lands]
@[simp] theorem State.ctrl1Lands_work (w : Word) (s : State) : (s.ctrl1Lands w).work = s.work := by
  simp [State.ctrl1Lands]
@[simp] theorem State.ctrl1Lands_res (w : Word) (s : State) : (s.ctrl1Lands w).res = s.res := by
  simp [State.ctrl1Lands]
@[simp] theorem State.ctrl1Lands_port (w : Word) (s : State) : (s.ctrl1Lands w).port = s.port := by
  simp [State.ctrl1Lands]
@[simp] theorem State.ctrl1Lands_dev (w : Word) (s : State) :
    (s.ctrl1Lands w).dev = s.dev.onCtrl1 s.params w s.oracleWord := rfl
@[simp] theorem State.ctrl1Lands_env (w : Word) (s : State) : (s.ctrl1Lands w).env = (s.takeCapture w).env := rfl
@[simp] theorem State.takeCapture_answers (w : Word) (s : State) : (s.takeCapture w).env.answers = s.env.answers := by
  unfold State.takeCapture
  split <;> rfl
@[simp] theorem State.takeCapture_draws (w : Word) (s : State) : (s.takeCapture w).env.draws = s.env.draws := by
  unfold State.takeCapture
  split <;> rfl
@[simp] theorem State.takeCapture_resetLine (w : Word) (s : State) :
    (s.takeCapture w).env.resetLine = s.env.resetLine := by
  unfold State.takeCapture
  split <;> rfl
theorem State.takeCapture_captures (w : Word) (s : State) :
    (s.takeCapture w).env.captures = if s.dev.triggered s.params w then s.env.captures.tail else s.env.captures := by
  unfold State.takeCapture
  split <;> rfl
@[simp] theorem State.nextBit_params (s : State) : s.nextBit.params = s.params := by
  unfold State.nextBit
  split <;> rfl
@[simp] theorem State.nextBit_prog (s : State) : s.nextBit.prog = s.prog := by
  unfold State.nextBit
  split <;> rfl
@[simp] theorem State.nextBit_cp (s : State) : s.nextBit.cp = s.cp := by
  unfold State.nextBit
  split <;> rfl
@[simp] theorem State.nextBit_csmask (s : State) : s.nextBit.csmask = s.csmask := by
  unfold State.nextBit
  split <;> rfl
@[simp] theorem State.nextBit_faults (s : State) : s.nextBit.faults = s.faults := by
  unfold State.nextBit
  split <;> rfl
@[simp] theorem State.nextBit_res (s : State) : s.nextBit.res = s.res := by
  unfold State.nextBit
  split <;> rfl
@[simp] theorem State.nextBit_dev (s : State) : s.nextBit.dev = s.dev := by
  unfold State.nextBit
  split <;> rfl
@[simp] theorem State.nextBit_env (s : State) : s.nextBit.env = s.env := by
  unfold State.nextBit
  split <;> rfl
@[simp] theorem State.nextBit_port (s : State) : s.nextBit.port = s.port := by
  unfold State.nextBit
  split <;> rfl
theorem State.nextBit_work (s : State) :
    s.nextBit.work =
      if s.work.bitidx = 0 then { s.work with phase := .post }
      else { s.work with bitidx := s.work.bitidx - 1, phase := .low } := by
  unfold State.nextBit
  split <;> rfl

end Sys2Proof.Machine
end

