-- ==== Sys2Proof/Laws/Flow.lean ====
section
/-! SUPPORT. Sequencing: what `andThen`, `each`, `update` and `issue` can do, said once. -/

namespace Sys2Proof.Machine

/-! ### Sequencing -/

@[simp] theorem Flow.andThen_go (s : State) (k : State → Flow) : (Flow.go s).andThen k = k s := rfl
@[simp] theorem Flow.andThen_stop (s : State) (k : State → Flow) : (Flow.stop s).andThen k = .stop s := rfl
@[simp] theorem Flow.update_apply (f : State → State) (s : State) : Flow.update f s = .go (f s) := rfl
@[simp] theorem Flow.each_nil {α : Type} (body : α → State → Flow) (s : State) : Flow.each body [] s = .go s := rfl
theorem Flow.each_cons {α : Type} (body : α → State → Flow) (x : α) (xs : List α) (s : State) :
    Flow.each body (x :: xs) s = (body x s).andThen (Flow.each body xs) := rfl

theorem Flow.andThen_assoc (f : Flow) (g h : State → Flow) :
    (f.andThen g).andThen h = f.andThen fun s => (g s).andThen h := by
  cases f <;> rfl

/-- A sequence completes iff both parts complete. -/
theorem Flow.andThen_eq_go {f : Flow} {k : State → Flow} {t : State} :
    f.andThen k = .go t ↔ ∃ m, f = .go m ∧ k m = .go t := by
  cases f <;> simp

/-- A sequence is abandoned in its first part, or in its second after the first has completed. -/
theorem Flow.andThen_eq_stop {f : Flow} {k : State → Flow} {t : State} :
    f.andThen k = .stop t ↔ f = .stop t ∨ ∃ m, f = .go m ∧ k m = .stop t := by
  cases f <;> simp

/-! ### What a completed part keeps -/

/-- `body` keeps the value of `f` when it completes. -/
def KeepsGo {β : Type} (f : State → β) (body : State → Flow) : Prop := ∀ s t, body s = .go t → f t = f s

/-- `body` keeps the value of `f` however it ends. -/
def Keeps {β : Type} (f : State → β) (body : State → Flow) : Prop :=
  ∀ s t, body s = .go t ∨ body s = .stop t → f t = f s

section
variable {β : Type} {f : State → β}

theorem KeepsGo.andThen {b : State → Flow} {k : State → Flow} (hb : KeepsGo f b) (hk : KeepsGo f k) :
    KeepsGo f fun s => (b s).andThen k := by
  intro s t h
  obtain ⟨m, h1, h2⟩ := Flow.andThen_eq_go.mp h
  rw [hk m t h2, hb s m h1]

theorem KeepsGo.each {α : Type} {body : α → State → Flow} (h : ∀ x, KeepsGo f (body x)) (xs : List α) :
    KeepsGo f (Flow.each body xs) := by
  induction xs with
  | nil => intro s t h; cases h; rfl
  | cons x xs ih => exact KeepsGo.andThen (h x) ih

theorem KeepsGo.update {u : State → State} (h : ∀ s, f (u s) = f s) : KeepsGo f (Flow.update u) := by
  intro s t e
  cases e
  exact h s

theorem Keeps.go {b : State → Flow} (h : Keeps f b) : KeepsGo f b := fun s t e => h s t (.inl e)

theorem Keeps.andThen {b : State → Flow} {k : State → Flow} (hb : Keeps f b) (hk : Keeps f k) :
    Keeps f fun s => (b s).andThen k := by
  rintro s t (h | h)
  · obtain ⟨m, h1, h2⟩ := Flow.andThen_eq_go.mp h
    rw [hk m t (.inl h2), hb s m (.inl h1)]
  · rcases Flow.andThen_eq_stop.mp h with h | ⟨m, h1, h2⟩
    · exact hb s t (.inr h)
    · rw [hk m t (.inr h2), hb s m (.inl h1)]

theorem Keeps.each {α : Type} {body : α → State → Flow} (h : ∀ x, Keeps f (body x)) (xs : List α) :
    Keeps f (Flow.each body xs) := by
  induction xs with
  | nil => rintro s t (h | h) <;> cases h; rfl
  | cons x xs ih => exact Keeps.andThen (h x) ih

theorem Keeps.update {u : State → State} (h : ∀ s, f (u s) = f s) : Keeps f (Flow.update u) := by
  rintro s t (e | e) <;> cases e
  exact h s

end

/-- `body` preserves `P` when it completes. -/
def Preserves (P : State → Prop) (body : State → Flow) : Prop := ∀ s t, P s → body s = .go t → P t

section
variable {P : State → Prop}

theorem Preserves.andThen {b k : State → Flow} (hb : Preserves P b) (hk : Preserves P k) : Preserves P fun s => (b s).andThen k := by
  intro s t hs h
  obtain ⟨m, h1, h2⟩ := Flow.andThen_eq_go.mp h
  exact hk m t (hb s m hs h1) h2

theorem Preserves.each {α : Type} {body : α → State → Flow} (h : ∀ x, Preserves P (body x)) (xs : List α) :
    Preserves P (Flow.each body xs) := by
  induction xs with
  | nil => intro s t hs h; cases h; exact hs
  | cons x xs ih => exact Preserves.andThen (h x) ih

theorem Preserves.update {u : State → State} (h : ∀ s, P s → P (u s)) : Preserves P (Flow.update u) := by
  intro s t hs e
  cases e
  exact h s hs

end

/-! ### The environment's answers -/

theorem State.answerAt_zero (s : State) (op : TOp) : s.answerAt 0 op = s.env.answerTo op := by
  unfold State.answerAt Env.answerTo
  cases s.env.answers <;> simp

/-- The answers after one has been given are the later ones. -/
theorem State.answerAt_succ {s t : State} (ha : t.env.answers = s.env.answers.tail) (hd : t.env.draws = s.env.draws + 1)
    (k : Nat) (op : TOp) : t.answerAt k op = s.answerAt (k + 1) op := by
  unfold State.answerAt
  rw [ha, hd]
  cases s.env.answers <;> simp [Nat.add_comm, Nat.add_left_comm]

/-! ### Issuing one operation -/

/-- The state after operation `op` has completed. -/
def State.completed (op : TOp) (effect : State → State) (s : State) : State :=
  (effect (s.takeAnswer.logOp op)).setSubstep (s.work.substep + 1)

/-- The state after operation `op` has failed, with or without its effect. -/
def State.failed (op : TOp) (effect : State → State) (landed : Bool) (s : State) : State :=
  State.transportFailure (if landed then effect (s.takeAnswer.logOp op) else s.takeAnswer.logOp op)

/-- Everything `issue` can do. -/
theorem issue_cases (op : TOp) (effect : State → State) (s : State) :
    (s.env.answerTo op = .completes ∧ issue op effect s = .go (s.completed op effect)) ∨
    (∃ b, s.env.answerTo op = .fails b ∧ issue op effect s = .stop (s.failed op effect b)) ∨
    (s.env.answerTo op = .resetFirst ∧ issue op effect s = .stop s.takeAnswer.hostReset) := by
  unfold issue
  cases h : s.env.answerTo op with
  | completes => exact .inl ⟨rfl, rfl⟩
  | fails b => cases b <;> exact .inr (.inl ⟨_, rfl, rfl⟩)
  | resetFirst => exact .inr (.inr ⟨rfl, rfl⟩)

/-- If it continues, the operation has completed. -/
theorem issue_eq_go {op : TOp} {effect : State → State} {s t : State} (h : issue op effect s = .go t) :
    t = s.completed op effect := by
  rcases issue_cases op effect s with ⟨-, e⟩ | ⟨b, -, e⟩ | ⟨-, e⟩ <;> rw [e] at h <;> cases h
  rfl

/-- If it abandons the command, the operation has failed or reset came first. -/
theorem issue_eq_stop {op : TOp} {effect : State → State} {s t : State} (h : issue op effect s = .stop t) :
    (∃ b, t = s.failed op effect b) ∨ t = s.takeAnswer.hostReset := by
  rcases issue_cases op effect s with ⟨-, e⟩ | ⟨b, -, e⟩ | ⟨-, e⟩ <;> rw [e] at h <;> cases h
  · exact .inl ⟨b, rfl⟩
  · exact .inr rfl

theorem issue_go_of_completes {op : TOp} {effect : State → State} {s : State} (h : s.env.answerTo op = .completes) :
    issue op effect s = .go (s.completed op effect) := by
  unfold issue
  rw [h]
  rfl

/-! ### The premise that no operation fails -/

theorem State.NoTransportFailure.mono {n m : Nat} {s : State} (h : s.NoTransportFailure n) (hm : m ≤ n) :
    s.NoTransportFailure m := fun k hk op => h k (by omega) op

theorem State.NoTransportFailure.head {n : Nat} {s : State} (h : s.NoTransportFailure (n + 1)) (op : TOp) :
    s.env.answerTo op = .completes := by
  rw [← State.answerAt_zero]
  exact h 0 (by omega) op

theorem State.NoTransportFailure.tail {n : Nat} {s t : State} (h : s.NoTransportFailure (n + 1))
    (ha : t.env.answers = s.env.answers.tail) (hd : t.env.draws = s.env.draws + 1) : t.NoTransportFailure n := by
  intro k hk op
  rw [State.answerAt_succ ha hd]
  exact h (k + 1) (by omega) op

/-- The premise depends on the pending answers and the draw counter alone. -/
theorem State.NoTransportFailure.congr {n : Nat} {s t : State} (h : s.NoTransportFailure n)
    (ha : t.env.answers = s.env.answers) (hd : t.env.draws = s.env.draws) : t.NoTransportFailure n := by
  intro k hk op
  have := h k hk op
  unfold State.answerAt at this ⊢
  rw [ha, hd]
  exact this

/-- A state whose pending answers begin with `n` completions meets the premise. -/
theorem State.noTransportFailure_of_answers {n : Nat} {s : State} {rest : List PortAnswer}
    (h : s.env.answers = List.replicate n .completes ++ rest) : s.NoTransportFailure n := by
  intro k hk op
  unfold State.answerAt
  rw [h, List.getElem?_append_left (by simpa using hk), List.getElem?_replicate, if_pos hk]

end Sys2Proof.Machine
end

