-- ==== Sys2Proof/Laws/Ran.lean ====
section
/-! SUPPORT. What any part of a command can do, whatever the environment answers: it completes after some number of operations, or
it is abandoned at one of them. -/

namespace Sys2Proof.Machine

theorem World.replay_append (p : Params) (a b : List TOp) (w : World) : w.replay p (a ++ b) = (w.replay p a).replay p b :=
  List.foldl_append

/-- The port grew by `n` legal operations between `s` and `t`, each of which took effect on the world in turn. -/
def PortGrew (n : Nat) (s t : State) : Prop :=
  ∃ ops : List TOp, ops.length = n ∧ t.port = ops ++ s.port ∧ (∀ op ∈ ops, LegalOp s.params op) ∧
    (s.params.idxSer ≠ s.params.idxCap → t.world = s.world.replay s.params ops.reverse)

/-- The port grew by `n` operations that took effect and one more that did or did not (R80). -/
def PortBroke (n : Nat) (s t : State) : Prop :=
  ∃ op ops, ops.length = n ∧ t.port = op :: ops ++ s.port ∧ (∀ x ∈ op :: ops, LegalOp s.params x) ∧
    (s.params.idxSer ≠ s.params.idxCap →
      t.world = s.world.replay s.params ops.reverse ∨ t.world = s.world.replay s.params (op :: ops).reverse)

theorem PortGrew.same {s t : State} (hp : t.port = s.port) (hw : t.world = s.world) : PortGrew 0 s t :=
  ⟨[], rfl, hp, by simp, fun _ => hw⟩

theorem PortGrew.refl (s : State) : PortGrew 0 s s := PortGrew.same rfl rfl

theorem PortGrew.trans {n k : Nat} {s m t : State} (hp : m.params = s.params) (h1 : PortGrew n s m) (h2 : PortGrew k m t) :
    PortGrew (n + k) s t := by
  obtain ⟨a, la, ea, pa, wa⟩ := h1
  obtain ⟨b, lb, eb, pb, wb⟩ := h2
  refine ⟨b ++ a, by simp [la, lb, Nat.add_comm], by rw [eb, ea, List.append_assoc], ?_, ?_⟩
  · intro op hop
    rcases List.mem_append.mp hop with h | h
    · rw [← hp]; exact pb op h
    · exact pa op h
  · intro hi
    rw [wb (by rw [hp]; exact hi), wa hi, hp, ← World.replay_append, List.reverse_append]

theorem PortBroke.after {n k : Nat} {s m t : State} (hp : m.params = s.params) (h1 : PortGrew n s m) (h2 : PortBroke k m t) :
    PortBroke (n + k) s t := by
  obtain ⟨a, la, ea, pa, wa⟩ := h1
  obtain ⟨op, b, lb, eb, pb, wb⟩ := h2
  refine ⟨op, b ++ a, by simp [la, lb, Nat.add_comm], by rw [eb, ea]; simp, ?_, ?_⟩
  · intro x hx
    rw [← List.cons_append] at hx
    rcases List.mem_append.mp hx with h | h
    · rw [← hp]; exact pb x h
    · exact pa x h
  · intro hi
    rcases wb (by rw [hp]; exact hi) with h | h
    · left
      rw [h, wa hi, hp, ← World.replay_append, List.reverse_append]
    · right
      rw [h, wa hi, hp, ← World.replay_append, ← List.cons_append, List.reverse_append]

/-- `n` operations have completed between `s` and `t`, inside one command. -/
structure Ran (n : Nat) (s t : State) : Prop where
  params : t.params = s.params
  prog : t.prog = s.prog
  cp : t.cp = s.cp
  csmask : t.csmask = s.csmask
  faults : t.faults = s.faults
  resetLine : t.env.resetLine = s.env.resetLine
  answers : t.env.answers = s.env.answers.drop n
  draws : t.env.draws = s.env.draws + n
  substep : t.work.substep = s.work.substep + n
  port : PortGrew n s t
  device : s.dev.Inv → t.dev.Inv
  answered : ∀ j, j < n → ∃ op, s.answerAt j op = .completes

theorem Ran.refl (s : State) : Ran 0 s s := by
  constructor <;> simp [PortGrew.refl]

theorem State.answerAt_drop {n : Nat} {s t : State} (ha : t.env.answers = s.env.answers.drop n) (hd : t.env.draws = s.env.draws + n)
    (k : Nat) (op : TOp) : t.answerAt k op = s.answerAt (n + k) op := by
  unfold State.answerAt
  rw [ha, hd, List.getElem?_drop, Nat.add_assoc]

theorem Ran.answerAt {n : Nat} {s t : State} (h : Ran n s t) (k : Nat) (op : TOp) :
    t.answerAt k op = s.answerAt (n + k) op := State.answerAt_drop h.answers h.draws k op

/-- The answers to the first operations of a part, and then to those of a later part. -/
theorem Ran.answered_after {n k : Nat} {s m : State} (h1 : Ran n s m) (h2 : ∀ j, j < k → ∃ op, m.answerAt j op = .completes) :
    ∀ j, j < n + k → ∃ op, s.answerAt j op = .completes := by
  intro j hj
  by_cases h : j < n
  · exact h1.answered j h
  · obtain ⟨op, e⟩ := h2 (j - n) (by omega)
    rw [h1.answerAt, show n + (j - n) = j by omega] at e
    exact ⟨op, e⟩

theorem Ran.trans {n k : Nat} {s m t : State} (h1 : Ran n s m) (h2 : Ran k m t) : Ran (n + k) s t where
  params := h2.params.trans h1.params
  prog := h2.prog.trans h1.prog
  cp := h2.cp.trans h1.cp
  csmask := h2.csmask.trans h1.csmask
  faults := h2.faults.trans h1.faults
  resetLine := h2.resetLine.trans h1.resetLine
  answers := by rw [h2.answers, h1.answers, List.drop_drop]
  draws := by rw [h2.draws, h1.draws, Nat.add_assoc]
  substep := by rw [h2.substep, h1.substep, Nat.add_assoc]
  port := h1.port.trans h1.params h2.port
  device := fun h => h2.device (h1.device h)
  answered := h1.answered_after h2.answered

theorem Ran.noTransportFailure {n k : Nat} {s t : State} (h : Ran n s t) (hs : s.NoTransportFailure (n + k)) :
    t.NoTransportFailure k := by
  intro j hj op
  rw [h.answerAt]
  exact hs (n + j) (by omega) op

/-- After `n` operations the next one was issued and failed (R233, R236). -/
structure FailedAt (n : Nat) (s t : State) : Prop where
  answered : ∀ j, j < n → ∃ op, s.answerAt j op = .completes
  answer : ∃ op b, s.answerAt n op = .fails b
  params : t.params = s.params
  prog : t.prog = s.prog
  cp : t.cp = s.cp
  csmask : t.csmask = s.csmask
  faults : t.faults = { halt := true, err := 2, errcp := s.cp, errop := s.work.substep + n }
  phase : t.work.phase = .idle
  substep : t.work.substep = 0
  resetLine : t.env.resetLine = s.env.resetLine
  port : PortBroke n s t
  device : s.dev.Inv → t.dev.Inv

/-- After `n` operations reset was asserted (R260 to R263). -/
structure ResetAt (n : Nat) (s t : State) : Prop where
  answered : ∀ j, j < n → ∃ op, s.answerAt j op = .completes
  answer : ∃ op, s.answerAt n op = .resetFirst
  params : t.params = s.params
  prog : t.prog = s.prog
  cp : t.cp = 0
  csmask : t.csmask = 0b1111
  faults : t.faults = FaultRegs.atReset
  work : t.work = Work.atReset
  res : t.res = Results.atReset
  resetLine : t.env.resetLine = false
  port : PortGrew n s t
  device : s.dev.Inv → t.dev.Inv

/-- The command was abandoned at operation `n`. -/
def Abandoned (n : Nat) (s t : State) : Prop := FailedAt n s t ∨ ResetAt n s t

/-- The limit on the valid flags is no operation and touches no other register; after a reset no flag is set anyway. -/
theorem Abandoned.setsNoFlag {n : Nat} {s t : State} (before : Results) (h : Abandoned n s t) : Abandoned n s (t.setsNoFlag before) := by
  rcases h with h | h
  · exact .inl { h with }
  · refine .inr { h with res := ?_ }
    rw [State.setsNoFlag_res, h.res]
    simp [Results.within, Results.atReset]

theorem State.setsNoFlag_noNewFlag (s t : State) : NoNewFlag s (t.setsNoFlag s.res) where
  sample c := by
    show (_ &&& s.res.sampleValid).getLsbD c.val = true → _
    rw [BitVec.getLsbD_and, Bool.and_eq_true]
    exact And.right
  cal := by
    show (_ && s.res.calValid) = true → _
    rw [Bool.and_eq_true]
    exact And.right
  sync c := by
    show (_ &&& s.res.syncValid).getLsbD c.val = true → _
    rw [BitVec.getLsbD_and, Bool.and_eq_true]
    exact And.right

/-- Everything a fault before the first operation does (R231, R232, R236). -/
theorem State.refuse_refusedWith {s : State} (cause : Cause) (hp : s.work.phase = .idle) (hs : s.work.substep = 0) :
    RefusedWith cause.code s (s.refuse cause) where
  rest := by
    have hw : { s.work with phase := .idle, substep := 0 } = s.work := by rw [← hp, ← hs]
    show { s with faults := _, work := { s.work with phase := .idle, substep := 0 }, res := _, env := _ } = _
    rw [hw]
    rfl
  flags := State.setsNoFlag_noNewFlag s _

theorem Ran.abandoned {n k : Nat} {s m t : State} (h1 : Ran n s m) (h2 : Abandoned k m t) : Abandoned (n + k) s t := by
  rcases h2 with h2 | h2
  · obtain ⟨op, b, h⟩ := h2.answer
    exact .inl
      { answered := h1.answered_after h2.answered
        answer := ⟨op, b, by rw [← h1.answerAt]; exact h⟩
        params := h2.params.trans h1.params
        prog := h2.prog.trans h1.prog
        cp := h2.cp.trans h1.cp
        csmask := h2.csmask.trans h1.csmask
        faults := by rw [h2.faults, h1.cp, h1.substep, Nat.add_assoc]
        phase := h2.phase
        substep := h2.substep
        resetLine := h2.resetLine.trans h1.resetLine
        port := h2.port.after h1.params h1.port
        device := fun h => h2.device (h1.device h) }
  · obtain ⟨op, h⟩ := h2.answer
    exact .inr
      { answered := h1.answered_after h2.answered
        answer := ⟨op, by rw [← h1.answerAt]; exact h⟩
        params := h2.params.trans h1.params
        prog := h2.prog.trans h1.prog
        cp := h2.cp
        csmask := h2.csmask
        faults := h2.faults
        work := h2.work
        res := h2.res
        resetLine := h2.resetLine
        port := h1.port.trans h1.params h2.port
        device := fun h => h2.device (h1.device h) }

/-- From `s`, the part either completes after at least `lo` and at most `hi` operations, or is abandoned before operation `hi`. -/
def WithinAt (lo hi : Nat) (f : Flow) (s : State) : Prop :=
  (∃ n t, lo ≤ n ∧ n ≤ hi ∧ f = .go t ∧ Ran n s t) ∨ ∃ n t, n < hi ∧ f = .stop t ∧ Abandoned n s t

/-- The same from every state. -/
def Within (lo hi : Nat) (body : State → Flow) : Prop := ∀ s, WithinAt lo hi (body s) s

theorem WithinAt.weaken {lo hi lo' hi' : Nat} {f : Flow} {s : State} (h : WithinAt lo hi f s) (hl : lo' ≤ lo) (hh : hi ≤ hi') :
    WithinAt lo' hi' f s := by
  rcases h with ⟨n, t, h1, h2, h3⟩ | ⟨n, t, h1, h2⟩
  · exact .inl ⟨n, t, by omega, by omega, h3⟩
  · exact .inr ⟨n, t, by omega, h2⟩

theorem WithinAt.bind {lo hi lo' hi' : Nat} {f : Flow} {k : State → Flow} {s : State} (h : WithinAt lo hi f s)
    (hk : ∀ m, f = .go m → WithinAt lo' hi' (k m) m) : WithinAt (lo + lo') (hi + hi') (f.andThen k) s := by
  rcases h with ⟨n, m, h1, h2, rfl, h4⟩ | ⟨n, t, h1, rfl, h3⟩
  · rcases hk m rfl with ⟨j, t, h5, h6, h7, h8⟩ | ⟨j, t, h5, h6, h7⟩
    · exact .inl ⟨n + j, t, by omega, by omega, h7, h4.trans h8⟩
    · exact .inr ⟨n + j, t, by omega, h6, h4.abandoned h7⟩
  · exact .inr ⟨n, t, by omega, rfl, h3⟩

theorem Within.weaken {lo hi lo' hi' : Nat} {b : State → Flow} (h : Within lo hi b) (hl : lo' ≤ lo) (hh : hi ≤ hi') :
    Within lo' hi' b := fun s => (h s).weaken hl hh

theorem Within.andThen {lo hi lo' hi' : Nat} {b k : State → Flow} (hb : Within lo hi b) (hk : Within lo' hi' k) :
    Within (lo + lo') (hi + hi') fun s => (b s).andThen k := fun s => (hb s).bind fun m _ => hk m

theorem Within.update {f : State → State} (h : ∀ s, Ran 0 s (f s)) : Within 0 0 (Flow.update f) :=
  fun s => .inl ⟨0, f s, by omega, by omega, rfl, h s⟩

theorem Within.skip : Within 0 0 Flow.go := fun s => .inl ⟨0, s, by omega, by omega, rfl, Ran.refl s⟩

theorem Within.each {α : Type} {lo hi : Nat} {body : α → State → Flow} (h : ∀ x, Within lo hi (body x)) (xs : List α) :
    Within (xs.length * lo) (xs.length * hi) (Flow.each body xs) := by
  induction xs with
  | nil => exact fun s => .inl ⟨0, s, by simp, by simp, rfl, Ran.refl s⟩
  | cons x xs ih =>
    have := (h x).andThen ih
    rw [List.length_cons, Nat.add_mul, Nat.add_mul, Nat.one_mul, Nat.one_mul, Nat.add_comm _ lo, Nat.add_comm _ hi]
    exact this

/-- If no operation fails, the part completes. -/
theorem WithinAt.completes {lo hi : Nat} {f : Flow} {s : State} (h : WithinAt lo hi f s) (hs : s.NoTransportFailure hi) :
    ∃ n t, lo ≤ n ∧ n ≤ hi ∧ f = .go t ∧ Ran n s t := by
  rcases h with h | ⟨n, t, h1, -, h3 | h3⟩
  · exact h
  · obtain ⟨op, b, h⟩ := h3.answer
    rw [hs n h1 op] at h
    cases h
  · obtain ⟨op, h⟩ := h3.answer
    rw [hs n h1 op] at h
    cases h

/-- A part that completed ran some number of operations within its bounds. -/
theorem WithinAt.ran {lo hi : Nat} {s t : State} (h : WithinAt lo hi (.go t) s) : ∃ n, lo ≤ n ∧ n ≤ hi ∧ Ran n s t := by
  rcases h with ⟨n, t', h1, h2, h3, h4⟩ | ⟨n, t', -, h2, -⟩
  · cases h3; exact ⟨n, h1, h2, h4⟩
  · cases h2

/-- A part that was abandoned was abandoned before its upper bound. -/
theorem WithinAt.abandoned {lo hi : Nat} {s t : State} (h : WithinAt lo hi (.stop t) s) : ∃ n, n < hi ∧ Abandoned n s t := by
  rcases h with ⟨n, t', -, -, h3, -⟩ | ⟨n, t', h1, h2, h3⟩
  · cases h3
  · cases h2; exact ⟨n, h1, h3⟩

/-- A register update before a part changes nothing of its bounds. -/
theorem WithinAt.pre {lo hi : Nat} {f : Flow} {s s' : State} (hr : Ran 0 s s') (h : WithinAt lo hi f s') : WithinAt lo hi f s := by
  rcases h with ⟨n, t, h1, h2, h3, h4⟩ | ⟨n, t, h1, h2, h3⟩
  · exact .inl ⟨n, t, h1, h2, h3, by simpa using hr.trans h4⟩
  · exact .inr ⟨n, t, h1, h2, by simpa using hr.abandoned h3⟩

/-- Updating working registers other than SUBSTEP is no operation. -/
theorem ran_setWork {s : State} {w : Work} (h : w.substep = s.work.substep) : Ran 0 s (s.setWork w) := by
  constructor
  case port => exact PortGrew.same rfl rfl
  all_goals simp [h]

/-- Updating result registers is no operation. -/
theorem ran_setRes (s : State) (r : Results) : Ran 0 s (s.setRes r) := by
  constructor
  case port => exact PortGrew.same rfl rfl
  all_goals simp

/-! ### One operation -/

/-- What an operation's effect may touch: the device and the pending captures. -/
structure DeviceOnly (effect : State → State) : Prop where
  params : ∀ s, (effect s).params = s.params
  prog : ∀ s, (effect s).prog = s.prog
  cp : ∀ s, (effect s).cp = s.cp
  csmask : ∀ s, (effect s).csmask = s.csmask
  faults : ∀ s, (effect s).faults = s.faults
  work : ∀ s, (effect s).work = s.work
  res : ∀ s, (effect s).res = s.res
  port : ∀ s, (effect s).port = s.port
  answers : ∀ s, (effect s).env.answers = s.env.answers
  draws : ∀ s, (effect s).env.draws = s.env.draws
  resetLine : ∀ s, (effect s).env.resetLine = s.env.resetLine
  device : ∀ s, s.dev.Inv → (effect s).dev.Inv

theorem ctrl0Lands_deviceOnly (w : Word) : DeviceOnly (State.ctrl0Lands w) := by
  constructor <;> intro s <;> simp
  exact Device.Inv.onCtrl0

theorem ctrl1Lands_deviceOnly (w : Word) : DeviceOnly (State.ctrl1Lands w) := by
  constructor <;> intro s <;> simp
  exact Device.Inv.onCtrl1

theorem id_deviceOnly : DeviceOnly id := by
  constructor <;> intro s <;> simp

/-- `effect` is what operation `op` does to the world. -/
def Performs (p : Params) (op : TOp) (effect : State → State) : Prop :=
  p.idxSer ≠ p.idxCap → ∀ s, s.params = p → (effect s).world = s.world.perform p op

theorem DeviceOnly.completed_ran {effect : State → State} (h : DeviceOnly effect) {op : TOp} {s : State}
    (hop : LegalOp s.params op) (hw : Performs s.params op effect) (ha : s.env.answerTo op = .completes) :
    Ran 1 s (s.completed op effect) := by
  constructor
  case answered =>
    intro j hj
    obtain rfl : j = 0 := by omega
    exact ⟨op, by rw [State.answerAt_zero]; exact ha⟩
  case port =>
    refine ⟨[op], rfl, by simp [State.completed, h.port], by simpa using hop, fun hi => ?_⟩
    exact hw hi (s.takeAnswer.logOp op) rfl
  case device =>
    intro hd
    exact h.device _ (by simpa using hd)
  all_goals simp [State.completed, h.params, h.prog, h.cp, h.csmask, h.faults, h.answers, h.draws, h.resetLine]

theorem DeviceOnly.failed_failedAt {effect : State → State} (h : DeviceOnly effect) {op : TOp} {s : State} {b : Bool}
    (hop : LegalOp s.params op) (hw : Performs s.params op effect) (ha : s.env.answerTo op = .fails b) :
    FailedAt 0 s (s.failed op effect b) := by
  constructor
  case answered => intro j hj; omega
  case answer => exact ⟨op, b, by rw [State.answerAt_zero]; exact ha⟩
  case port =>
    refine ⟨op, [], rfl, ?_, by simpa using hop, fun hi => ?_⟩
    · cases b <;> simp [State.failed, h.port]
    · cases b
      · left
        simp [State.failed, State.world, World.replay]
      · right
        have := hw hi (s.takeAnswer.logOp op) rfl
        simpa [State.failed, State.world, World.replay] using this
  case device =>
    intro hd
    cases b
    · simpa [State.failed] using hd
    · simpa [State.failed] using h.device _ (by simpa using hd)
  all_goals cases b <;> simp [State.failed, h.params, h.prog, h.cp, h.csmask, h.work, h.resetLine]

theorem resetAt_of_resetFirst {op : TOp} {s : State} (ha : s.env.answerTo op = .resetFirst) :
    ResetAt 0 s s.takeAnswer.hostReset := by
  constructor
  · intro j hj; omega
  · exact ⟨op, by rw [State.answerAt_zero]; exact ha⟩
  case port => exact PortGrew.same rfl rfl
  case device => exact fun h => h
  all_goals rfl

theorem WithinAt.issue {effect : State → State} (h : DeviceOnly effect) {op : TOp} {s : State} (hop : LegalOp s.params op)
    (hw : Performs s.params op effect) : WithinAt 1 1 (issue op effect s) s := by
  rcases issue_cases op effect s with ⟨ha, e⟩ | ⟨b, ha, e⟩ | ⟨ha, e⟩
  · exact .inl ⟨1, _, by omega, by omega, e, h.completed_ran hop hw ha⟩
  · exact .inr ⟨0, _, by omega, e, .inl (h.failed_failedAt hop hw ha)⟩
  · exact .inr ⟨0, _, by omega, e, .inr (resetAt_of_resetFirst ha)⟩

theorem performs_ctrl0 (p : Params) (w : Word) : Performs p (.write p.regionCtrl p.idxSer w) (State.ctrl0Lands w) := by
  rintro - s rfl
  simp [World.perform, State.world, State.ctrl0Lands]

theorem performs_ctrl1 (p : Params) (w : Word) : Performs p (.write p.regionCtrl p.idxCap w) (State.ctrl1Lands w) := by
  rintro hi s rfl
  have hi : ¬ s.params.idxCap = s.params.idxSer := fun e => hi e.symm
  cases ht : s.dev.triggered s.params w <;>
    simp [World.perform, State.world, State.ctrl1Lands, State.takeCapture, State.oracleWord, World.oracle, hi, ht] <;>
    cases s.env.captures <;> rfl

theorem performs_read (p : Params) (r : String) (o n : Nat) : Performs p (.readBlock r o n) id := fun _ _ _ => rfl

theorem WithinAt.writeCtrl0 {w : Word} {s : State} (h : LegalCtrl0 s.params w) : WithinAt 1 1 (writeCtrl0 w s) s :=
  WithinAt.issue (ctrl0Lands_deviceOnly w) ⟨rfl, .inl ⟨rfl, h⟩⟩ (performs_ctrl0 _ _)

theorem WithinAt.writeCtrl1 {w : Word} {s : State} (h : LegalCtrl1 s.params w) : WithinAt 1 1 (writeCtrl1 w s) s :=
  WithinAt.issue (ctrl1Lands_deviceOnly w) ⟨rfl, .inr ⟨rfl, h⟩⟩ (performs_ctrl1 _ _)

/-- A completed part keeps the parameters. -/
theorem WithinAt.params {lo hi : Nat} {f : Flow} {s t : State} (h : WithinAt lo hi f s) (e : f = .go t) : t.params = s.params := by
  subst e
  obtain ⟨n, -, -, r⟩ := h.ran
  exact r.params

theorem WithinAt.pulseCtrl1 {w0 w1 w2 : Word} {s : State} (h0 : LegalCtrl1 s.params w0) (h1 : LegalCtrl1 s.params w1)
    (h2 : LegalCtrl1 s.params w2) : WithinAt 3 3 (pulseCtrl1 w0 w1 w2 s) s := by
  have e0 := WithinAt.writeCtrl1 h0
  refine (e0.bind (lo' := 2) (hi' := 2) fun m hm => ?_)
  have pm : m.params = s.params := e0.params hm
  have e1 := WithinAt.writeCtrl1 (s := m) (w := w1) (by rw [pm]; exact h1)
  refine (e1.bind (lo' := 1) (hi' := 1) fun m' hm' => ?_)
  exact WithinAt.writeCtrl1 (by rw [e1.params hm', pm]; exact h2)

theorem WithinAt.readCapbuf {c : Fin 4} {n : Nat} {store : List Word → State → State} {s : State} (h1 : 1 ≤ n) (h2 : n ≤ stride)
    (hs : ∀ ws s, Ran 0 s (store ws s)) : WithinAt 1 1 (readCapbuf (c.val * stride) n store s) s :=
  (WithinAt.issue id_deviceOnly (op := .readBlock s.params.regionCap (c.val * stride) n) ⟨rfl, h1, h2, c, rfl⟩ (performs_read _ _ _ _)).bind
    (lo' := 0) (hi' := 0) fun m _ => .inl ⟨0, _, by omega, by omega, rfl, hs _ m⟩

end Sys2Proof.Machine
end

