-- ==== Sys2Proof/Laws/Words.lean ====
section
/-! SUPPORT. The bits of the words written to CTRL0 and CTRL1, for parameters that meet R6. -/

namespace Sys2Proof.Machine

theorem getLsbD_field4 (v : BitVec 4) (l i : Nat) :
    (field4 v l).getLsbD i = (decide (l ≤ i) && decide (i < 32) && v.getLsbD (i - l)) := by
  unfold field4
  rw [BitVec.getLsbD_shiftLeft, BitVec.getLsbD_setWidth]
  by_cases h1 : i < 32
  · have h3 : i - l < 32 := by omega
    by_cases h2 : l ≤ i <;> simp [h1, h2, h3]
  · simp [h1]

theorem getLsbD_bitAt (b : Bool) (l i : Nat) : (bitAt b l).getLsbD i = (decide (i = l) && decide (i < 32) && b) := by
  unfold bitAt
  rw [BitVec.getLsbD_shiftLeft, BitVec.getLsbD_setWidth, BitVec.getLsbD_ofBool]
  by_cases h1 : i < 32 <;> by_cases h2 : i = l <;> simp [h1, h2]
  omega

theorem getLsbD_tapWord (p : Params) (t : BitVec 5) (i : Nat) :
    (tapWord p t).getLsbD i = (decide (p.tapLsb ≤ i) && decide (i < 32) && t.getLsbD (i - p.tapLsb)) := by
  unfold tapWord
  rw [BitVec.getLsbD_shiftLeft, BitVec.getLsbD_setWidth]
  by_cases h1 : i < 32
  · have h3 : i - p.tapLsb < 32 := by omega
    by_cases h2 : p.tapLsb ≤ i <;> simp [h1, h2, h3]
  · simp [h1]

theorem getLsbD_four_ge {v : BitVec 4} {i : Nat} (h : 4 ≤ i) : v.getLsbD i = false := BitVec.getLsbD_of_ge v i h
theorem getLsbD_five_ge {v : BitVec 5} {i : Nat} (h : 5 ≤ i) : v.getLsbD i = false := BitVec.getLsbD_of_ge v i h

/-! ### CTRL0 -/

section
variable {p : Params} (h : p.Ctrl0Wf) (m : BitVec 4) (b : Bool) (c : Fin 4)
include h

theorem idleWord_sclk : (idleWord p).getLsbD p.sclkBit = false := by
  unfold idleWord
  rw [getLsbD_field4]
  by_cases h1 : p.csLsb ≤ p.sclkBit
  · rw [getLsbD_four_ge (by omega), Bool.and_false]
  · simp [h1]

theorem idleWord_sdata : (idleWord p).getLsbD p.sdataBit = false := by
  unfold idleWord
  rw [getLsbD_field4]
  by_cases h1 : p.csLsb ≤ p.sdataBit
  · rw [getLsbD_four_ge (by omega), Bool.and_false]
  · simp [h1]

/-- The idle word deselects every chip (R100). -/
theorem selects_idleWord : selects p (idleWord p) c = false := by
  unfold selects idleWord
  rw [getLsbD_field4, Nat.add_sub_cancel_left]
  have h1 : p.csLsb + c.val < 32 := by omega
  simp only [h1, Nat.le_add_right, decide_true, Bool.true_and]
  clear h h1
  revert c
  decide

theorem loWord_sclk : (loWord p m b).getLsbD p.sclkBit = false := by
  unfold loWord
  rw [BitVec.getLsbD_or, getLsbD_field4, getLsbD_bitAt]
  have h1 : p.sclkBit ≠ p.sdataBit := h.2.2.2.1
  by_cases h2 : p.csLsb ≤ p.sclkBit
  · rw [getLsbD_four_ge (v := csnOf m) (by omega)]
    simp [h1]
  · simp [h1, h2]

theorem loWord_sdata : (loWord p m b).getLsbD p.sdataBit = b := by
  unfold loWord
  rw [BitVec.getLsbD_or, getLsbD_field4, getLsbD_bitAt]
  have h1 : p.sdataBit < 32 := by omega
  by_cases h2 : p.csLsb ≤ p.sdataBit
  · rw [getLsbD_four_ge (v := csnOf m) (by omega)]
    simp [h1]
  · simp [h1, h2]

/-- A bit word selects the chips of the mask (R100, R134). -/
theorem selects_loWord : selects p (loWord p m b) c = m.getLsbD c.val := by
  unfold selects loWord csnOf
  rw [BitVec.getLsbD_or, getLsbD_field4, getLsbD_bitAt, Nat.add_sub_cancel_left]
  have h1 : p.csLsb + c.val < 32 := by omega
  have h2 : p.csLsb + c.val ≠ p.sdataBit := by omega
  simp [h1, h2, c.isLt]

theorem hiWord_sclk : (hiWord p m b).getLsbD p.sclkBit = true := by
  unfold hiWord
  rw [BitVec.getLsbD_or, getLsbD_bitAt]
  have h1 : p.sclkBit < 32 := by omega
  simp [h1]

omit h in
theorem hiWord_other {i : Nat} (hi : i ≠ p.sclkBit) : (hiWord p m b).getLsbD i = (loWord p m b).getLsbD i := by
  unfold hiWord
  rw [BitVec.getLsbD_or, getLsbD_bitAt]
  simp [hi]

theorem hiWord_sdata : (hiWord p m b).getLsbD p.sdataBit = b := by
  rw [hiWord_other m b (by have := h.2.2.2.1; omega), loWord_sdata h]

theorem selects_hiWord : selects p (hiWord p m b) c = m.getLsbD c.val := by
  have : p.csLsb + c.val ≠ p.sclkBit := by omega
  unfold selects
  rw [hiWord_other m b this]
  exact selects_loWord h m b c

end

/-! ### CTRL1 -/

@[simp] theorem zeroWord_bit (i : Nat) : zeroWord.getLsbD i = false := by simp [zeroWord]

section
variable {p : Params} (h : p.Ctrl1Wf) (set m : BitVec 4) (t : BitVec 5) (c : Fin 4) (lane : Fin 4)
include h

theorem trigWord_snap : (trigWord p).getLsbD p.snapBit = true := by
  unfold trigWord
  rw [getLsbD_bitAt]
  have : p.snapBit < 32 := by omega
  simp [this]

theorem trigWord_slip : (trigWord p).getLsbD (p.bitslipLsb + c.val) = false := by
  unfold trigWord
  rw [getLsbD_bitAt]
  have : p.bitslipLsb + c.val ≠ p.snapBit := by omega
  simp [this]

theorem trigWord_strobe : (trigWord p).getLsbD (strobeBit p c lane) = false := by
  unfold trigWord strobeBit
  rw [getLsbD_bitAt]
  have : p.rstLsb + 4 * c.val + (3 - lane.val) ≠ p.snapBit := by omega
  simp [this]

theorem slipWord_snap : (slipWord p set).getLsbD p.snapBit = false := by
  unfold slipWord
  rw [getLsbD_field4]
  by_cases h1 : p.bitslipLsb ≤ p.snapBit
  · rw [getLsbD_four_ge (by omega), Bool.and_false]
  · simp [h1]

/-- Bit `BITSLIP_LSB + c` of SLIPW is chip `c`'s (R102, R211). -/
theorem slipWord_slip : (slipWord p set).getLsbD (p.bitslipLsb + c.val) = set.getLsbD c.val := by
  unfold slipWord
  rw [getLsbD_field4, Nat.add_sub_cancel_left]
  have : p.bitslipLsb + c.val < 32 := by omega
  simp [this]

theorem slipWord_strobe : (slipWord p set).getLsbD (strobeBit p c lane) = false := by
  unfold slipWord strobeBit
  rw [getLsbD_field4]
  by_cases h1 : p.bitslipLsb ≤ p.rstLsb + 4 * c.val + (3 - lane.val)
  · rw [getLsbD_four_ge (by omega), Bool.and_false]
  · simp [h1]

theorem tapWord_snap : (tapWord p t).getLsbD p.snapBit = false := by
  rw [getLsbD_tapWord]
  by_cases h1 : p.tapLsb ≤ p.snapBit
  · rw [getLsbD_five_ge (by omega), Bool.and_false]
  · simp [h1]

theorem tapWord_slip : (tapWord p t).getLsbD (p.bitslipLsb + c.val) = false := by
  rw [getLsbD_tapWord]
  by_cases h1 : p.tapLsb ≤ p.bitslipLsb + c.val
  · rw [getLsbD_five_ge (by omega), Bool.and_false]
  · simp [h1]

theorem tapWord_strobe : (tapWord p t).getLsbD (strobeBit p c lane) = false := by
  unfold strobeBit
  rw [getLsbD_tapWord]
  by_cases h1 : p.tapLsb ≤ p.rstLsb + 4 * c.val + (3 - lane.val)
  · rw [getLsbD_five_ge (by omega), Bool.and_false]
  · simp [h1]

theorem tapResetWord_snap : (tapResetWord p t c m).getLsbD p.snapBit = false := by
  unfold tapResetWord
  rw [BitVec.getLsbD_or, tapWord_snap h, getLsbD_field4, Bool.false_or]
  by_cases h1 : p.rstLsb + 4 * c.val ≤ p.snapBit
  · rw [getLsbD_four_ge (by omega), Bool.and_false]
  · simp [h1]

theorem tapResetWord_slip (c' : Fin 4) : (tapResetWord p t c m).getLsbD (p.bitslipLsb + c'.val) = false := by
  unfold tapResetWord
  rw [BitVec.getLsbD_or, tapWord_slip h, getLsbD_field4, Bool.false_or]
  by_cases h1 : p.rstLsb + 4 * c.val ≤ p.bitslipLsb + c'.val
  · rw [getLsbD_four_ge (by omega), Bool.and_false]
  · simp [h1]

omit h in
/-- `rev4(m)[3 - L] = m[L]` (R10). -/
theorem rev4_bit : (rev4 m).getLsbD (3 - lane.val) = m.getLsbD lane.val := by
  revert m lane
  decide

/-- TAPRST strobes exactly the lanes of `m` in chip `c` (R102, R181, R183). -/
theorem tapResetWord_strobe (c' : Fin 4) :
    (tapResetWord p t c m).getLsbD (strobeBit p c' lane) = (decide (c' = c) && m.getLsbD lane.val) := by
  unfold tapResetWord
  rw [BitVec.getLsbD_or, tapWord_strobe h, getLsbD_field4, Bool.false_or]
  unfold strobeBit
  by_cases hc : c' = c
  · subst hc
    have h1 : p.rstLsb + 4 * c'.val + (3 - lane.val) < 32 := by omega
    rw [Nat.add_sub_cancel_left, rev4_bit]
    simp [h1]
  · have hne : c'.val ≠ c.val := fun e => hc (Fin.ext e)
    by_cases h1 : p.rstLsb + 4 * c.val ≤ p.rstLsb + 4 * c'.val + (3 - lane.val)
    · rw [getLsbD_four_ge (by omega)]
      simp [hc]
    · simp [h1, hc]

/-- TAPRST carries the tap value (R183). -/
theorem tapField_tapResetWord : tapField p (tapResetWord p t c m) = t := by
  unfold tapField tapResetWord
  ext i hi
  rw [BitVec.getElem_extractLsb', BitVec.getLsbD_or, getLsbD_tapWord, getLsbD_field4]
  have h1 : p.tapLsb + i < 32 := by omega
  rw [Nat.add_sub_cancel_left]
  by_cases h2 : p.rstLsb + 4 * c.val ≤ p.tapLsb + i
  · rw [getLsbD_four_ge (v := rev4 m) (by omega)]
    simp [h1, hi]
  · simp [h1, h2, hi]

end

end Sys2Proof.Machine
end

