-- ==== Sys2Proof/Laws/Pulse.lean ====
section
/-! SUPPORT. What the three pulses on CTRL1 do: the state after a trigger (R163, R75), a delay write (R182, R184) and a bit-slip
(R211, R76). -/

namespace Sys2Proof.Machine

/-! ### One write to CTRL1 -/

/-- A CTRL1 word that makes no edge the device acts on. -/
def Quiet (p : Params) (prev w : Word) : Prop :=
  rises prev w p.snapBit = false ∧ (∀ c : Fin 4, rises prev w (p.bitslipLsb + c.val) = false) ∧
  ∀ c lane : Fin 4, rises prev w (strobeBit p c lane) = false

theorem Chip.slipAndLoad_quiet {p : Params} {prev w : Word} (h : Quiet p prev w) (c : Fin 4) (ch : Chip) :
    ch.slipAndLoad p prev w c = ch := by
  unfold Chip.slipAndLoad
  simp only [h.2.1 c, h.2.2 c]
  simp

theorem chips_ext {a b : Vector Chip 4} (h : ∀ c : Fin 4, a[c] = b[c]) : a = b := by
  ext i hi
  exact h ⟨i, hi⟩

/-- A quiet word changes CTRL1 and PREV1 only. -/
theorem Device.onCtrl1_quiet {p : Params} {w : Word} {oracle : Fin 4 → Nat → Word} {d : Device} (h : Quiet p d.prev1 w) :
    d.onCtrl1 p w oracle = { d with ctrl1 := w, prev1 := w } := by
  have ht : d.triggered p w = false := h.1
  have hc : (d.onCtrl1 p w oracle).chips = d.chips := chips_ext fun c => by
    rw [Device.onCtrl1_chip, Chip.slipAndLoad_quiet h]
  unfold Device.onCtrl1 at hc ⊢
  rw [ht] at hc ⊢
  simp only [Bool.false_eq_true, if_false] at hc ⊢
  rw [hc]

theorem quiet_zero (p : Params) (prev : Word) : Quiet p prev zeroWord := by
  refine ⟨?_, fun c => ?_, fun c lane => ?_⟩ <;> simp [rises]

theorem quiet_tapWord {p : Params} (h : p.Ctrl1Wf) (prev : Word) (t : BitVec 5) : Quiet p prev (tapWord p t) := by
  refine ⟨?_, fun c => ?_, fun c lane => ?_⟩
  · rw [rises, tapWord_snap h, Bool.and_false]
  · rw [rises, tapWord_slip h, Bool.and_false]
  · rw [rises, tapWord_strobe h, Bool.and_false]

/-- The trigger word after a zero word: a capture, and nothing else (R75). -/
theorem Device.onCtrl1_trig {p : Params} (h : p.Ctrl1Wf) {oracle : Fin 4 → Nat → Word} {d : Device} (hd : d.prev1 = zeroWord) :
    d.onCtrl1 p (trigWord p) oracle = { d.capture p oracle with ctrl1 := trigWord p, prev1 := trigWord p } := by
  have ht : d.triggered p (trigWord p) = true := by
    rw [Device.triggered, rises, hd, trigWord_snap h, zeroWord_bit]
    rfl
  have hc : (d.onCtrl1 p (trigWord p) oracle).chips = d.chips := chips_ext fun c => by
    rw [Device.onCtrl1_chip]
    unfold Chip.slipAndLoad
    simp only [rises, trigWord_slip h, trigWord_strobe h, Bool.and_false]
    simp
  unfold Device.onCtrl1 at hc ⊢
  rw [ht] at hc ⊢
  simp only [if_true] at hc ⊢
  rw [hc]
  rfl

/-- The chips after the bit-slip word that follows a zero word (R76). -/
def slipChips (set : BitVec 4) (chips : Vector Chip 4) : Vector Chip 4 :=
  Vector.ofFn fun c => { chips[c] with slip := if set.getLsbD c.val then chips[c].slip + 1 else chips[c].slip }

theorem slipChips_chip (set : BitVec 4) (chips : Vector Chip 4) (c : Fin 4) :
    (slipChips set chips)[c] =
      { chips[c] with slip := if set.getLsbD c.val then chips[c].slip + 1 else chips[c].slip } := by
  simp [slipChips]

theorem slipChips_rest (set : BitVec 4) (chips : Vector Chip 4) (c : Fin 4) :
    (slipChips set chips)[c].adcreg = chips[c].adcreg ∧ (slipChips set chips)[c].tap = chips[c].tap ∧
    (slipChips set chips)[c].rxsr = chips[c].rxsr ∧ (slipChips set chips)[c].rxcnt = chips[c].rxcnt := by
  simp [slipChips]

theorem Device.onCtrl1_slip {p : Params} (h : p.Ctrl1Wf) (set : BitVec 4) {oracle : Fin 4 → Nat → Word} {d : Device}
    (hd : d.prev1 = zeroWord) :
    d.onCtrl1 p (slipWord p set) oracle =
      { d with chips := slipChips set d.chips, ctrl1 := slipWord p set, prev1 := slipWord p set } := by
  have ht : d.triggered p (slipWord p set) = false := by
    rw [Device.triggered, rises, slipWord_snap h, Bool.and_false]
  have hc : (d.onCtrl1 p (slipWord p set) oracle).chips = slipChips set d.chips := chips_ext fun c => by
    rw [Device.onCtrl1_chip, slipChips_chip]
    unfold Chip.slipAndLoad
    simp only [rises, hd, zeroWord_bit, slipWord_slip h, slipWord_strobe h, Bool.and_false, Bool.not_false, Bool.true_and]
    simp
  unfold Device.onCtrl1 at hc ⊢
  rw [ht] at hc ⊢
  simp only [Bool.false_eq_true, if_false] at hc ⊢
  rw [hc]

/-- The chips after the strobe word that follows a tap word (R77, R184). -/
def tapChips (c : Fin 4) (t : BitVec 5) (lanes : BitVec 4) (chips : Vector Chip 4) : Vector Chip 4 :=
  Vector.ofFn fun c' =>
    { chips[c'] with
      tap := Vector.ofFn fun lane => if decide (c' = c) && lanes.getLsbD lane.val then t else chips[c'].tap[lane] }

theorem tapChips_tap (c : Fin 4) (t : BitVec 5) (lanes : BitVec 4) (chips : Vector Chip 4) (c' lane : Fin 4) :
    (tapChips c t lanes chips)[c'].tap[lane] =
      if c' = c ∧ lanes.getLsbD lane.val = true then t else chips[c'].tap[lane] := by
  simp [tapChips]

theorem tapChips_rest (c : Fin 4) (t : BitVec 5) (lanes : BitVec 4) (chips : Vector Chip 4) (c' : Fin 4) :
    (tapChips c t lanes chips)[c'].adcreg = chips[c'].adcreg ∧ (tapChips c t lanes chips)[c'].slip = chips[c'].slip ∧
    (tapChips c t lanes chips)[c'].rxsr = chips[c'].rxsr ∧ (tapChips c t lanes chips)[c'].rxcnt = chips[c'].rxcnt := by
  simp [tapChips]

theorem Device.onCtrl1_tapReset {p : Params} (h : p.Ctrl1Wf) (c : Fin 4) (t : BitVec 5) (lanes : BitVec 4)
    {oracle : Fin 4 → Nat → Word} {d : Device} (hd : d.prev1 = tapWord p t) :
    d.onCtrl1 p (tapResetWord p t c lanes) oracle =
      { d with
        chips := tapChips c t lanes d.chips
        ctrl1 := tapResetWord p t c lanes
        prev1 := tapResetWord p t c lanes } := by
  have ht : d.triggered p (tapResetWord p t c lanes) = false := by
    rw [Device.triggered, rises, tapResetWord_snap h, Bool.and_false]
  have hc : (d.onCtrl1 p (tapResetWord p t c lanes) oracle).chips = tapChips c t lanes d.chips := chips_ext fun c' => by
    rw [Device.onCtrl1_chip]
    unfold Chip.slipAndLoad tapChips
    simp only [rises, hd, tapWord_strobe h, tapResetWord_strobe h, tapResetWord_slip h, tapField_tapResetWord h,
      Bool.and_false, Bool.not_false, Bool.true_and]
    simp
  unfold Device.onCtrl1 at hc ⊢
  rw [ht] at hc ⊢
  simp only [Bool.false_eq_true, if_false] at hc ⊢
  rw [hc]

/-! ### Three writes -/

/-- The state after three writes to CTRL1 that leave the device as `d` and the pending captures as `caps`. -/
def State.pulsed (w0 w1 w2 : Word) (d : Device) (caps : List Capture) (s : State) : State :=
  { s with
    work := { s.work with substep := s.work.substep + 3 }
    dev := d
    env := { s.env with answers := s.env.answers.drop 3, draws := s.env.draws + 3, captures := caps }
    port := ctrl1Op s.params w2 :: ctrl1Op s.params w1 :: ctrl1Op s.params w0 :: s.port }

section
variable (w0 w1 w2 : Word) (d : Device) (caps : List Capture) (s : State)

@[simp] theorem State.pulsed_params : (s.pulsed w0 w1 w2 d caps).params = s.params := rfl
@[simp] theorem State.pulsed_prog : (s.pulsed w0 w1 w2 d caps).prog = s.prog := rfl
@[simp] theorem State.pulsed_cp : (s.pulsed w0 w1 w2 d caps).cp = s.cp := rfl
@[simp] theorem State.pulsed_csmask : (s.pulsed w0 w1 w2 d caps).csmask = s.csmask := rfl
@[simp] theorem State.pulsed_faults : (s.pulsed w0 w1 w2 d caps).faults = s.faults := rfl
@[simp] theorem State.pulsed_res : (s.pulsed w0 w1 w2 d caps).res = s.res := rfl
@[simp] theorem State.pulsed_work : (s.pulsed w0 w1 w2 d caps).work = { s.work with substep := s.work.substep + 3 } := rfl
@[simp] theorem State.pulsed_dev : (s.pulsed w0 w1 w2 d caps).dev = d := rfl
@[simp] theorem State.pulsed_env : (s.pulsed w0 w1 w2 d caps).env =
    { s.env with answers := s.env.answers.drop 3, draws := s.env.draws + 3, captures := caps } := rfl
@[simp] theorem State.pulsed_port : (s.pulsed w0 w1 w2 d caps).port =
    ctrl1Op s.params w2 :: ctrl1Op s.params w1 :: ctrl1Op s.params w0 :: s.port := rfl

end

/-- One write to CTRL1 that completed, in full. -/
theorem writeCtrl1_eq_go {w : Word} {s t : State} (h : writeCtrl1 w s = .go t) :
    t = { s with
      work := { s.work with substep := s.work.substep + 1 }
      dev := s.dev.onCtrl1 s.params w s.oracleWord
      env := { s.env with
        answers := s.env.answers.tail
        draws := s.env.draws + 1
        captures := if s.dev.triggered s.params w then s.env.captures.tail else s.env.captures }
      port := ctrl1Op s.params w :: s.port } := by
  rw [issue_eq_go h]
  cases ht : s.dev.triggered s.params w <;>
  simp [State.completed, State.takeAnswer, State.logOp, State.ctrl1Lands, State.takeCapture, State.setSubstep, State.setWork,
    State.setDev, State.setEnv, ctrl1Op, State.oracleWord, ht]

theorem tail_tail_tail {α : Type} (l : List α) : l.tail.tail.tail = l.drop 3 := by
  rcases l with _ | ⟨a, _ | ⟨b, _ | ⟨c, l⟩⟩⟩ <;> rfl

theorem pulseCtrl1_eq_go {w0 w1 w2 : Word} {s t : State} (h : pulseCtrl1 w0 w1 w2 s = .go t) :
    ∃ m0 m1, writeCtrl1 w0 s = .go m0 ∧ writeCtrl1 w1 m0 = .go m1 ∧ writeCtrl1 w2 m1 = .go t := by
  obtain ⟨m0, h0, h⟩ := Flow.andThen_eq_go.mp h
  obtain ⟨m1, h1, h2⟩ := Flow.andThen_eq_go.mp h
  exact ⟨m0, m1, h0, h1, h2⟩

/-- The device a trigger's capture sees: CTRL1 holds the leading zero word. -/
def Device.zeroed (d : Device) : Device := { d with ctrl1 := zeroWord, prev1 := zeroWord }

/-- The content of the capture that a trigger started in `s` takes (R79). -/
def State.nextCapture (s : State) : Fin 4 → Nat → Word :=
  match s.env.captures with
  | k :: _ => k.word
  | [] => Config.captureWord s.dev.zeroed

/-- A completed trigger pulse, in full (R163, R75). -/
theorem trigger_eq_go {s t : State} (hw : s.params.Ctrl1Wf) (h : trigger s = .go t) :
    t = s.pulsed zeroWord (trigWord s.params) zeroWord (s.dev.zeroed.capture s.params s.nextCapture) s.env.captures.tail := by
  obtain ⟨m0, m1, h0, h1, h2⟩ := pulseCtrl1_eq_go h
  have q0 := Device.onCtrl1_quiet (oracle := s.oracleWord) (quiet_zero s.params s.dev.prev1)
  have t0 : s.dev.triggered s.params zeroWord = false := (quiet_zero s.params s.dev.prev1).1
  have e0 := writeCtrl1_eq_go h0
  rw [q0, t0] at e0
  have d0 : m0.dev = s.dev.zeroed := by rw [e0]; rfl
  have p0 : m0.params = s.params := by rw [e0]
  have o0 : m0.oracleWord = s.nextCapture := by
    rw [e0]
    rfl
  have t1 : m0.dev.triggered m0.params (trigWord m0.params) = true := by
    rw [Device.triggered, rises, d0, trigWord_snap (by rw [p0]; exact hw)]
    simp [Device.zeroed]
  have e1 := writeCtrl1_eq_go h1
  rw [← p0, Device.onCtrl1_trig (by rw [p0]; exact hw) (by rw [d0]; rfl), t1] at e1
  have p1 : m1.params = s.params := by rw [e1]; exact p0
  have e2 := writeCtrl1_eq_go h2
  rw [Device.onCtrl1_quiet (quiet_zero _ _), show m1.dev.triggered m1.params zeroWord = false from (quiet_zero _ _).1] at e2
  rw [e2, e1, d0, o0, e0]
  simp [State.pulsed, tail_tail_tail, Device.zeroed, Device.capture]

/-- A completed delay write, in full (R182, R184). -/
theorem delayWrite_eq_go {c : Fin 4} {tp : BitVec 5} {lanes : BitVec 4} {s t : State} (hw : s.params.Ctrl1Wf)
    (h : delayWrite c tp lanes s = .go t) :
    t = s.pulsed (tapWord s.params tp) (tapResetWord s.params tp c lanes) zeroWord
      { s.dev.zeroed with chips := tapChips c tp lanes s.dev.chips } s.env.captures := by
  obtain ⟨m0, m1, h0, h1, h2⟩ := pulseCtrl1_eq_go h
  have q0 := quiet_tapWord hw s.dev.prev1 tp
  have e0 := writeCtrl1_eq_go h0
  rw [Device.onCtrl1_quiet q0, show s.dev.triggered s.params _ = false from q0.1] at e0
  have p0 : m0.params = s.params := by rw [e0]
  have d0 : m0.dev.prev1 = tapWord m0.params tp := by rw [e0]
  have e1 := writeCtrl1_eq_go h1
  rw [← p0, Device.onCtrl1_tapReset (by rw [p0]; exact hw) c tp lanes d0,
    show m0.dev.triggered m0.params (tapResetWord m0.params tp c lanes) = false by
      rw [Device.triggered, rises, tapResetWord_snap (by rw [p0]; exact hw), Bool.and_false]] at e1
  have e2 := writeCtrl1_eq_go h2
  rw [Device.onCtrl1_quiet (quiet_zero _ _), show m1.dev.triggered m1.params zeroWord = false from (quiet_zero _ _).1] at e2
  rw [e2, e1, e0]
  simp [State.pulsed, tail_tail_tail, Device.zeroed]

/-- A completed bit-slip pulse, in full (R211, R76). -/
theorem slipPulse_eq_go {set : BitVec 4} {s t : State} (hw : s.params.Ctrl1Wf) (h : slipPulse set s = .go t) :
    t = s.pulsed zeroWord (slipWord s.params set) zeroWord
      { s.dev.zeroed with chips := slipChips set s.dev.chips } s.env.captures := by
  obtain ⟨m0, m1, h0, h1, h2⟩ := pulseCtrl1_eq_go h
  have q0 := quiet_zero s.params s.dev.prev1
  have e0 := writeCtrl1_eq_go h0
  rw [Device.onCtrl1_quiet q0, show s.dev.triggered s.params _ = false from q0.1] at e0
  have p0 : m0.params = s.params := by rw [e0]
  have d0 : m0.dev.prev1 = zeroWord := by rw [e0]
  have e1 := writeCtrl1_eq_go h1
  rw [← p0, Device.onCtrl1_slip (by rw [p0]; exact hw) set d0,
    show m0.dev.triggered m0.params (slipWord m0.params set) = false by
      rw [Device.triggered, rises, slipWord_snap (by rw [p0]; exact hw), Bool.and_false]] at e1
  have e2 := writeCtrl1_eq_go h2
  rw [Device.onCtrl1_quiet (quiet_zero _ _), show m1.dev.triggered m1.params zeroWord = false from (quiet_zero _ _).1] at e2
  rw [e2, e1, e0]
  simp [State.pulsed, tail_tail_tail, Device.zeroed]

/-! ### Bounds -/

theorem legalCtrl1_zero (p : Params) : LegalCtrl1 p zeroWord := .inl rfl
theorem legalCtrl1_trig (p : Params) : LegalCtrl1 p (trigWord p) := .inr (.inl rfl)
theorem legalCtrl1_slip (p : Params) (m : BitVec 4) : LegalCtrl1 p (slipWord p m) := .inr (.inr (.inl ⟨m, rfl⟩))
theorem legalCtrl1_tap (p : Params) (t : BitVec 5) : LegalCtrl1 p (tapWord p t) := .inr (.inr (.inr (.inl ⟨t, rfl⟩)))
theorem legalCtrl1_tapReset (p : Params) (t : BitVec 5) (c : Fin 4) (m : BitVec 4) : LegalCtrl1 p (tapResetWord p t c m) :=
  .inr (.inr (.inr (.inr ⟨t, c, m, rfl⟩)))

theorem trigger_within : Within 3 3 trigger := fun _ =>
  WithinAt.pulseCtrl1 (legalCtrl1_zero _) (legalCtrl1_trig _) (legalCtrl1_zero _)

theorem delayWrite_within (c : Fin 4) (t : BitVec 5) (lanes : BitVec 4) : Within 3 3 (delayWrite c t lanes) := fun _ =>
  WithinAt.pulseCtrl1 (legalCtrl1_tap _ _) (legalCtrl1_tapReset _ _ _ _) (legalCtrl1_zero _)

theorem slipPulse_within (set : BitVec 4) : Within 3 3 (slipPulse set) := fun _ =>
  WithinAt.pulseCtrl1 (legalCtrl1_zero _) (legalCtrl1_slip _ _) (legalCtrl1_zero _)

end Sys2Proof.Machine
end

