-- ==== Sys2Proof/Laws/Snapshot.lean ====
section
/-! SUPPORT. What a completed capture does (R162 to R166): the state after it, in full, and the samples it gives. -/

namespace Sys2Proof.Machine

/-! ### The byte stream of one chip -/

/-- The bytes of the first `n` words of chip `c`'s part of CAPBUF (R64, R164). -/
def Device.stream (p : Params) (c : Fin 4) (n : Nat) (d : Device) : List Byte :=
  p.byteOrder.toBytes (d.readBlock p (c.val * stride) n)

/-- In a canonical memory the stream is the bytes of CAPBUF one by one, in either byte order (log 19). -/
theorem Device.stream_eq {p : Params} {c : Fin 4} {n : Nat} {d : Device} (h : d.capbuf.wf = true) :
    d.stream p c n = (List.range (4 * n)).map fun i => d.capbuf.read (4 * (c.val * stride) + i) := by
  unfold Device.stream Device.readBlock
  rw [ByteOrder.toBytes_toWords _ n _ (Memory.readBelow_length _ _ _), Memory.readBelow_eq h (by omega)]
  refine List.map_congr_left fun i _ => ?_
  congr 1
  omega

/-- The byte of a capture at place `i` of chip `c`'s part (R42, R64). -/
theorem captureByte_chip (o : ByteOrder) (oracle : Fin 4 → Nat → Word) (c : Fin 4) (i : Nat) (hi : i < 4 * stride) :
    captureByte o oracle (4 * (c.val * stride) + i) = o.byteOf (oracle c (i / 4)) (i % 4) := by
  have hc := c.isLt
  unfold captureByte chipOfByte stride at *
  have h1 : Fin.ofNat 4 ((4 * (c.val * 1024) + i) / (4 * 1024)) = c := by
    apply Fin.ext
    show (4 * (c.val * 1024) + i) / (4 * 1024) % 4 = c.val
    omega
  have h2 : (4 * (c.val * 1024) + i) / 4 % 1024 = i / 4 := by omega
  have h3 : (4 * (c.val * 1024) + i) % 4 = i % 4 := by omega
  rw [h1, h2, h3]

/-- After a capture CAPBUF holds its bytes. -/
theorem Device.capture_read (p : Params) (oracle : Fin 4 → Nat → Word) (d : Device) (c : Fin 4) (i : Nat) (hi : i < 4 * stride) :
    (d.capture p oracle).capbuf.read (4 * (c.val * stride) + i) = p.byteOrder.byteOf (oracle c (i / 4)) (i % 4) := by
  have hc := c.isLt
  rw [← captureByte_chip _ _ _ _ hi]
  refine captureMemory_read _ _ _ ?_
  unfold capbufBytes stride at *
  omega

/-- The stream of a chip right after a capture. -/
theorem Device.stream_capture (p : Params) (oracle : Fin 4 → Nat → Word) (d : Device) (c : Fin 4) (n : Nat) (hn : n ≤ stride) :
    (d.capture p oracle).stream p c n =
      (List.range (4 * n)).map fun i => p.byteOrder.byteOf (oracle c (i / 4)) (i % 4) := by
  rw [Device.stream_eq (captureMemory_wf _ _)]
  refine List.map_congr_left fun i hi => ?_
  rw [List.mem_range] at hi
  exact Device.capture_read p oracle d c i (by omega)

/-! ### Reading back -/

/-- The block read of chip `c` as an operation of the port. -/
def readOp (p : Params) (n : Nat) (c : Fin 4) : TOp := .readBlock p.regionCap (c.val * stride) n

/-- SAMPLES after chip `c` has been read. -/
def putChip (p : Params) (d : Device) (n : Nat) (c : Fin 4) (old : Vector (Vector (Vector Sample 1024) 4) 4) :
    Vector (Vector (Vector Sample 1024) 4) 4 :=
  old.set c (Vector.ofFn fun lane => reshapeLane (d.stream p c n) n lane.val old[c][lane])

/-- SAMPLES after the chips `cs` have been read. -/
def readSamples (p : Params) (d : Device) (n : Nat) (cs : List (Fin 4)) (old : Vector (Vector (Vector Sample 1024) 4) 4) :
    Vector (Vector (Vector Sample 1024) 4) 4 :=
  cs.foldl (fun sm c => putChip p d n c sm) old

/-- RAW after the chips `cs` have been read. -/
def lastRaw (p : Params) (d : Device) (n : Nat) (cs : List (Fin 4)) (old : List Byte) : List Byte :=
  cs.foldl (fun _ c => d.stream p c n) old

/-- The state after the chips `cs` have been read. -/
def State.readAll (cs : List (Fin 4)) (n : Nat) (s : State) : State :=
  { s with
    work := { s.work with raw := lastRaw s.params s.dev n cs s.work.raw, substep := s.work.substep + cs.length }
    res := { s.res with samples := readSamples s.params s.dev n cs s.res.samples }
    env := { s.env with answers := s.env.answers.drop cs.length, draws := s.env.draws + cs.length }
    port := (cs.map (readOp s.params n)).reverse ++ s.port }

theorem readChip_eq_go {n : Nat} {c : Fin 4} {s t : State} (h : readChip n c s = .go t) : t = s.readAll [c] n := by
  obtain ⟨m, h1, h2⟩ := Flow.andThen_eq_go.mp h
  cases h2
  rw [issue_eq_go h1]
  simp only [State.readAll, State.completed, State.storeChip, State.takeAnswer, State.logOp, State.setSubstep, State.setWork,
    State.setEnv, State.setRes, id, readSamples, lastRaw, Device.stream, putChip, readOp, List.foldl, List.map, List.reverse_singleton,
    List.singleton_append, List.length_singleton, List.drop_one]

theorem readChips_eq_go {n : Nat} {cs : List (Fin 4)} {s t : State} (h : Flow.each (readChip n) cs s = .go t) :
    t = s.readAll cs n := by
  induction cs generalizing s with
  | nil => cases h; rfl
  | cons c cs ih =>
    obtain ⟨m, h1, h2⟩ := Flow.andThen_eq_go.mp h
    rw [ih h2, readChip_eq_go h1]
    simp [State.readAll, readSamples, lastRaw, Nat.add_assoc, Nat.add_comm 1]

/-- A chip that was not read keeps its samples. -/
theorem readSamples_other {p : Params} {d : Device} {n : Nat} {cs : List (Fin 4)}
    (old : Vector (Vector (Vector Sample 1024) 4) 4) {c : Fin 4} (h : c ∉ cs) :
    (readSamples p d n cs old)[c] = old[c] := by
  induction cs generalizing old with
  | nil => rfl
  | cons x cs ih =>
    rw [List.mem_cons, not_or] at h
    have hx : ¬ x.val = c.val := fun e => h.1 (Fin.ext e.symm)
    refine Eq.trans (ih (putChip p d n x old) h.2) ?_
    show (old.set x.val _ _)[c.val] = old[c.val]
    rw [Vector.getElem_set, if_neg hx]

theorem reshapeLane_get (raw : List Byte) (n lane : Nat) (old : Vector Sample 1024) (k : Fin 1024) (hk : k.val < n) :
    (reshapeLane raw n lane old)[k] = conv (raw.getD (lane * n + k.val) 0) := by
  simp [reshapeLane, hk]

/-- A chip that was read has its bytes, converted, row by row (R165). -/
theorem readSamples_read {p : Params} {d : Device} {n : Nat} {cs : List (Fin 4)}
    (old : Vector (Vector (Vector Sample 1024) 4) 4) {c : Fin 4} (h : c ∈ cs) (lane : Fin 4) (k : Fin 1024) (hk : k.val < n) :
    (readSamples p d n cs old)[c][lane][k] = conv ((d.stream p c n).getD (lane.val * n + k.val) 0) := by
  induction cs generalizing old with
  | nil => simp at h
  | cons x cs ih =>
    by_cases hc : c ∈ cs
    · exact ih _ hc
    · obtain rfl : c = x := by simpa [hc] using h
      have e : (readSamples p d n (c :: cs) old)[c] = (putChip p d n c old)[c] := readSamples_other (putChip p d n c old) hc
      rw [e]
      show (old.set c.val _ _)[c.val][lane.val][k.val] = _
      rw [Vector.getElem_set_self, Vector.getElem_ofFn]
      exact reshapeLane_get _ _ _ _ k hk

/-! ### The whole capture -/

/-- The device after a capture started in `s`. -/
def State.capturedDev (s : State) : Device := s.dev.zeroed.capture s.params s.nextCapture

/-- The state after `Snap(S, n)`. -/
def State.snapped (set : BitVec 4) (n : Nat) (s : State) : State :=
  ((s.pulsed zeroWord (trigWord s.params) zeroWord s.capturedDev s.env.captures.tail).readAll (chipsIn set) n).endSnap set n

/-- A completed capture, in full (R162). -/
theorem snapshot_eq_go {set : BitVec 4} {n : Nat} {s t : State} (hw : s.params.Ctrl1Wf) (h : snapshot set n s = .go t) :
    t = s.snapped set n := by
  obtain ⟨m, h, h3⟩ := Flow.andThen_eq_go.mp h
  obtain ⟨m', h1, h2⟩ := Flow.andThen_eq_go.mp h
  cases h3
  rw [readChips_eq_go h2, trigger_eq_go hw h1]
  rfl

theorem mem_chipsIn {set : BitVec 4} {c : Fin 4} : c ∈ chipsIn set ↔ set.getLsbD c.val = true := by
  simp [chipsIn]

section
variable (set : BitVec 4) (n : Nat) (s : State)

@[simp] theorem State.snapped_params : (s.snapped set n).params = s.params := rfl
@[simp] theorem State.snapped_prog : (s.snapped set n).prog = s.prog := rfl
@[simp] theorem State.snapped_cp : (s.snapped set n).cp = s.cp := rfl
@[simp] theorem State.snapped_csmask : (s.snapped set n).csmask = s.csmask := rfl
@[simp] theorem State.snapped_faults : (s.snapped set n).faults = s.faults := rfl
@[simp] theorem State.snapped_dev : (s.snapped set n).dev = s.capturedDev := rfl
@[simp] theorem State.snapped_captures : (s.snapped set n).env.captures = s.env.captures.tail := rfl
@[simp] theorem State.snapped_resetLine : (s.snapped set n).env.resetLine = s.env.resetLine := rfl
@[simp] theorem State.snapped_sampleLen : (s.snapped set n).res.sampleLen = BitVec.ofNat 11 n := rfl
@[simp] theorem State.snapped_sampleValid : (s.snapped set n).res.sampleValid = set := rfl

theorem State.snapped_work : (s.snapped set n).work =
    { s.work with
      raw := lastRaw s.params s.capturedDev n (chipsIn set) s.work.raw
      substep := s.work.substep + 3 + (chipsIn set).length } := rfl

@[simp] theorem State.snapped_errcnt : (s.snapped set n).res.errcnt = s.res.errcnt := rfl
@[simp] theorem State.snapped_good : (s.snapped set n).res.good = s.res.good := rfl
@[simp] theorem State.snapped_calValid : (s.snapped set n).res.calValid = s.res.calValid := rfl
@[simp] theorem State.snapped_calChip : (s.snapped set n).res.calChip = s.res.calChip := rfl
@[simp] theorem State.snapped_syncok : (s.snapped set n).res.syncok = s.res.syncok := rfl
@[simp] theorem State.snapped_syncValid : (s.snapped set n).res.syncValid = s.res.syncValid := rfl
@[simp] theorem State.snapped_phase : (s.snapped set n).work.phase = s.work.phase := rfl
@[simp] theorem State.snapped_sr : (s.snapped set n).work.sr = s.work.sr := rfl
@[simp] theorem State.snapped_bitidx : (s.snapped set n).work.bitidx = s.work.bitidx := rfl
@[simp] theorem State.snapped_tapidx : (s.snapped set n).work.tapidx = s.work.tapidx := rfl
@[simp] theorem State.snapped_curchip : (s.snapped set n).work.curchip = s.work.curchip := rfl
@[simp] theorem State.snapped_expect : (s.snapped set n).work.expect = s.work.expect := rfl
@[simp] theorem State.snapped_evcnt : (s.snapped set n).work.evcnt = s.work.evcnt := rfl
@[simp] theorem State.snapped_odcnt : (s.snapped set n).work.odcnt = s.work.odcnt := rfl
@[simp] theorem State.snapped_attempt : (s.snapped set n).work.attempt = s.work.attempt := rfl

theorem State.snapped_port : (s.snapped set n).port = (snapTrace s.params set n).reverse ++ s.port := by
  show ((chipsIn set).map _).reverse ++ _ :: _ :: _ :: s.port = _
  simp [snapTrace, triggerTrace]
  exact fun _ _ => rfl

/-- The samples of a capture (R165). -/
theorem State.snapped_samples {set : BitVec 4} {n : Nat} {s : State} {c : Fin 4} (hc : set.getLsbD c.val = true) (lane : Fin 4)
    (k : Fin 1024) (hk : k.val < n) :
    (s.snapped set n).res.samples[c][lane][k] = conv ((s.capturedDev.stream s.params c n).getD (lane.val * n + k.val) 0) := by
  have h := readSamples_read (p := s.params) (d := s.capturedDev) s.res.samples (mem_chipsIn.mpr hc) lane k hk
  have e : (s.snapped set n).res.samples[c][lane][k] = (readSamples s.params s.capturedDev n (chipsIn set) s.res.samples)[c][lane][k] := by
    show (forgetSamples _ set n _)[c][lane][k] = _
    simp [forgetSamples, hc, hk]
    rfl
  rw [e, h]

/-- The same on the bytes of CAPBUF after the capture. -/
theorem State.snapped_samples_capbuf {set : BitVec 4} {n : Nat} {s : State} {c : Fin 4} (hc : set.getLsbD c.val = true)
    (lane : Fin 4) (k : Fin 1024) (hk : k.val < n) :
    (s.snapped set n).res.samples[c][lane][k] =
      conv ((s.snapped set n).dev.capbuf.read (4 * (c.val * stride) + (lane.val * n + k.val))) := by
  rw [State.snapped_samples hc lane k hk, State.snapped_dev, Device.stream_eq (captureMemory_wf _ _)]
  have hl := lane.isLt
  have : lane.val * n ≤ 3 * n := Nat.mul_le_mul_right _ (by omega)
  rw [List.getD_eq_getElem?_getD, List.getElem?_map, List.getElem?_range (by omega)]
  rfl

end

/-! ### Bounds -/

theorem ran_endSnap (set : BitVec 4) (n : Nat) (s : State) : Ran 0 s (s.endSnap set n) := ran_setRes s _

theorem ran_storeChip (c : Fin 4) (n : Nat) (ws : List Word) (s : State) : Ran 0 s (s.storeChip c n ws) := by
  have h1 : Ran 0 s (s.setWork { s.work with raw := s.params.byteOrder.toBytes ws }) := ran_setWork rfl
  exact h1.trans (ran_setRes _ _)

theorem readChip_within {n : Nat} (h1 : 1 ≤ n) (h2 : n ≤ stride) (c : Fin 4) : Within 1 1 (readChip n c) := fun _ =>
  WithinAt.readCapbuf h1 h2 fun ws s => ran_storeChip c n ws s

/-- A capture is exactly `3 + |S|` operations (R162). -/
theorem snapshot_within (set : BitVec 4) {n : Nat} (h1 : 1 ≤ n) (h2 : n ≤ stride) :
    Within (3 + (chipsIn set).length) (3 + (chipsIn set).length) (snapshot set n) := by
  have hr := Within.each (readChip_within h1 h2) (chipsIn set)
  have h := (trigger_within.andThen hr).andThen (Within.update (ran_endSnap set n))
  simp only [Nat.mul_one, Nat.add_zero] at h
  exact h

end Sys2Proof.Machine
end

