-- ==== Sys2Proof/Laws/DelayTap.lean ====
section
/-! SUPPORT. What a completed sweep and selection do (R186 to R196). -/

namespace Sys2Proof.Machine

/-! ### Counting -/

/-- How many bytes of row `r` of chip `c`'s stream differ from `e`, for a capture with words `oracle` (R188, R189). -/
def oracleErrors (o : ByteOrder) (oracle : Fin 4 → Nat → Word) (c : Fin 4) (r : Nat) (e : Sample) : Nat :=
  (List.range 128).countP fun col =>
    decide (conv (o.byteOf (oracle c ((128 * r + col) / 4)) ((128 * r + col) % 4)) ≠ e)

theorem oracleErrors_capture (k : Capture) (o : ByteOrder) (c : Fin 4) (r : Nat) (e : Sample) :
    oracleErrors o k.word c r e = k.rowErrors o c r e := rfl

theorem oracleErrors_le (o : ByteOrder) (oracle : Fin 4 → Nat → Word) (c : Fin 4) (r : Nat) (e : Sample) :
    oracleErrors o oracle c r e ≤ 128 := by
  have := List.countP_le_length (l := List.range 128)
    (p := fun col => decide (conv (o.byteOf (oracle c ((128 * r + col) / 4)) ((128 * r + col) % 4)) ≠ e))
  simpa [oracleErrors] using this

/-- No row of 128 columns has more than 128 mismatches (R189). -/
theorem mismatches_le (raw : List Byte) (r : Nat) (e : Sample) : mismatches raw r e ≤ 128 := by
  refine Nat.le_trans List.countP_le_length ?_
  unfold row8
  simp

/-- A row of a stream given place by place. -/
theorem row8_map (f : Nat → Byte) (r : Nat) (hr : r < 8) :
    row8 ((List.range 1024).map f) r = (List.range 128).map fun col => f (128 * r + col) := by
  apply List.ext_getElem?
  intro j
  unfold row8
  by_cases hj : j < 128
  · rw [List.getElem?_take_of_lt hj, List.getElem?_drop, List.getElem?_map, List.getElem?_map, List.getElem?_range (by omega),
      List.getElem?_range hj]
    rfl
  · rw [List.getElem?_eq_none (by simp; omega), List.getElem?_eq_none (by simp; omega)]

/-- The mismatches of a row, counted on the capture. -/
theorem mismatches_stream (p : Params) (oracle : Fin 4 → Nat → Word) (d : Device) (c : Fin 4) (r : Nat) (hr : r < 8) (e : Sample) :
    mismatches ((d.capture p oracle).stream p c 256) r e = oracleErrors p.byteOrder oracle c r e := by
  rw [Device.stream_capture p oracle d c 256 (by unfold stride; omega)]
  unfold mismatches
  rw [show 4 * 256 = 1024 from rfl, row8_map _ r hr, List.countP_map]
  rfl

theorem setMapBit_bit (g : BitVec 32) (t : Nat) (b : Bool) (j : Nat) (hj : j < 32) :
    (setMapBit g t b).getLsbD j = if j = t then b else g.getLsbD j := by
  unfold setMapBit
  rw [BitVec.getLsbD_or, BitVec.getLsbD_and, BitVec.getLsbD_not, BitVec.getLsbD_shiftLeft, BitVec.getLsbD_shiftLeft,
    BitVec.getLsbD_setWidth, BitVec.getLsbD_ofBool, BitVec.getLsbD_one]
  by_cases h : j = t
  · subst h; simp [hj]
  · rw [if_neg h]
    by_cases h1 : j < t
    · simp [hj, h1]
    · have : ¬ j - t = 0 := by omega
      simp [hj, h1, this]

/-- What counting writes into ERRCNT (R189). -/
theorem State.countTap_errcnt (s : State) (lane : Fin 4) (j : Fin 32) :
    s.countTap.res.errcnt[lane][j] =
      if s.work.tapidx.toNat = j.val then (evenCount s.work.raw lane s.work.expect, oddCount s.work.raw lane s.work.expect)
      else s.res.errcnt[lane][j] := by
  show (Vector.ofFn fun lane => Vector.set _ _ _ _)[lane.val][j.val] = _
  rw [Vector.getElem_ofFn, Vector.getElem_set]
  by_cases h : s.work.tapidx.toNat = j.val
  · rw [if_pos h, if_pos h]
    simp only [Vector.getElem_ofFn, Fin.getElem_fin]
  · rw [if_neg h, if_neg h]
    rfl

/-- What counting writes into GOOD (R189). -/
theorem State.countTap_good (s : State) (lane : Fin 4) (j : Nat) (hj : j < 32) :
    s.countTap.res.good[lane].getLsbD j =
      if s.work.tapidx.toNat = j then
        goodTap (evenCount s.work.raw lane s.work.expect) (oddCount s.work.raw lane s.work.expect)
      else s.res.good[lane].getLsbD j := by
  show (Vector.ofFn fun lane => setMapBit _ _ _)[lane.val].getLsbD j = _
  rw [Vector.getElem_ofFn, setMapBit_bit _ _ _ _ hj]
  by_cases h : s.work.tapidx.toNat = j
  · rw [if_pos h, if_pos h.symm]
    simp only [Vector.getElem_ofFn, Fin.getElem_fin]
  · rw [if_neg h, if_neg fun e => h e.symm]

/-- A tap is good exactly when it has no mismatch in either row (R190). -/
theorem goodTap_ofNat (a b : Nat) (ha : a ≤ 128) (hb : b ≤ 128) :
    goodTap (BitVec.ofNat 8 a) (BitVec.ofNat 8 b) = (decide (a = 0) && decide (b = 0)) := by
  have z (n : Nat) (hn : n ≤ 128) : decide (BitVec.ofNat 8 n = 0) = decide (n = 0) := by
    apply decide_eq_decide.mpr
    constructor
    · intro h
      have := congrArg BitVec.toNat h
      simp at this
      omega
    · rintro rfl
      rfl
  unfold goodTap
  rw [z a ha, z b hb]

/-! ### One tap of the sweep -/

/-- The state when tap `t` of the sweep has been loaded (R187). -/
def State.atTap (t : BitVec 5) (s : State) : State :=
  (s.setWork { s.work with tapidx := t }).pulsed (tapWord s.params t) (tapResetWord s.params t s.work.curchip 0b1111) zeroWord
    { s.dev.zeroed with chips := tapChips s.work.curchip t 0b1111 s.dev.chips } s.env.captures

/-- The state after one tap of the sweep. -/
def State.swept (t : BitVec 5) (s : State) : State := ((s.atTap t).snapped (oneOf s.work.curchip) 256).countTap

theorem sweepTap_eq_go {t : BitVec 5} {s s' : State} (hw : s.params.Ctrl1Wf) (h : sweepTap t s = .go s') : s' = s.swept t := by
  obtain ⟨m3, h, e4⟩ := Flow.andThen_eq_go.mp h
  obtain ⟨m2, h, e3⟩ := Flow.andThen_eq_go.mp h
  obtain ⟨m1, h, e2⟩ := Flow.andThen_eq_go.mp h
  cases h
  cases e4
  have e2 : m2 = s.atTap t := delayWrite_eq_go (s := s.setWork { s.work with tapidx := t }) hw e2
  subst e2
  have e3 := snapshot_eq_go (s := s.atTap t) hw e3
  rw [e3]
  rfl

/-- The mismatches that one tap of the sweep finds in row `r`. -/
def State.tapErrors (t : BitVec 5) (e : Sample) (r : Nat) (s : State) : Nat :=
  oracleErrors s.params.byteOrder (s.atTap t).nextCapture s.work.curchip r e

section
variable (t : BitVec 5) (s : State)

@[simp] theorem State.atTap_params : (s.atTap t).params = s.params := rfl
@[simp] theorem State.atTap_prog : (s.atTap t).prog = s.prog := rfl
@[simp] theorem State.atTap_cp : (s.atTap t).cp = s.cp := rfl
@[simp] theorem State.atTap_csmask : (s.atTap t).csmask = s.csmask := rfl
@[simp] theorem State.atTap_faults : (s.atTap t).faults = s.faults := rfl
@[simp] theorem State.atTap_res : (s.atTap t).res = s.res := rfl
@[simp] theorem State.atTap_work : (s.atTap t).work = { s.work with tapidx := t, substep := s.work.substep + 3 } := rfl
@[simp] theorem State.atTap_dev : (s.atTap t).dev = { s.dev.zeroed with chips := tapChips s.work.curchip t 0b1111 s.dev.chips } := rfl
@[simp] theorem State.atTap_env : (s.atTap t).env = 
    { s.env with answers := s.env.answers.drop 3, draws := s.env.draws + 3 } := rfl

@[simp] theorem State.swept_params : (s.swept t).params = s.params := by simp [State.swept]
@[simp] theorem State.swept_prog : (s.swept t).prog = s.prog := by simp [State.swept]
@[simp] theorem State.swept_cp : (s.swept t).cp = s.cp := by simp [State.swept]
@[simp] theorem State.swept_csmask : (s.swept t).csmask = s.csmask := by simp [State.swept]
@[simp] theorem State.swept_faults : (s.swept t).faults = s.faults := by simp [State.swept]
@[simp] theorem State.swept_resetLine : (s.swept t).env.resetLine = s.env.resetLine := by simp [State.swept]
@[simp] theorem State.swept_captures : (s.swept t).env.captures = s.env.captures.tail := by simp [State.swept]
@[simp] theorem State.swept_dev : (s.swept t).dev = (s.atTap t).capturedDev := by simp [State.swept]
@[simp] theorem State.swept_curchip : (s.swept t).work.curchip = s.work.curchip := by simp [State.swept]
@[simp] theorem State.swept_expect : (s.swept t).work.expect = s.work.expect := by simp [State.swept]
@[simp] theorem State.swept_sampleLen : (s.swept t).res.sampleLen = 256 := by simp [State.swept]
@[simp] theorem State.swept_sampleValid : (s.swept t).res.sampleValid = oneOf s.work.curchip := by simp [State.swept]
@[simp] theorem State.swept_syncok : (s.swept t).res.syncok = s.res.syncok := by simp [State.swept]
@[simp] theorem State.swept_syncValid : (s.swept t).res.syncValid = s.res.syncValid := by simp [State.swept]
@[simp] theorem State.swept_calValid : (s.swept t).res.calValid = s.res.calValid := by simp [State.swept]
@[simp] theorem State.swept_calChip : (s.swept t).res.calChip = s.res.calChip := by simp [State.swept]

@[simp] theorem State.capturedDev_chips : s.capturedDev.chips = s.dev.chips := rfl
@[simp] theorem State.capturedDev_ctrl0 : s.capturedDev.ctrl0 = s.dev.ctrl0 := rfl
@[simp] theorem State.capturedDev_prev0 : s.capturedDev.prev0 = s.dev.prev0 := rfl
@[simp] theorem State.capturedDev_ctrl1 : s.capturedDev.ctrl1 = zeroWord := rfl
@[simp] theorem State.capturedDev_prev1 : s.capturedDev.prev1 = zeroWord := rfl
@[simp] theorem State.capturedDev_captures : s.capturedDev.captures = s.dev.captures + 1 := rfl

theorem oneOf_bit (i j : Fin 4) : (oneOf i).getLsbD j.val = decide (j = i) := by
  revert i j
  decide

theorem chipsIn_oneOf (c : Fin 4) : chipsIn (oneOf c) = [c] := by
  revert c
  decide

theorem State.swept_raw :
    ((s.atTap t).snapped (oneOf s.work.curchip) 256).work.raw = (s.atTap t).capturedDev.stream s.params s.work.curchip 256 := by
  rw [State.snapped_work, chipsIn_oneOf]
  rfl

theorem State.swept_samples : (s.swept t).res.samples = ((s.atTap t).snapped (oneOf s.work.curchip) 256).res.samples := rfl

/-- The counts of one tap (R189). -/
theorem State.swept_errcnt (lane : Fin 4) (j : Fin 32) :
    (s.swept t).res.errcnt[lane][j] =
      if t.toNat = j.val then
        (BitVec.ofNat 8 (s.tapErrors t s.work.expect lane.val), BitVec.ofNat 8 (s.tapErrors t s.work.expect (lane.val + 4)))
      else s.res.errcnt[lane][j] := by
  have hl := lane.isLt
  have h1 := mismatches_stream s.params (s.atTap t).nextCapture (s.atTap t).dev.zeroed s.work.curchip lane.val (by omega) s.work.expect
  have h2 := mismatches_stream s.params (s.atTap t).nextCapture (s.atTap t).dev.zeroed s.work.curchip (lane.val + 4) (by omega) s.work.expect
  unfold State.swept State.tapErrors
  rw [State.countTap_errcnt, State.swept_raw, ← h1, ← h2]
  rfl

/-- The arbiter's verdict on one tap (R189, R190). -/
theorem State.swept_good (lane : Fin 4) (j : Nat) (hj : j < 32) :
    (s.swept t).res.good[lane].getLsbD j =
      if t.toNat = j then
        decide (s.tapErrors t s.work.expect lane.val = 0) && decide (s.tapErrors t s.work.expect (lane.val + 4) = 0)
      else s.res.good[lane].getLsbD j := by
  have hl := lane.isLt
  have h1 := mismatches_stream s.params (s.atTap t).nextCapture (s.atTap t).dev.zeroed s.work.curchip lane.val (by omega) s.work.expect
  have h2 := mismatches_stream s.params (s.atTap t).nextCapture (s.atTap t).dev.zeroed s.work.curchip (lane.val + 4) (by omega) s.work.expect
  unfold State.swept State.tapErrors
  rw [State.countTap_good _ _ _ hj, State.swept_raw, ← h1, ← h2, ← goodTap_ofNat _ _ (mismatches_le _ _ _) (mismatches_le _ _ _)]
  rfl

end

theorem sweepTaps_eq_go {ts : List (BitVec 5)} {s s' : State} (hw : s.params.Ctrl1Wf) (h : Flow.each sweepTap ts s = .go s') :
    s' = ts.foldl (fun s t => s.swept t) s := by
  induction ts generalizing s with
  | nil => cases h; rfl
  | cons t ts ih =>
    obtain ⟨m, h1, h2⟩ := Flow.andThen_eq_go.mp h
    have e := sweepTap_eq_go hw h1
    rw [ih (by rw [e, State.swept_params]; exact hw) h2, e, List.foldl_cons]

/-! ### The whole sweep -/

/-- The state after the first `n` taps. -/
def State.sweptTo (n : Nat) (s : State) : State := (allTaps.take n).foldl (fun s t => s.swept t) s

theorem allTaps_take_succ (n : Nat) (hn : n < 32) : allTaps.take (n + 1) = allTaps.take n ++ [BitVec.ofNat 5 n] := by
  have h : allTaps[n]? = some (BitVec.ofNat 5 n) := by
    unfold allTaps
    rw [List.getElem?_map, List.getElem?_range hn]
    rfl
  rw [List.take_add_one, h]
  rfl

theorem State.sweptTo_zero (s : State) : s.sweptTo 0 = s := rfl

theorem State.sweptTo_succ (s : State) (n : Nat) (hn : n < 32) : s.sweptTo (n + 1) = (s.sweptTo n).swept (BitVec.ofNat 5 n) := by
  unfold State.sweptTo
  rw [allTaps_take_succ n hn, List.foldl_append]
  rfl

theorem sweep_eq_go {s t : State} (hw : s.params.Ctrl1Wf) (h : sweep s = .go t) : t = s.sweptTo 32 := by
  rw [sweepTaps_eq_go hw h]
  rfl

/-- The registers a sweep carries along. -/
theorem State.sweptTo_keeps (s : State) (n : Nat) (hn : n ≤ 32) :
    (s.sweptTo n).params = s.params ∧ (s.sweptTo n).work.curchip = s.work.curchip ∧
    (s.sweptTo n).work.expect = s.work.expect ∧ (s.sweptTo n).env.captures = s.env.captures.drop n ∧
    (s.sweptTo n).res.syncok = s.res.syncok ∧ (s.sweptTo n).res.syncValid = s.res.syncValid ∧
    (s.sweptTo n).res.calValid = s.res.calValid ∧ (s.sweptTo n).res.calChip = s.res.calChip ∧
    (s.sweptTo n).dev.ctrl0 = s.dev.ctrl0 ∧ (s.sweptTo n).dev.prev0 = s.dev.prev0 ∧
    (s.sweptTo n).dev.captures = s.dev.captures + n := by
  induction n with
  | zero => simp [State.sweptTo_zero]
  | succ n ih =>
    obtain ⟨h1, h2, h3, h4, h5, h6, h7, h8, h9, h10, h11⟩ := ih (by omega)
    rw [State.sweptTo_succ s n (by omega)]
    simp [h1, h2, h3, h4, h5, h6, h7, h8, h9, h10, h11, Device.zeroed, Nat.add_assoc]

/-- The mismatches that the sweep finds at tap `j` in row `r`: one chip's stream in the capture taken there. -/
def State.sweepErrors (s : State) (j r : Nat) : Nat := (s.sweptTo j).tapErrors (BitVec.ofNat 5 j) s.work.expect r

theorem toNat_tap (n : Nat) (hn : n < 32) : (BitVec.ofNat 5 n).toNat = n := by
  simp
  omega

/-- ERRCNT after the first `n` taps (R189). -/
theorem State.sweptTo_errcnt (s : State) (n : Nat) (hn : n ≤ 32) (lane : Fin 4) (j : Fin 32) :
    (s.sweptTo n).res.errcnt[lane][j] =
      if j.val < n then (BitVec.ofNat 8 (s.sweepErrors j lane.val), BitVec.ofNat 8 (s.sweepErrors j (lane.val + 4)))
      else s.res.errcnt[lane][j] := by
  induction n with
  | zero => simp [State.sweptTo_zero]
  | succ n ih =>
    rw [State.sweptTo_succ s n (by omega), State.swept_errcnt, ih (by omega), toNat_tap n (by omega)]
    by_cases h : n = j.val
    · rw [if_pos h, if_pos (by omega), (s.sweptTo_keeps n (by omega)).2.2.1, State.sweepErrors, State.sweepErrors, ← h]
    · rw [if_neg h]
      by_cases h2 : j.val < n
      · rw [if_pos h2, if_pos (by omega)]
      · rw [if_neg h2, if_neg (by omega)]

/-- GOOD after the first `n` taps (R189, R190). -/
theorem State.sweptTo_good (s : State) (n : Nat) (hn : n ≤ 32) (lane : Fin 4) (j : Nat) (hj : j < 32) :
    (s.sweptTo n).res.good[lane].getLsbD j =
      if j < n then decide (s.sweepErrors j lane.val = 0) && decide (s.sweepErrors j (lane.val + 4) = 0)
      else s.res.good[lane].getLsbD j := by
  induction n with
  | zero => simp [State.sweptTo_zero]
  | succ n ih =>
    rw [State.sweptTo_succ s n (by omega), State.swept_good _ _ _ _ hj, ih (by omega), toNat_tap n (by omega)]
    by_cases h : n = j
    · rw [if_pos h, if_pos (by omega), (s.sweptTo_keeps n (by omega)).2.2.1, State.sweepErrors, State.sweepErrors, ← h]
    · rw [if_neg h]
      by_cases h2 : j < n
      · rw [if_pos h2, if_pos (by omega)]
      · rw [if_neg h2, if_neg (by omega)]

/-- The coming capture at tap `j` of a sweep, the captures being given as data. -/
theorem State.atTap_nextCapture (s : State) (j : Nat) (hj : j ≤ 32) {k : Capture} (hk : s.env.captures[j]? = some k) :
    ((s.sweptTo j).atTap (BitVec.ofNat 5 j)).nextCapture = k.word := by
  unfold State.nextCapture
  have : ((s.sweptTo j).atTap (BitVec.ofNat 5 j)).env.captures = s.env.captures.drop j := (s.sweptTo_keeps j hj).2.2.2.1
  rw [this]
  have hd : s.env.captures.drop j = k :: s.env.captures.drop (j + 1) := by
    obtain ⟨hlt, e⟩ := List.getElem?_eq_some_iff.mp hk
    rw [← e]
    exact List.drop_eq_getElem_cons hlt
  rw [hd]

/-- The samples that tap `j` of a sweep of chip `c` leaves are those of the capture taken there (R166, R187). -/
theorem State.sweptTo_samples (s : State) (j : Nat) (hj : j < 32) {k : Capture} (hk : s.env.captures[j]? = some k) (c lane : Fin 4)
    (hs : s.work.curchip = c) (col : Fin 1024) (hc : col.val < 256) :
    (s.sweptTo (j + 1)).res.samples[c][lane][col] = k.sample s.params.byteOrder c lane 256 col.val := by
  obtain ⟨h1, h2, -⟩ := s.sweptTo_keeps j (by omega)
  have hn := s.atTap_nextCapture j (by omega) hk
  rw [hs] at h2
  have hc0 : (oneOf c).getLsbD c.val = true := by
    rw [oneOf_bit]
    simp
  rw [State.sweptTo_succ s j hj, State.swept_samples, h2, State.snapped_samples hc0 lane col hc]
  unfold State.capturedDev Capture.sample
  rw [State.atTap_params, Device.stream_capture _ _ _ _ _ (by unfold stride; omega), hn, h1]
  have hl := lane.isLt
  rw [List.getD_eq_getElem?_getD, List.getElem?_map, List.getElem?_range (by omega)]
  rfl

/-- With the captures given as data, the counts are those of the capture taken at the tap. -/
theorem State.sweepErrors_capture (s : State) (j : Nat) (hj : j ≤ 32) (r : Nat) {k : Capture} (hk : s.env.captures[j]? = some k) :
    s.sweepErrors j r = k.rowErrors s.params.byteOrder s.work.curchip r s.work.expect := by
  obtain ⟨h1, h2, -⟩ := s.sweptTo_keeps j hj
  unfold State.sweepErrors State.tapErrors
  rw [s.atTap_nextCapture j hj hk, h1, h2]
  exact oracleErrors_capture _ _ _ _ _

/-- The taps of the chip being swept, after at least one tap: all four lanes at the last one (R187). -/
theorem State.sweptTo_tap (s : State) (n : Nat) (hn : n < 32) (c lane : Fin 4) :
    (s.sweptTo (n + 1)).dev.chips[c].tap[lane] = if c = s.work.curchip then BitVec.ofNat 5 n else s.dev.chips[c].tap[lane] := by
  have hl : (0b1111#4).getLsbD lane.val = true := by
    revert lane
    decide
  induction n with
  | zero =>
    rw [State.sweptTo_succ s 0 hn, State.sweptTo_zero, State.swept_dev, State.capturedDev_chips, State.atTap_dev]
    rw [tapChips_tap]
    simp [hl]
  | succ n ih =>
    rw [State.sweptTo_succ s (n + 1) hn, State.swept_dev, State.capturedDev_chips, State.atTap_dev]
    rw [tapChips_tap, ih (by omega), (s.sweptTo_keeps (n + 1) (by omega)).2.1]
    by_cases h : c = s.work.curchip
    · simp [h, hl]
    · simp [h]

/-- A sweep leaves everything of a chip but its taps. -/
theorem State.sweptTo_chip (s : State) (n : Nat) (hn : n ≤ 32) (c : Fin 4) :
    (s.sweptTo n).dev.chips[c].adcreg = s.dev.chips[c].adcreg ∧ (s.sweptTo n).dev.chips[c].slip = s.dev.chips[c].slip ∧
    (s.sweptTo n).dev.chips[c].rxsr = s.dev.chips[c].rxsr ∧ (s.sweptTo n).dev.chips[c].rxcnt = s.dev.chips[c].rxcnt := by
  induction n with
  | zero => exact ⟨rfl, rfl, rfl, rfl⟩
  | succ n ih =>
    obtain ⟨h1, h2, h3, h4⟩ := ih (by omega)
    rw [State.sweptTo_succ s n (by omega), State.swept_dev, State.capturedDev_chips, State.atTap_dev]
    obtain ⟨g1, g2, g3, g4⟩ := tapChips_rest (s.sweptTo n).work.curchip (BitVec.ofNat 5 n) 0b1111 (s.sweptTo n).dev.chips c
    exact ⟨g1.trans h1, g2.trans h2, g3.trans h3, g4.trans h4⟩

/-- After at least one tap: what the last capture left. -/
theorem State.sweptTo_last (s : State) (n : Nat) (hn : n < 32) :
    (s.sweptTo (n + 1)).dev.ctrl1 = zeroWord ∧ (s.sweptTo (n + 1)).dev.prev1 = zeroWord ∧
    (s.sweptTo (n + 1)).res.sampleLen = 256 ∧ (s.sweptTo (n + 1)).res.sampleValid = oneOf s.work.curchip := by
  rw [State.sweptTo_succ s n hn]
  refine ⟨rfl, rfl, State.swept_sampleLen _ _, ?_⟩
  rw [State.swept_sampleValid, (s.sweptTo_keeps n (by omega)).2.1]

/-! ### Selecting and programming -/

/-- The state after one lane has been programmed, or skipped (R191, R195). -/
def State.programmed (lane : Fin 4) (s : State) : State :=
  if tapsOf s.res.good[lane] = [] then s
  else s.pulsed (tapWord s.params (selectTap (tapsOf s.res.good[lane])))
    (tapResetWord s.params (selectTap (tapsOf s.res.good[lane])) s.work.curchip (oneOf lane)) zeroWord
    { s.dev.zeroed with
      chips := tapChips s.work.curchip (selectTap (tapsOf s.res.good[lane])) (oneOf lane) s.dev.chips } s.env.captures

theorem programLane_eq_go {lane : Fin 4} {s t : State} (hw : s.params.Ctrl1Wf) (h : programLane lane s = .go t) :
    t = s.programmed lane := by
  unfold programLane at h
  unfold State.programmed
  split at h
  · rename_i he
    cases h
    rw [if_pos he]
  · rename_i he
    rw [if_neg he]
    exact delayWrite_eq_go hw h

section
variable (lane : Fin 4) (s : State)

@[simp] theorem State.programmed_params : (s.programmed lane).params = s.params := by unfold State.programmed; split <;> rfl
@[simp] theorem State.programmed_res : (s.programmed lane).res = s.res := by unfold State.programmed; split <;> rfl
@[simp] theorem State.programmed_curchip : (s.programmed lane).work.curchip = s.work.curchip := by
  unfold State.programmed; split <;> rfl
@[simp] theorem State.programmed_captures : (s.programmed lane).env.captures = s.env.captures := by
  unfold State.programmed; split <;> rfl
@[simp] theorem State.programmed_capbuf : (s.programmed lane).dev.capbuf = s.dev.capbuf := by
  unfold State.programmed; split <;> rfl
@[simp] theorem State.programmed_ctrl0 : (s.programmed lane).dev.ctrl0 = s.dev.ctrl0 := by
  unfold State.programmed; split <;> rfl
@[simp] theorem State.programmed_prev0 : (s.programmed lane).dev.prev0 = s.dev.prev0 := by
  unfold State.programmed; split <;> rfl
@[simp] theorem State.programmed_captureCount : (s.programmed lane).dev.captures = s.dev.captures := by
  unfold State.programmed; split <;> rfl

theorem State.programmed_ctrl1 (h1 : s.dev.ctrl1 = zeroWord) (h2 : s.dev.prev1 = zeroWord) :
    (s.programmed lane).dev.ctrl1 = zeroWord ∧ (s.programmed lane).dev.prev1 = zeroWord := by
  unfold State.programmed
  split
  · exact ⟨h1, h2⟩
  · exact ⟨rfl, rfl⟩

theorem State.programmed_chip (c : Fin 4) :
    (s.programmed lane).dev.chips[c].adcreg = s.dev.chips[c].adcreg ∧ (s.programmed lane).dev.chips[c].slip = s.dev.chips[c].slip ∧
    (s.programmed lane).dev.chips[c].rxsr = s.dev.chips[c].rxsr ∧ (s.programmed lane).dev.chips[c].rxcnt = s.dev.chips[c].rxcnt := by
  unfold State.programmed
  split
  · exact ⟨rfl, rfl, rfl, rfl⟩
  · exact tapChips_rest _ _ _ _ c

/-- Only the lane's own tap changes, and only if the lane has a good tap (R194, R195). -/
theorem State.programmed_tap (c l : Fin 4) :
    (s.programmed lane).dev.chips[c].tap[l] =
      if c = s.work.curchip ∧ l = lane ∧ tapsOf s.res.good[lane] ≠ [] then selectTap (tapsOf s.res.good[lane])
      else s.dev.chips[c].tap[l] := by
  unfold State.programmed
  by_cases he : tapsOf s.res.good[lane] = []
  · rw [if_pos he, if_neg fun h => h.2.2 he]
  · rw [if_neg he]
    refine Eq.trans (tapChips_tap _ _ _ _ c l) ?_
    rw [oneOf_bit]
    by_cases h : c = s.work.curchip ∧ l = lane
    · rw [if_pos ⟨h.1, by simpa using h.2⟩, if_pos ⟨h.1, h.2, he⟩]
    · rw [if_neg fun g => h ⟨g.1, by simpa using g.2⟩, if_neg fun g => h ⟨g.1, g.2.1⟩]

end

theorem selectAndProgram_eq_go {s t : State} (hw : s.params.Ctrl1Wf) (h : selectAndProgram s = .go t) :
    t = (((s.programmed 0).programmed 1).programmed 2).programmed 3 := by
  have e : List.finRange 4 = [0, 1, 2, 3] := by decide
  unfold selectAndProgram at h
  rw [e] at h
  obtain ⟨m0, h0, h⟩ := Flow.andThen_eq_go.mp h
  obtain ⟨m1, h1, h⟩ := Flow.andThen_eq_go.mp h
  obtain ⟨m2, h2, h⟩ := Flow.andThen_eq_go.mp h
  obtain ⟨m3, h3, h⟩ := Flow.andThen_eq_go.mp h
  cases h
  have e0 := programLane_eq_go hw h0
  have p0 : m0.params = s.params := by rw [e0, State.programmed_params]
  have e1 := programLane_eq_go (by rw [p0]; exact hw) h1
  have p1 : m1.params = s.params := by rw [e1, State.programmed_params, p0]
  have e2 := programLane_eq_go (by rw [p1]; exact hw) h2
  have p2 : m2.params = s.params := by rw [e2, State.programmed_params, p1]
  have e3 := programLane_eq_go (by rw [p2]; exact hw) h3
  rw [e3, e2, e1, e0]

/-- The taps after the selection (R191, R194, R195). -/
theorem State.programmed_all_tap (s : State) (c l : Fin 4) :
    ((((s.programmed 0).programmed 1).programmed 2).programmed 3).dev.chips[c].tap[l] =
      if c = s.work.curchip ∧ tapsOf s.res.good[l] ≠ [] then selectTap (tapsOf s.res.good[l]) else s.dev.chips[c].tap[l] := by
  simp only [State.programmed_tap, State.programmed_curchip, State.programmed_res]
  match l with
  | 0 => simp
  | 1 => simp
  | 2 => simp
  | 3 => simp

/-! ### Traces -/

theorem State.swept_port (t : BitVec 5) (s : State) :
    (s.swept t).port =
      (delayTrace s.params s.work.curchip t 0b1111 ++ snapTrace s.params (oneOf s.work.curchip) 256).reverse ++ s.port := by
  have h : (s.swept t).port = ((s.atTap t).snapped (oneOf s.work.curchip) 256).port := rfl
  rw [h, State.snapped_port, List.reverse_append, List.append_assoc]
  rfl

/-- The operations of the first `n` taps of a sweep (R187). -/
theorem State.sweptTo_port (s : State) (n : Nat) (hn : n ≤ 32) :
    (s.sweptTo n).port =
      ((allTaps.take n).flatMap fun t => delayTrace s.params s.work.curchip t 0b1111 ++
        snapTrace s.params (oneOf s.work.curchip) 256).reverse ++ s.port := by
  induction n with
  | zero => rfl
  | succ n ih =>
    obtain ⟨h1, h2, -⟩ := s.sweptTo_keeps n (by omega)
    rw [State.sweptTo_succ s n (by omega), State.swept_port, ih (by omega), h1, h2, allTaps_take_succ n (by omega),
      List.flatMap_append, List.reverse_append (as := List.flatMap _ _), List.append_assoc, List.flatMap_singleton]

theorem State.programmed_port (lane : Fin 4) (s : State) :
    (s.programmed lane).port =
      (if tapsOf s.res.good[lane] = [] then []
        else delayTrace s.params s.work.curchip (selectTap (tapsOf s.res.good[lane])) (oneOf lane)).reverse ++ s.port := by
  unfold State.programmed
  split <;> rfl

/-! ### The whole calibration of one chip -/

/-- The state after all four lanes. -/
def State.programmedAll (s : State) : State := (((s.programmed 0).programmed 1).programmed 2).programmed 3

section
variable (s : State)

@[simp] theorem State.programmedAll_params : s.programmedAll.params = s.params := by simp [State.programmedAll]
@[simp] theorem State.programmedAll_res : s.programmedAll.res = s.res := by simp [State.programmedAll]
@[simp] theorem State.programmedAll_captures : s.programmedAll.env.captures = s.env.captures := by simp [State.programmedAll]
@[simp] theorem State.programmedAll_ctrl0 : s.programmedAll.dev.ctrl0 = s.dev.ctrl0 := by simp [State.programmedAll]
@[simp] theorem State.programmedAll_prev0 : s.programmedAll.dev.prev0 = s.dev.prev0 := by simp [State.programmedAll]
@[simp] theorem State.programmedAll_captureCount : s.programmedAll.dev.captures = s.dev.captures := by simp [State.programmedAll]

theorem State.programmedAll_ctrl1 (h1 : s.dev.ctrl1 = zeroWord) (h2 : s.dev.prev1 = zeroWord) :
    s.programmedAll.dev.ctrl1 = zeroWord ∧ s.programmedAll.dev.prev1 = zeroWord := by
  have a0 := s.programmed_ctrl1 0 h1 h2
  have a1 := (s.programmed 0).programmed_ctrl1 1 a0.1 a0.2
  have a2 := ((s.programmed 0).programmed 1).programmed_ctrl1 2 a1.1 a1.2
  exact (((s.programmed 0).programmed 1).programmed 2).programmed_ctrl1 3 a2.1 a2.2

theorem State.programmedAll_chip (c : Fin 4) :
    s.programmedAll.dev.chips[c].adcreg = s.dev.chips[c].adcreg ∧ s.programmedAll.dev.chips[c].slip = s.dev.chips[c].slip ∧
    s.programmedAll.dev.chips[c].rxsr = s.dev.chips[c].rxsr ∧ s.programmedAll.dev.chips[c].rxcnt = s.dev.chips[c].rxcnt := by
  obtain ⟨a1, a2, a3, a4⟩ := s.programmed_chip 0 c
  obtain ⟨b1, b2, b3, b4⟩ := (s.programmed 0).programmed_chip 1 c
  obtain ⟨d1, d2, d3, d4⟩ := ((s.programmed 0).programmed 1).programmed_chip 2 c
  obtain ⟨e1, e2, e3, e4⟩ := (((s.programmed 0).programmed 1).programmed 2).programmed_chip 3 c
  exact ⟨e1.trans (d1.trans (b1.trans a1)), e2.trans (d2.trans (b2.trans a2)), e3.trans (d3.trans (b3.trans a3)),
    e4.trans (d4.trans (b4.trans a4))⟩

/-- The operations of the selection (R191, R194, R195). -/
theorem State.programmedAll_port (p : Params) (c : Fin 4) (hp : s.params = p) (hc : s.work.curchip = c) :
    s.programmedAll.port = (selectTrace p c s.res.good).reverse ++ s.port := by
  have hf : List.finRange 4 = [0, 1, 2, 3] := by decide
  subst hp hc
  unfold selectTrace State.programmedAll
  rw [hf]
  simp only [State.programmed_port, State.programmed_params, State.programmed_res, State.programmed_curchip,
    List.flatMap_cons, List.flatMap_nil, List.append_nil, List.reverse_append, List.append_assoc]

end

/-- The state when the sweep of chip `c` starts (R186). -/
def State.forSweep (c : Fin 4) (e : Sample) (s : State) : State := s.setWork { s.work with curchip := c, expect := e }

/-- The last register update of CALTAPS (R186). -/
def State.endCal (c : Fin 4) (s : State) : State := s.setRes { s.res with calChip := c, calValid := true }

/-- The state after the body of CALTAPS (R186). -/
def State.calibrated (c : Fin 4) (e : Sample) (s : State) : State := (((s.forSweep c e).sweptTo 32).programmedAll).endCal c

theorem calibrateTaps_eq_go {c : Fin 4} {e : Sample} {s t : State} (hw : s.params.Ctrl1Wf) (h : calibrateTaps c e s = .go t) :
    t = s.calibrated c e := by
  obtain ⟨m2, h, h3⟩ := Flow.andThen_eq_go.mp h
  obtain ⟨m1, h1, h2⟩ := Flow.andThen_eq_go.mp h
  rw [Flow.update_apply, Flow.andThen_go] at h1
  have e1 : m1 = (s.forSweep c e).sweptTo 32 := sweep_eq_go (s := s.forSweep c e) hw h1
  have hp : m1.params.Ctrl1Wf := by
    rw [e1, (State.sweptTo_keeps _ 32 (by omega)).1]
    exact hw
  have e2 : m2 = m1.programmedAll := selectAndProgram_eq_go hp h2
  cases h3
  unfold State.calibrated
  rw [← e1, ← e2]
  rfl

/-- The mismatches CALTAPS finds for chip `c` at tap `j` in row `r` (R188, R189). -/
def State.calErrors (s : State) (c : Fin 4) (e : Sample) (j r : Nat) : Nat := (s.forSweep c e).sweepErrors j r

section
variable (c : Fin 4) (e : Sample) (s : State)

theorem State.calErrors_le (j r : Nat) : s.calErrors c e j r ≤ 128 := oracleErrors_le _ _ _ _ _

theorem State.calErrors_capture (j : Nat) (hj : j ≤ 32) (r : Nat) {k : Capture} (hk : s.env.captures[j]? = some k) :
    s.calErrors c e j r = k.rowErrors s.params.byteOrder c r e :=
  State.sweepErrors_capture (s.forSweep c e) j hj r hk

theorem State.calibrated_res :
    (s.calibrated c e).res = { ((s.forSweep c e).sweptTo 32).res with calChip := c, calValid := true } := by
  unfold State.calibrated State.endCal
  rw [State.setRes_res, State.programmedAll_res]

theorem State.calibrated_dev : (s.calibrated c e).dev = ((s.forSweep c e).sweptTo 32).programmedAll.dev := by
  unfold State.calibrated State.endCal
  rw [State.setRes_dev]

/-- What the calibration of one chip keeps, and what it leaves in the registers that describe it (R34, R186). -/
theorem State.calibrated_keeps :
    (s.calibrated c e).params = s.params ∧ (s.calibrated c e).env.captures = s.env.captures.drop 32 ∧
    (s.calibrated c e).res.syncok = s.res.syncok ∧ (s.calibrated c e).res.syncValid = s.res.syncValid ∧
    (s.calibrated c e).res.calValid = true ∧ (s.calibrated c e).res.calChip = c ∧
    (s.calibrated c e).res.sampleLen = 256 ∧ (s.calibrated c e).res.sampleValid = oneOf c ∧
    (s.calibrated c e).dev.ctrl0 = s.dev.ctrl0 ∧ (s.calibrated c e).dev.prev0 = s.dev.prev0 ∧
    (s.calibrated c e).dev.ctrl1 = zeroWord ∧ (s.calibrated c e).dev.prev1 = zeroWord ∧
    (s.calibrated c e).dev.captures = s.dev.captures + 32 := by
  obtain ⟨k1, -, -, k4, k5, k6, -, -, k9, k10, k11⟩ := (s.forSweep c e).sweptTo_keeps 32 (by omega)
  obtain ⟨l1, l2, l3, l4⟩ := (s.forSweep c e).sweptTo_last 31 (by omega)
  obtain ⟨a1, a2⟩ := State.programmedAll_ctrl1 _ l1 l2
  refine ⟨?_, ?_, ?_⟩
  · unfold State.calibrated State.endCal
    rw [State.setRes_params, State.programmedAll_params, k1]
    rfl
  · unfold State.calibrated State.endCal
    rw [State.setRes_env, State.programmedAll_captures, k4]
    rfl
  · rw [State.calibrated_res, State.calibrated_dev, State.programmedAll_ctrl0, State.programmedAll_prev0,
      State.programmedAll_captureCount]
    exact ⟨k5, k6, rfl, rfl, l3, l4, k9, k10, a1, a2, k11⟩

/-- ERRCNT after CALTAPS (R189). -/
theorem State.calibrated_errcnt (lane : Fin 4) (j : Fin 32) :
    (s.calibrated c e).res.errcnt[lane][j] =
      (BitVec.ofNat 8 (s.calErrors c e j lane.val), BitVec.ofNat 8 (s.calErrors c e j (lane.val + 4))) := by
  rw [State.calibrated_res]
  exact (State.sweptTo_errcnt (s.forSweep c e) 32 (by omega) lane j).trans (if_pos j.isLt)

/-- GOOD after CALTAPS (R189, R190). -/
theorem State.calibrated_good (lane : Fin 4) (j : Nat) (hj : j < 32) :
    (s.calibrated c e).res.good[lane].getLsbD j =
      (decide (s.calErrors c e j lane.val = 0) && decide (s.calErrors c e j (lane.val + 4) = 0)) := by
  rw [State.calibrated_res]
  exact (State.sweptTo_good (s.forSweep c e) 32 (by omega) lane j hj).trans (if_pos hj)

/-- SAMPLES after CALTAPS, the captures being given as data: those of the capture at tap 31 (R196). -/
theorem State.calibrated_samples {k : Capture} (hk : s.env.captures[31]? = some k) (lane : Fin 4) (col : Fin 1024) (hc : col.val < 256) :
    (s.calibrated c e).res.samples[c][lane][col] = k.sample s.params.byteOrder c lane 256 col.val := by
  have h := State.sweptTo_samples (s.forSweep c e) 31 (by omega) hk c lane rfl col hc
  have hp : (s.forSweep c e).params = s.params := rfl
  rw [show 31 + 1 = 32 from rfl, hp] at h
  rw [State.calibrated_res]
  generalize (s.forSweep c e).sweptTo 32 = q at h ⊢
  exact h

/-- The taps after CALTAPS (R191, R194, R195). -/
theorem State.calibrated_tap (c' lane : Fin 4) :
    (s.calibrated c e).dev.chips[c'].tap[lane] =
      if c' = c then
        if tapsOf (s.calibrated c e).res.good[lane] = [] then 31 else selectTap (tapsOf (s.calibrated c e).res.good[lane])
      else s.dev.chips[c'].tap[lane] := by
  have k := ((s.forSweep c e).sweptTo_keeps 32 (by omega)).2.1
  have kc : ((s.forSweep c e).sweptTo 32).work.curchip = c := k
  have ht : ((s.forSweep c e).sweptTo 32).dev.chips[c'].tap[lane] = if c' = c then 31 else s.dev.chips[c'].tap[lane] :=
    State.sweptTo_tap (s.forSweep c e) 31 (by omega) c' lane
  have hp : ((s.forSweep c e).sweptTo 32).programmedAll.dev.chips[c'].tap[lane] = _ :=
    State.programmed_all_tap ((s.forSweep c e).sweptTo 32) c' lane
  rw [State.calibrated_res, State.calibrated_dev, hp, kc, ht]
  by_cases hc : c' = c
  · rw [if_pos hc]
    by_cases hn : tapsOf ((s.forSweep c e).sweptTo 32).res.good[lane] = []
    · rw [if_neg fun h => h.2 hn, if_pos hc, if_pos hn]
    · rw [if_pos ⟨hc, hn⟩, if_pos hc, if_neg hn]
  · rw [if_neg fun h => hc h.1, if_neg hc, if_neg hc]

/-- CALTAPS leaves everything of a chip but its taps. -/
theorem State.calibrated_chip (c' : Fin 4) :
    (s.calibrated c e).dev.chips[c'].adcreg = s.dev.chips[c'].adcreg ∧
    (s.calibrated c e).dev.chips[c'].slip = s.dev.chips[c'].slip ∧
    (s.calibrated c e).dev.chips[c'].rxsr = s.dev.chips[c'].rxsr ∧
    (s.calibrated c e).dev.chips[c'].rxcnt = s.dev.chips[c'].rxcnt := by
  obtain ⟨k1, k2, k3, k4⟩ := (s.forSweep c e).sweptTo_chip 32 (by omega) c'
  obtain ⟨a1, a2, a3, a4⟩ := ((s.forSweep c e).sweptTo 32).programmedAll_chip c'
  rw [State.calibrated_dev]
  exact ⟨a1.trans k1, a2.trans k2, a3.trans k3, a4.trans k4⟩

/-- The operations of CALTAPS (R187, R191). -/
theorem State.calibrated_port :
    (s.calibrated c e).port = (sweepTrace s.params c ++ selectTrace s.params c (s.calibrated c e).res.good).reverse ++ s.port := by
  have hd : (s.calibrated c e).port = ((s.forSweep c e).sweptTo 32).programmedAll.port := by
    unfold State.calibrated State.endCal
    rw [State.setRes_port]
  have hg : (s.calibrated c e).res.good = ((s.forSweep c e).sweptTo 32).res.good := by rw [State.calibrated_res]
  rw [hd, hg]
  have k := (s.forSweep c e).sweptTo_keeps 32 (by omega)
  have k1 := k.1
  have k2 := k.2.1
  have kp := (s.forSweep c e).sweptTo_port 32 (by omega)
  generalize (s.forSweep c e).sweptTo 32 = r at *
  have ht : allTaps.take 32 = allTaps := List.take_of_length_le (by simp [allTaps])
  have hp : (s.forSweep c e).params = s.params := rfl
  have hc : (s.forSweep c e).work.curchip = c := rfl
  have ho : (s.forSweep c e).port = s.port := rfl
  rw [hp] at k1
  rw [hc] at k2
  rw [ht, hp, hc, ho] at kp
  rw [State.programmedAll_port r s.params c k1 k2, kp, sweepTrace, List.reverse_append, List.append_assoc]

end

/-! ### Bounds -/

theorem ran_countTap (s : State) : Ran 0 s s.countTap := by
  have h : Ran 0 s (s.setWork s.countTap.work) := ran_setWork rfl
  exact h.trans (ran_setRes _ s.countTap.res)

theorem sweepTap_within (t : BitVec 5) : Within 7 7 (sweepTap t) := by
  intro s
  refine ((((Within.update (f := fun s => s.setWork { s.work with tapidx := t }) (fun s => ran_setWork rfl)) s).bind
    (lo' := 3) (hi' := 3) fun m _ => delayWrite_within _ _ _ m).bind (lo' := 4) (hi' := 4) fun m _ => ?_).bind (lo' := 0) (hi' := 0)
    fun m _ => Within.update ran_countTap m
  have h := snapshot_within (oneOf m.work.curchip) (n := 256) (by omega) (by unfold stride; omega)
  rw [chipsIn_oneOf] at h
  exact h m

/-- The sweep is exactly 224 operations (R187). -/
theorem sweep_within : Within 224 224 sweep := by
  have h := Within.each sweepTap_within allTaps
  exact h

theorem programLane_within (lane : Fin 4) : Within 0 3 (programLane lane) := by
  intro s
  unfold programLane
  split
  · exact (Within.skip s).weaken (by omega) (by omega)
  · exact (delayWrite_within _ _ _ s).weaken (by omega) (by omega)

theorem selectAndProgram_within : Within 0 12 selectAndProgram := by
  have h := Within.each programLane_within (List.finRange 4)
  exact h

/-- CALTAPS is 224 to 236 operations (R196). -/
theorem calibrateTaps_within (c : Fin 4) (e : Sample) : Within 224 236 (calibrateTaps c e) := by
  have h := (((Within.update (f := fun s => s.setWork { s.work with curchip := c, expect := e }) (fun s => ran_setWork rfl)).andThen
    sweep_within).andThen selectAndProgram_within).andThen
    (Within.update (f := fun s => s.setRes { s.res with calChip := c, calValid := true }) fun s => ran_setRes s _)
  exact h

end Sys2Proof.Machine
end

