-- ==== Sys2Proof/Laws/Serial.lean ====
section
/-! SUPPORT. What one serial cycle does: the state after it, in full, and the fifty words it writes (R133, R135). -/

namespace Sys2Proof.Machine

/-- A write to CTRL0 as an operation of the port. -/
def ctrl0Op (p : Params) (w : Word) : TOp := .write p.regionCtrl p.idxSer w

/-- The state after the words `ws` have been written to CTRL0, the working registers being `w`. -/
def State.wrote0 (ws : List Word) (w : Work) (s : State) : State :=
  { s with
    work := w
    dev := ws.foldl (fun d w => d.onCtrl0 s.params w) s.dev
    env := { s.env with answers := s.env.answers.drop ws.length, draws := s.env.draws + ws.length }
    port := (ws.map (ctrl0Op s.params)).reverse ++ s.port }

/-- The words from bit `i` of the frame down to the trailing idle word. -/
def tailWords (p : Params) (csmask : BitVec 4) (f : BitVec 24) : Nat → List Word
  | 0 => [loWord p csmask (f.getLsbD 0), hiWord p csmask (f.getLsbD 0), idleWord p]
  | i + 1 => loWord p csmask (f.getLsbD (i + 1)) :: hiWord p csmask (f.getLsbD (i + 1)) :: tailWords p csmask f i

@[simp] theorem tailWords_length (p : Params) (csmask : BitVec 4) (f : BitVec 24) (i : Nat) :
    (tailWords p csmask f i).length = 2 * i + 3 := by
  induction i with
  | zero => rfl
  | succ i ih => simp [tailWords, ih]; omega

/-- One write to CTRL0 that completed. -/
theorem writeCtrl0_eq_go {w : Word} {s t : State} (h : writeCtrl0 w s = .go t) :
    t = s.wrote0 [w] { s.work with substep := s.work.substep + 1 } := by
  rw [issue_eq_go h]
  simp [State.completed, State.wrote0, State.takeAnswer, State.logOp, State.ctrl0Lands, State.setSubstep, State.setWork,
    State.setDev, State.setEnv, ctrl0Op]

theorem State.wrote0_wrote0 (a b : List Word) (v w : Work) (s : State) :
    (s.wrote0 a v).wrote0 b w = s.wrote0 (a ++ b) w := by
  simp [State.wrote0, List.foldl_append, Nat.add_assoc]

theorem State.wrote0_setWork (a : List Word) (v w : Work) (s : State) : (s.wrote0 a v).setWork w = s.wrote0 a w := rfl

@[simp] theorem State.wrote0_params (a : List Word) (v : Work) (s : State) : (s.wrote0 a v).params = s.params := rfl
@[simp] theorem State.wrote0_csmask (a : List Word) (v : Work) (s : State) : (s.wrote0 a v).csmask = s.csmask := rfl
@[simp] theorem State.wrote0_work (a : List Word) (v : Work) (s : State) : (s.wrote0 a v).work = v := rfl

/-- The two steps of one bit (R135): its LOW and its HIGH write. -/
theorem serialRun_bit {s : State} (n : Nat) (h : s.work.phase = .low) :
    serialRun (n + 2) s =
      (writeCtrl0 (loWord s.params s.csmask s.currentBit) s).andThen fun m =>
        (writeCtrl0 (hiWord m.params m.csmask m.currentBit) (m.setPhase .high)).andThen fun m => serialRun n m.nextBit := by
  simp only [serialRun, serialStep, h, Flow.andThen_assoc, Flow.update_apply, Flow.andThen_go, State.setPhase_work]
  rfl

/-- From the LOW phase at bit `i`, the rest of the cycle: the words of `tailWords`, and PHASE is IDLE again. -/
theorem serialRun_eq_go (i : Nat) (hi : i ≤ 23) {s t : State} (h : s.work.phase = .low)
    (hb : s.work.bitidx = BitVec.ofNat 5 i) (e : serialRun (2 * i + 3) s = .go t) :
    t = s.wrote0 (tailWords s.params s.csmask s.work.sr i)
      { s.work with phase := .idle, bitidx := 0, substep := s.work.substep + (2 * i + 3) } := by
  induction i generalizing s with
  | zero =>
    rw [show 2 * 0 + 3 = 1 + 2 from rfl, serialRun_bit 1 h] at e
    obtain ⟨m1, e1, e⟩ := Flow.andThen_eq_go.mp e
    obtain ⟨m2, e2, e⟩ := Flow.andThen_eq_go.mp e
    have f1 := writeCtrl0_eq_go e1
    have f2 := writeCtrl0_eq_go e2
    have fn : m2.nextBit = m2.setPhase .post := by
      unfold State.nextBit
      rw [if_pos]
      rw [f2, f1]
      simpa using hb
    rw [fn] at e
    simp only [serialRun, serialStep, State.setPhase_work] at e
    obtain ⟨m4, e3, e⟩ := Flow.andThen_eq_go.mp e
    obtain ⟨m3, e3, e4⟩ := Flow.andThen_eq_go.mp e3
    have f3 := writeCtrl0_eq_go e3
    cases e4
    cases e
    rw [f3, f2, f1]
    simp only [State.setPhase, State.wrote0_setWork, State.wrote0_wrote0, State.wrote0_work, State.wrote0_params,
      State.wrote0_csmask, State.currentBit, hb, tailWords]
    rfl
  | succ i ih =>
    rw [show 2 * (i + 1) + 3 = (2 * i + 3) + 2 by omega, serialRun_bit _ h] at e
    obtain ⟨m1, e1, e⟩ := Flow.andThen_eq_go.mp e
    obtain ⟨m2, e2, e⟩ := Flow.andThen_eq_go.mp e
    have f1 := writeCtrl0_eq_go e1
    have f2 := writeCtrl0_eq_go e2
    have hne : ¬ BitVec.ofNat 5 (i + 1) = 0#5 := by
      intro h
      have := congrArg BitVec.toNat h
      simp at this
      omega
    have hd : BitVec.ofNat 5 (i + 1) - 1#5 = BitVec.ofNat 5 i := by
      apply BitVec.eq_of_toNat_eq
      simp [BitVec.toNat_sub]
      omega
    have ht : (BitVec.ofNat 5 (i + 1)).toNat = i + 1 := by
      simp
      omega
    have fn : m2.nextBit = m2.setWork { m2.work with bitidx := BitVec.ofNat 5 i, phase := .low } := by
      unfold State.nextBit
      rw [if_neg]
      · rw [f2, f1]
        simp [hb, hd]
      · rw [f2, f1]
        simpa [hb] using hne
    have := ih (by omega) (by rw [fn]; rfl) (by rw [fn]; rfl) e
    rw [this, fn, f2, f1]
    simp only [State.setPhase, State.wrote0_setWork, State.wrote0_wrote0, State.wrote0_work, State.wrote0_params,
      State.wrote0_csmask, State.currentBit, hb, ht, tailWords]
    simp only [List.cons_append, List.nil_append]
    congr 2
    omega

/-- A completed serial cycle, in full. -/
theorem serialWrite_eq_go {a : BitVec 8} {v : BitVec 16} {s t : State} (e : serialWrite a v s = .go t) :
    t = s.wrote0 (idleWord s.params :: tailWords s.params s.csmask (frame a v) 23)
      { s.work with sr := frame a v, bitidx := 0, phase := .idle, substep := s.work.substep + 50 } := by
  obtain ⟨m, e1, e⟩ := Flow.andThen_eq_go.mp e
  have f1 := writeCtrl0_eq_go e1
  rw [serialRun_eq_go 23 (by omega) (by simp) (by rw [f1]; rfl) e, f1]
  simp only [State.setPhase, State.wrote0_setWork, State.wrote0_wrote0, State.wrote0_work, State.wrote0_params,
      State.wrote0_csmask, List.cons_append, List.nil_append]
  rfl

theorem legalCtrl0_idle (p : Params) : LegalCtrl0 p (idleWord p) := .inl rfl
theorem legalCtrl0_lo (p : Params) (m : BitVec 4) (b : Bool) : LegalCtrl0 p (loWord p m b) := .inr ⟨m, b, .inl rfl⟩
theorem legalCtrl0_hi (p : Params) (m : BitVec 4) (b : Bool) : LegalCtrl0 p (hiWord p m b) := .inr ⟨m, b, .inr rfl⟩

/-- After the two writes of bit `i`, PHASE and BITIDX. -/
theorem nextBit_after {w1 w2 : Word} {s m1 m2 : State} {i : Nat} (hi : i ≤ 23) (hb : s.work.bitidx = BitVec.ofNat 5 i)
    (e1 : writeCtrl0 w1 s = .go m1) (e2 : writeCtrl0 w2 (m1.setPhase .high) = .go m2) :
    m2.nextBit.work.substep = m2.work.substep ∧
    (i = 0 → m2.nextBit = m2.setPhase .post) ∧
    (∀ j, i = j + 1 → m2.nextBit.work.phase = .low ∧ m2.nextBit.work.bitidx = BitVec.ofNat 5 j) := by
  have hm : m2.work.bitidx = BitVec.ofNat 5 i := by
    rw [writeCtrl0_eq_go e2, writeCtrl0_eq_go e1]
    exact hb
  refine ⟨?_, ?_, ?_⟩
  · rw [State.nextBit_work]
    split <;> rfl
  · rintro rfl
    unfold State.nextBit
    rw [if_pos (by simpa using hm)]
  · rintro j rfl
    have hne : ¬ m2.work.bitidx = 0 := by
      rw [hm]
      intro h
      have := congrArg BitVec.toNat h
      simp at this
      omega
    rw [State.nextBit_work, if_neg hne]
    refine ⟨rfl, ?_⟩
    rw [hm]
    apply BitVec.eq_of_toNat_eq
    simp [BitVec.toNat_sub]
    omega

/-- From the LOW phase at bit `i`, exactly `2 i + 3` operations. -/
theorem serialRun_within (i : Nat) (hi : i ≤ 23) {s : State} (h : s.work.phase = .low)
    (hb : s.work.bitidx = BitVec.ofNat 5 i) : WithinAt (2 * i + 3) (2 * i + 3) (serialRun (2 * i + 3) s) s := by
  induction i generalizing s with
  | zero =>
    rw [show 2 * 0 + 3 = 1 + 2 from rfl, serialRun_bit 1 h]
    refine (WithinAt.writeCtrl0 (legalCtrl0_lo _ _ _)).bind (lo' := 2) (hi' := 2) fun m1 e1 => ?_
    refine WithinAt.pre (ran_setWork (s := m1) (w := { m1.work with phase := .high }) rfl) ?_
    refine (WithinAt.writeCtrl0 (s := m1.setPhase .high) (legalCtrl0_hi _ _ _)).bind (lo' := 1) (hi' := 1) fun m2 e2 => ?_
    rw [(nextBit_after hi hb e1 e2).2.1 rfl]
    refine WithinAt.pre (ran_setWork (s := m2) (w := { m2.work with phase := .post }) rfl) ?_
    simp only [serialRun, serialStep, State.setPhase_work, Flow.andThen_assoc]
    refine (WithinAt.writeCtrl0 (s := m2.setPhase .post) (legalCtrl0_idle _)).bind (lo' := 0) (hi' := 0) fun m3 e3 => ?_
    exact .inl ⟨0, _, by omega, by omega, rfl, ran_setWork rfl⟩
  | succ i ih =>
    rw [show 2 * (i + 1) + 3 = 1 + (1 + (2 * i + 3)) by omega, show 1 + (1 + (2 * i + 3)) = (2 * i + 3) + 2 by omega,
      serialRun_bit _ h, show 2 * i + 3 + 2 = 1 + (1 + (2 * i + 3)) by omega]
    refine (WithinAt.writeCtrl0 (legalCtrl0_lo _ _ _)).bind fun m1 e1 => ?_
    refine WithinAt.pre (ran_setWork (s := m1) (w := { m1.work with phase := .high }) rfl) ?_
    refine (WithinAt.writeCtrl0 (s := m1.setPhase .high) (legalCtrl0_hi _ _ _)).bind fun m2 e2 => ?_
    obtain ⟨hsub, -, hlow⟩ := nextBit_after hi hb e1 e2
    obtain ⟨hp, hbi⟩ := hlow i rfl
    refine WithinAt.pre ?_ (ih (by omega) hp hbi)
    have : m2.nextBit = m2.setWork m2.nextBit.work := by
      unfold State.nextBit
      split <;> rfl
    rw [this]
    exact ran_setWork hsub

/-- A serial cycle is exactly 50 operations (R133, R138). -/
theorem serialWrite_within (a : BitVec 8) (v : BitVec 16) : Within 50 50 (serialWrite a v) := by
  intro s
  refine WithinAt.pre (ran_setWork (s := s) (w := { s.work with sr := frame a v, bitidx := 23 }) rfl) ?_
  refine (WithinAt.writeCtrl0 (s := s.loadFrame a v) (legalCtrl0_idle _)).bind (lo' := 49) (hi' := 49) fun m e => ?_
  refine WithinAt.pre (ran_setWork (s := m) (w := { m.work with phase := .low }) rfl) ?_
  refine serialRun_within 23 (by omega) rfl ?_
  rw [writeCtrl0_eq_go e]
  rfl

/-- `SerialWrite`s in order: 50 operations each. -/
theorem serialWrites_within (ws : List (BitVec 8 × BitVec 16)) :
    Within (ws.length * 50) (ws.length * 50) (serialWrites ws) := by
  unfold serialWrites
  have h := fun av : BitVec 8 × BitVec 16 => serialWrite_within av.1 av.2
  have := Within.each h ws
  exact this

/-- Word `j` of the tail from bit `k`. -/
theorem tailWords_getElem (p : Params) (m : BitVec 4) (f : BitVec 24) (k j : Nat) (hj : j < 2 * k + 3) :
    (tailWords p m f k)[j]? =
      some (if j = 2 * k + 2 then idleWord p
        else if j % 2 = 0 then loWord p m (f.getLsbD (k - j / 2)) else hiWord p m (f.getLsbD (k - j / 2))) := by
  induction k generalizing j with
  | zero => interval_cases j <;> simp [tailWords]
  | succ k ih =>
    match j with
    | 0 => simp [tailWords]
    | 1 => simp [tailWords]
    | j + 2 =>
      have e1 : (j + 2) / 2 = j / 2 + 1 := by omega
      have e2 : (j + 2) % 2 = j % 2 := by omega
      have e3 : (j + 2 = 2 * (k + 1) + 2) = (j = 2 * k + 2) := by simp; omega
      simp only [tailWords, List.getElem?_cons_succ]
      rw [ih j (by omega)]
      simp only [e1, e2, e3, Nat.add_sub_add_right]

/-- The words of a cycle are those of the closed form of R133. -/
theorem serialTrace_eq (p : Params) (m : BitVec 4) (a : BitVec 8) (v : BitVec 16) :
    serialTrace p m a v = (idleWord p :: tailWords p m (frame a v) 23).map (ctrl0Op p) := by
  have h : (List.range 50).map (serialWord p m a v) = idleWord p :: tailWords p m (frame a v) 23 := by
    apply List.ext_getElem?
    intro j
    by_cases hj : j < 50
    · rw [List.getElem?_map, List.getElem?_range hj]
      match j with
      | 0 => rfl
      | j + 1 =>
        rw [List.getElem?_cons_succ, tailWords_getElem _ _ _ _ _ (by omega)]
        simp only [Option.map_some, Option.some.injEq, serialWord]
        have e1 : (j + 1 = 0 ∨ j + 1 = 49) = (j = 2 * 23 + 2) := by simp
        have e2 : ((j + 1) % 2 = 1) = (j % 2 = 0) := by simp only [eq_iff_iff]; omega
        simp only [e1, e2, Nat.add_sub_cancel]
    · rw [List.getElem?_eq_none (by simp; omega), List.getElem?_eq_none (by simp; omega)]
  rw [← h, List.map_map]
  rfl

end Sys2Proof.Machine
end

