-- ==== Sys2Proof/Laws/Receiver.lean ====
section
/-! SUPPORT. What a serial cycle does to the chips: selected chips latch the frame, the others keep everything (R74, R137, R139). -/

namespace Sys2Proof.Machine

/-- Chip `c` seen through a run of words on CTRL0, the previous word being `prev`. -/
def Chip.run (p : Params) (c : Fin 4) : Word → List Word → Chip → Chip
  | _, [], ch => ch
  | prev, w :: ws, ch => Chip.run p c w ws (ch.receive p prev w c)

section
variable (p : Params) (d : Device)

theorem Device.foldl_onCtrl0_chip (ws : List Word) (c : Fin 4) :
    (ws.foldl (fun d w => d.onCtrl0 p w) d).chips[c] = d.chips[c].run p c d.prev0 ws := by
  induction ws generalizing d with
  | nil => rfl
  | cons w ws ih =>
    rw [List.foldl_cons, ih, Device.onCtrl0_chip]
    rfl

theorem Device.foldl_onCtrl0_rest (ws : List Word) :
    (ws.foldl (fun d w => d.onCtrl0 p w) d).capbuf = d.capbuf ∧ (ws.foldl (fun d w => d.onCtrl0 p w) d).ctrl1 = d.ctrl1 ∧
    (ws.foldl (fun d w => d.onCtrl0 p w) d).prev1 = d.prev1 ∧
    (ws.foldl (fun d w => d.onCtrl0 p w) d).captures = d.captures := by
  induction ws generalizing d with
  | nil => exact ⟨rfl, rfl, rfl, rfl⟩
  | cons w ws ih =>
    obtain ⟨h1, h2, h3, h4⟩ := ih (d.onCtrl0 p w)
    exact ⟨h1, h2, h3, h4⟩

/-- After a non-empty run of words both CTRL0 and PREV0 hold the last. -/
theorem Device.foldl_onCtrl0_last (ws : List Word) (w : Word) :
    ((ws ++ [w]).foldl (fun d w => d.onCtrl0 p w) d).ctrl0 = w ∧
    ((ws ++ [w]).foldl (fun d w => d.onCtrl0 p w) d).prev0 = w := by
  rw [List.foldl_append]
  exact ⟨rfl, rfl⟩

theorem tailWords_eq_append (m : BitVec 4) (f : BitVec 24) (i : Nat) :
    ∃ ws, tailWords p m f i = ws ++ [idleWord p] := by
  induction i with
  | zero => exact ⟨[_, _], rfl⟩
  | succ i ih =>
    obtain ⟨ws, e⟩ := ih
    exact ⟨_ :: _ :: ws, by rw [tailWords, e]; rfl⟩

end

/-- The bits `i`, `i - 1`, …, 0 of a frame are shifted in. -/
def Chip.shiftBits (f : BitVec 24) : Nat → Chip → Chip
  | 0, ch => ch.shiftIn (f.getLsbD 0)
  | i + 1, ch => Chip.shiftBits f i (ch.shiftIn (f.getLsbD (i + 1)))

theorem Chip.shiftBits_rxcnt (f : BitVec 24) (i : Nat) (ch : Chip) (h : ch.rxcnt + i + 1 ≤ 25) :
    (ch.shiftBits f i).rxcnt = ch.rxcnt + i + 1 := by
  induction i generalizing ch with
  | zero => simp [Chip.shiftBits, Chip.shiftIn]; omega
  | succ i ih =>
    have e : (ch.shiftIn (f.getLsbD (i + 1))).rxcnt = ch.rxcnt + 1 := by simp [Chip.shiftIn]; omega
    rw [Chip.shiftBits, ih _ (by rw [e]; omega), e]
    omega

theorem Chip.shiftBits_rest (f : BitVec 24) (i : Nat) (ch : Chip) :
    (ch.shiftBits f i).adcreg = ch.adcreg ∧ (ch.shiftBits f i).tap = ch.tap ∧ (ch.shiftBits f i).slip = ch.slip := by
  induction i generalizing ch with
  | zero => exact ⟨rfl, rfl, rfl⟩
  | succ i ih => exact ih _

theorem Chip.shiftIn_bit (b : Bool) (ch : Chip) (j : Nat) (hj : j < 24) :
    (ch.shiftIn b).rxsr.getLsbD j = if j = 0 then b else ch.rxsr.getLsbD (j - 1) := by
  unfold Chip.shiftIn
  rw [BitVec.getLsbD_or, BitVec.getLsbD_shiftLeft, BitVec.getLsbD_setWidth, BitVec.getLsbD_ofBool]
  by_cases h : j = 0
  · simp [h]
  · have : ¬ j < 1 := by omega
    simp [h, hj, this]

theorem Chip.shiftBits_bit (f : BitVec 24) (i : Nat) (ch : Chip) (j : Nat) (hj : j < 24) :
    (ch.shiftBits f i).rxsr.getLsbD j = if j ≤ i then f.getLsbD j else ch.rxsr.getLsbD (j - (i + 1)) := by
  induction i generalizing ch with
  | zero =>
    rw [Chip.shiftBits, Chip.shiftIn_bit _ _ _ hj]
    by_cases h : j = 0
    · simp [h]
    · rw [if_neg h, if_neg (by omega)]
  | succ i ih =>
    rw [Chip.shiftBits, ih]
    by_cases h : j ≤ i
    · rw [if_pos h, if_pos (by omega)]
    · rw [if_neg h, Chip.shiftIn_bit _ _ _ (by omega)]
      by_cases h2 : j = i + 1
      · rw [if_pos (by omega), if_pos (by omega), h2]
      · rw [if_neg (by omega), if_neg (by omega)]
        congr 1

/-- Twenty-four bits fill the shift register. -/
theorem Chip.shiftBits_rxsr (f : BitVec 24) (ch : Chip) : (ch.shiftBits f 23).rxsr = f := by
  apply BitVec.eq_of_getLsbD_eq
  intro j hj
  rw [Chip.shiftBits_bit f 23 ch j hj, if_pos (by omega)]

section
variable {p : Params} (h : p.Ctrl0Wf) (m : BitVec 4) (f : BitVec 24) (c : Fin 4)
include h

/-- A word with the clock low makes no rising edge. -/
theorem receive_loWord (prev : Word) (b : Bool) (ch : Chip) :
    ch.receive p prev (loWord p m b) c = ch.clocked (selects p prev c) (m.getLsbD c.val) false b := by
  unfold Chip.receive rises
  rw [selects_loWord h, loWord_sclk h, loWord_sdata h, Bool.and_false]

theorem receive_hiWord_after_lo (b : Bool) (ch : Chip) :
    ch.receive p (loWord p m b) (hiWord p m b) c = ch.clocked (m.getLsbD c.val) (m.getLsbD c.val) true b := by
  unfold Chip.receive rises
  rw [selects_loWord h, selects_hiWord h, loWord_sclk h, hiWord_sclk h, hiWord_sdata h]
  rfl

theorem receive_idleWord (prev : Word) (ch : Chip) :
    ch.receive p prev (idleWord p) c = ch.clocked (selects p prev c) false false false := by
  unfold Chip.receive rises
  rw [selects_idleWord h, idleWord_sclk h, idleWord_sdata h, Bool.and_false]

/-- A chip outside the mask is deselected throughout and keeps everything (R74). -/
theorem run_tailWords_off (hm : m.getLsbD c.val = false) (i : Nat) (prev : Word) (hp : selects p prev c = false) (ch : Chip) :
    ch.run p c prev (tailWords p m f i) = ch := by
  induction i generalizing prev with
  | zero =>
    simp only [tailWords, Chip.run, receive_loWord h, receive_hiWord_after_lo h, receive_idleWord h, selects_hiWord h,
      hm, hp, Chip.clocked_off]
  | succ i ih =>
    simp only [tailWords, Chip.run, receive_loWord h, receive_hiWord_after_lo h, hm, hp, Chip.clocked_off]
    exact ih _ (by rw [selects_hiWord h, hm])

/-- A chip inside the mask, already selected, takes the bits from `i` down and closes the frame. -/
theorem run_tailWords_on (hm : m.getLsbD c.val = true) (i : Nat) (prev : Word) (hp : selects p prev c = true) (ch : Chip) :
    ch.run p c prev (tailWords p m f i) = (ch.shiftBits f i).closeFrame := by
  induction i generalizing prev ch with
  | zero =>
    simp only [tailWords, Chip.run, receive_loWord h, receive_hiWord_after_lo h, receive_idleWord h, selects_hiWord h,
      hm, hp, Chip.clocked_hold, Chip.clocked_bit, Chip.clocked_close, Chip.shiftBits]
  | succ i ih =>
    simp only [tailWords, Chip.run, receive_loWord h, receive_hiWord_after_lo h, hm, hp, Chip.clocked_hold,
      Chip.clocked_bit]
    exact ih _ (by rw [selects_hiWord h, hm]) _

/-- A chip inside the mask, deselected before the first bit, receives a whole frame. -/
theorem run_tailWords_frame (hm : m.getLsbD c.val = true) (prev : Word) (hp : selects p prev c = false) (ch : Chip) :
    ch.run p c prev (tailWords p m f 23) = (ch.openFrame.shiftBits f 23).closeFrame := by
  rw [tailWords]
  simp only [Chip.run, receive_loWord h, receive_hiWord_after_lo h, hm, hp, Chip.clocked_open, Chip.clocked_bit]
  exact run_tailWords_on h m f c hm 22 _ (by rw [selects_hiWord h, hm]) _

end

theorem frame_addr (a : BitVec 8) (v : BitVec 16) : (frame a v).extractLsb' 16 8 = a := by
  ext i hi
  have : (frame a v).getLsbD (16 + i) = BitVec.getLsbD (w := 8 + 16) (a ++ v) (16 + i) := rfl
  rw [BitVec.getElem_extractLsb', this, BitVec.getLsbD_append]
  simp [hi]

theorem frame_value (a : BitVec 8) (v : BitVec 16) : (frame a v).extractLsb' 0 16 = v := by
  ext i hi
  have : (frame a v).getLsbD (0 + i) = BitVec.getLsbD (w := 8 + 16) (a ++ v) (0 + i) := rfl
  rw [BitVec.getElem_extractLsb', this, BitVec.getLsbD_append]
  simp [hi]

/-- The words of one whole cycle. -/
def cycleWords (p : Params) (m : BitVec 4) (a : BitVec 8) (v : BitVec 16) : List Word :=
  idleWord p :: tailWords p m (frame a v) 23

/-- The device after one whole cycle. -/
def Device.afterCycle (p : Params) (m : BitVec 4) (a : BitVec 8) (v : BitVec 16) (d : Device) : Device :=
  (cycleWords p m a v).foldl (fun d w => d.onCtrl0 p w) d

section
variable (p : Params) (m : BitVec 4) (a : BitVec 8) (v : BitVec 16) (d : Device)

theorem Device.afterCycle_rest :
    (d.afterCycle p m a v).capbuf = d.capbuf ∧ (d.afterCycle p m a v).ctrl1 = d.ctrl1 ∧
    (d.afterCycle p m a v).prev1 = d.prev1 ∧ (d.afterCycle p m a v).captures = d.captures :=
  Device.foldl_onCtrl0_rest p d _

theorem Device.afterCycle_ctrl0 :
    (d.afterCycle p m a v).ctrl0 = idleWord p ∧ (d.afterCycle p m a v).prev0 = idleWord p := by
  obtain ⟨ws, e⟩ := tailWords_eq_append p m (frame a v) 23
  have := Device.foldl_onCtrl0_last p d (idleWord p :: ws) (idleWord p)
  unfold Device.afterCycle cycleWords
  rw [e]
  exact this

end

section
variable {p : Params} (h : p.Ctrl0Wf) (m : BitVec 4) (a : BitVec 8) (v : BitVec 16) (d : Device) (c : Fin 4)
include h

/-- A chip outside the mask only sees the leading idle word. -/
theorem Device.afterCycle_chip_off (hm : m.getLsbD c.val = false) :
    (d.afterCycle p m a v).chips[c] = (d.onCtrl0 p (idleWord p)).chips[c] := by
  unfold Device.afterCycle cycleWords
  rw [Device.foldl_onCtrl0_chip, Device.onCtrl0_chip, Chip.run]
  exact run_tailWords_off h m _ c hm 23 _ (selects_idleWord h c) _

/-- A chip inside the mask latches the frame (R74). -/
theorem Device.afterCycle_chip_on (hm : m.getLsbD c.val = true) :
    (d.afterCycle p m a v).chips[c] =
      { (d.onCtrl0 p (idleWord p)).chips[c] with
        adcreg := (d.onCtrl0 p (idleWord p)).chips[c].adcreg.set a.toNat v a.isLt
        rxsr := frame a v
        rxcnt := 0 } := by
  unfold Device.afterCycle cycleWords
  rw [Device.foldl_onCtrl0_chip, Device.onCtrl0_chip, Chip.run,
    run_tailWords_frame h m _ c hm _ (selects_idleWord h c)]
  generalize d.chips[c].receive p d.prev0 (idleWord p) c = ch
  have h1 := Chip.shiftBits_rxcnt (frame a v) 23 ch.openFrame (by simp [Chip.openFrame])
  have h2 := Chip.shiftBits_rxsr (frame a v) ch.openFrame
  obtain ⟨h3, h4, h5⟩ := Chip.shiftBits_rest (frame a v) 23 ch.openFrame
  unfold Chip.closeFrame
  rw [if_pos (by rw [h1]; rfl)]
  unfold Chip.latch
  simp only [h2, h3, h4, h5, frame_addr, frame_value]
  rfl

/-- ADCREG after one whole cycle (R74, R137): the register of the selected chips, over what the leading idle word left. -/
theorem Device.afterCycle_adcreg (x : BitVec 8) :
    (d.afterCycle p m a v).chips[c].adcreg[x.toNat] =
      if m.getLsbD c.val = true ∧ x = a then v else (d.onCtrl0 p (idleWord p)).chips[c].adcreg[x.toNat] := by
  cases hm : m.getLsbD c.val
  · rw [Device.afterCycle_chip_off h m a v d c hm]
    simp
  · rw [Device.afterCycle_chip_on h m a v d c hm]
    simp only [Vector.getElem_set]
    by_cases hx : x = a
    · simp [hx]
    · have : ¬ a.toNat = x.toNat := fun e => hx (BitVec.eq_of_toNat_eq e.symm)
      simp [hx, this]

/-- TAP and SLIP are not touched by a serial cycle. -/
theorem Device.afterCycle_tap_slip :
    (d.afterCycle p m a v).chips[c].tap = d.chips[c].tap ∧ (d.afterCycle p m a v).chips[c].slip = d.chips[c].slip := by
  cases hm : m.getLsbD c.val
  · rw [Device.afterCycle_chip_off h m a v d c hm, Device.onCtrl0_chip]
    exact ⟨Chip.receive_tap _ _ _ _ _, Chip.receive_slip _ _ _ _ _⟩
  · rw [Device.afterCycle_chip_on h m a v d c hm, Device.onCtrl0_chip]
    exact ⟨Chip.receive_tap _ _ _ _ _, Chip.receive_slip _ _ _ _ _⟩

/-- The leading idle word leaves ADCREG alone unless a complete frame was still open (R74). -/
theorem Device.onCtrl0_idle_adcreg (hs : selects p d.prev0 c = true → d.chips[c].rxcnt ≠ 24) :
    (d.onCtrl0 p (idleWord p)).chips[c].adcreg = d.chips[c].adcreg := by
  rw [Device.onCtrl0_chip, receive_idleWord h]
  cases hp : selects p d.prev0 c
  · rw [Chip.clocked_off]
  · rw [Chip.clocked_close, Chip.closeFrame, if_neg (hs hp)]

/-- What the leading idle word leaves in ADCREG: a complete frame still open is latched (R74, R139). -/
theorem Device.onCtrl0_idle_closed (x : BitVec 8) :
    (d.onCtrl0 p (idleWord p)).chips[c].adcreg[x.toNat] = d.closedReg p c x := by
  unfold Device.closedReg
  by_cases hs : selects p d.prev0 c = true → d.chips[c].rxcnt ≠ 24
  · rw [Device.onCtrl0_idle_adcreg h d c hs, if_neg fun e => hs e.1 e.2.1]
  · rw [Classical.not_imp, not_not] at hs
    rw [Device.onCtrl0_chip, receive_idleWord h, hs.1, Chip.clocked_close, Chip.closeFrame, if_pos hs.2, Chip.latch]
    simp only [Vector.getElem_set]
    by_cases hx : x = d.chips[c].rxsr.extractLsb' 16 8
    · rw [if_pos (by rw [hx]), if_pos ⟨trivial, hs.2, hx⟩]
    · rw [if_neg fun e => hx (BitVec.eq_of_toNat_eq e.symm), if_neg fun e => hx e.2.2]

/-- After an idle word no chip has a frame open. -/
theorem Device.onCtrl0_idle_again (w : Word) (hw : selects p w c = false) (hd : d.prev0 = w) :
    (d.onCtrl0 p (idleWord p)).chips[c] = d.chips[c] := by
  rw [Device.onCtrl0_chip, receive_idleWord h, hd, hw, Chip.clocked_off]

end

/-! ### Several cycles -/

/-- A completed run of serial writes: every cycle's words in order. -/
theorem serialWrites_eq_go {ws : List (BitVec 8 × BitVec 16)} {s t : State} (h : serialWrites ws s = .go t) :
    t = s.wrote0 (ws.flatMap fun av => cycleWords s.params s.csmask av.1 av.2) t.work := by
  induction ws generalizing s with
  | nil => cases h; simp [State.wrote0]
  | cons av ws ih =>
    obtain ⟨m, h1, h2⟩ := Flow.andThen_eq_go.mp h
    have e := ih h2
    rw [serialWrite_eq_go h1, State.wrote0_wrote0] at e
    exact e

/-- The working registers after at least one cycle. -/
theorem serialWrites_work {ws : List (BitVec 8 × BitVec 16)} (hne : ws ≠ []) {s t : State} (h : serialWrites ws s = .go t) :
    t.work = { s.work with sr := t.work.sr, bitidx := 0, phase := .idle, substep := t.work.substep } := by
  induction ws generalizing s with
  | nil => exact absurd rfl hne
  | cons av ws ih =>
    obtain ⟨m, h1, h2⟩ := Flow.andThen_eq_go.mp h
    have e := serialWrite_eq_go h1
    by_cases hw : ws = []
    · subst hw
      cases h2
      rw [e]
      rfl
    · rw [ih hw h2, e]
      rfl

section
variable {p : Params} (h : p.Ctrl0Wf) (m : BitVec 4) (c : Fin 4)

/-- The device after several cycles. -/
def Device.afterCycles (p : Params) (m : BitVec 4) (ws : List (BitVec 8 × BitVec 16)) (d : Device) : Device :=
  (ws.flatMap fun av => cycleWords p m av.1 av.2).foldl (fun d w => d.onCtrl0 p w) d

/-- The device after a completed run of serial writes. -/
theorem serialWrites_dev {ws : List (BitVec 8 × BitVec 16)} {s t : State} (h : serialWrites ws s = .go t) :
    t.dev = s.dev.afterCycles s.params s.csmask ws := congrArg State.dev (serialWrites_eq_go h)

theorem Device.afterCycles_cons (p : Params) (m : BitVec 4) (av : BitVec 8 × BitVec 16) (ws : List (BitVec 8 × BitVec 16)) (d : Device) :
    d.afterCycles p m (av :: ws) = (d.afterCycle p m av.1 av.2).afterCycles p m ws := by
  unfold Device.afterCycles Device.afterCycle
  rw [List.flatMap_cons, List.foldl_append]

theorem Device.afterCycles_ctrl0 (p : Params) (m : BitVec 4) {ws : List (BitVec 8 × BitVec 16)} (hne : ws ≠ []) (d : Device) :
    (d.afterCycles p m ws).ctrl0 = idleWord p ∧ (d.afterCycles p m ws).prev0 = idleWord p := by
  induction ws generalizing d with
  | nil => exact absurd rfl hne
  | cons av ws ih =>
    rw [Device.afterCycles_cons]
    by_cases hw : ws = []
    · subst hw
      exact Device.afterCycle_ctrl0 p m av.1 av.2 d
    · exact ih hw _

include h

/-- ADCREG after several cycles, no complete frame having been open (R74, R137): the last value written to a register wins. -/
theorem Device.afterCycles_adcreg (x : BitVec 8) (ws : List (BitVec 8 × BitVec 16)) (d : Device)
    (hd : selects p d.prev0 c = true → d.chips[c].rxcnt ≠ 24) :
    (d.afterCycles p m ws).chips[c].adcreg[x.toNat] =
      ws.foldl (fun r av => if m.getLsbD c.val = true ∧ x = av.1 then av.2 else r) d.chips[c].adcreg[x.toNat] := by
  induction ws generalizing d with
  | nil => rfl
  | cons av ws ih =>
    have hp0 := (Device.afterCycle_ctrl0 p m av.1 av.2 d).2
    rw [Device.afterCycles_cons, ih _ (by rw [hp0, selects_idleWord h]; simp), List.foldl_cons,
      Device.afterCycle_adcreg h, Device.onCtrl0_idle_adcreg h d c hd]

/-- ADCREG after at least one cycle, whatever the receivers held before (R74, R137): the first cycle's leading idle word closes a frame
left open, and then the last value written to a register wins. -/
theorem Device.afterCycles_adcreg_closed (x : BitVec 8) {ws : List (BitVec 8 × BitVec 16)} (hne : ws ≠ []) (d : Device) :
    (d.afterCycles p m ws).chips[c].adcreg[x.toNat] =
      ws.foldl (fun r av => if m.getLsbD c.val = true ∧ x = av.1 then av.2 else r) (d.closedReg p c x) := by
  cases ws with
  | nil => exact absurd rfl hne
  | cons av ws =>
    have hp0 := (Device.afterCycle_ctrl0 p m av.1 av.2 d).2
    rw [Device.afterCycles_cons, Device.afterCycles_adcreg h m c x ws _ (by rw [hp0, selects_idleWord h]; simp), List.foldl_cons,
      Device.afterCycle_adcreg h, Device.onCtrl0_idle_closed h]

/-- What several cycles leave of a chip. -/
theorem Device.afterCycles_chip {ws : List (BitVec 8 × BitVec 16)} (hne : ws ≠ []) (d : Device) :
    (d.afterCycles p m ws).chips[c].tap = d.chips[c].tap ∧ (d.afterCycles p m ws).chips[c].slip = d.chips[c].slip ∧
    (m.getLsbD c.val = true → (d.afterCycles p m ws).chips[c].rxcnt = 0) ∧
    (m.getLsbD c.val = false → (selects p d.prev0 c = true → d.chips[c].rxcnt ≠ 24) →
      (d.afterCycles p m ws).chips[c].adcreg = d.chips[c].adcreg) := by
  induction ws generalizing d with
  | nil => exact absurd rfl hne
  | cons av ws ih =>
    rw [Device.afterCycles_cons]
    obtain ⟨g1, g2⟩ := Device.afterCycle_tap_slip h m av.1 av.2 d c
    have off (hm : m.getLsbD c.val = false) (hs : selects p d.prev0 c = true → d.chips[c].rxcnt ≠ 24) :
        (d.afterCycle p m av.1 av.2).chips[c].adcreg = d.chips[c].adcreg := by
      rw [Device.afterCycle_chip_off h m av.1 av.2 d c hm, Device.onCtrl0_idle_adcreg h d c hs]
    by_cases hw : ws = []
    · subst hw
      refine ⟨g1, g2, fun hm => ?_, off⟩
      show (d.afterCycle p m av.1 av.2).chips[c].rxcnt = 0
      rw [Device.afterCycle_chip_on h m av.1 av.2 d c hm]
    · obtain ⟨h1, h2, h3, h4⟩ := ih hw (d.afterCycle p m av.1 av.2)
      refine ⟨h1.trans g1, h2.trans g2, h3, fun hm hs => (h4 hm ?_).trans (off hm hs)⟩
      rw [(Device.afterCycle_ctrl0 p m av.1 av.2 d).2, selects_idleWord h]
      simp

end

end Sys2Proof.Machine
end

