-- ==== Sys2Proof/Laws/Sync.lean ====
section
/-! SUPPORT. What completed synchronisations and calibrations do (R213 to R222). -/

namespace Sys2Proof.Machine

/-! ### One bit-slip pulse -/

/-- The state after `SlipPulse(S)`. -/
def State.slipped (set : BitVec 4) (s : State) : State :=
  s.pulsed zeroWord (slipWord s.params set) zeroWord { s.dev.zeroed with chips := slipChips set s.dev.chips } s.env.captures

theorem slipPulse_eq_slipped {set : BitVec 4} {s t : State} (hw : s.params.Ctrl1Wf) (h : slipPulse set s = .go t) :
    t = s.slipped set := slipPulse_eq_go hw h

section
variable (set : BitVec 4) (s : State)

@[simp] theorem State.slipped_params : (s.slipped set).params = s.params := rfl
@[simp] theorem State.slipped_res : (s.slipped set).res = s.res := rfl
@[simp] theorem State.slipped_work : (s.slipped set).work = { s.work with substep := s.work.substep + 3 } := rfl
@[simp] theorem State.slipped_captures : (s.slipped set).env.captures = s.env.captures := rfl
@[simp] theorem State.slipped_dev :
    (s.slipped set).dev = { s.dev.zeroed with chips := slipChips set s.dev.chips } := rfl
theorem State.slipped_port : (s.slipped set).port = (slipTrace s.params set).reverse ++ s.port := rfl

end

/-! ### One chip -/

/-- The state after the loop of `SyncChip(c)` with `n` attempts left (R214). -/
def State.syncRun (c : Fin 4) : Nat → State → State
  | 0, s => s
  | n + 1, s =>
    if (s.snapped (oneOf c) 1).syncMatch c then s.snapped (oneOf c) 1
    else State.syncRun c n (((s.snapped (oneOf c) 1).slipped (oneOf c)).setWork
      { ((s.snapped (oneOf c) 1).slipped (oneOf c)).work with
        attempt := ((s.snapped (oneOf c) 1).slipped (oneOf c)).work.attempt + 1 })

/-- The state when the next attempt of the loop starts, after a capture that did not match. -/
def State.nextAttempt (c : Fin 4) (s : State) : State :=
  ((s.snapped (oneOf c) 1).slipped (oneOf c)).setWork
    { ((s.snapped (oneOf c) 1).slipped (oneOf c)).work with
      attempt := ((s.snapped (oneOf c) 1).slipped (oneOf c)).work.attempt + 1 }

theorem State.syncRun_succ (c : Fin 4) (n : Nat) (s : State) :
    s.syncRun c (n + 1) =
      if (s.snapped (oneOf c) 1).syncMatch c then s.snapped (oneOf c) 1 else (s.nextAttempt c).syncRun c n := rfl

theorem syncLoop_eq_go {c : Fin 4} {n : Nat} {s t : State} (hw : s.params.Ctrl1Wf) (h : syncLoop c n s = .go t) :
    t = s.syncRun c n := by
  induction n generalizing s with
  | zero => cases h; rfl
  | succ n ih =>
    obtain ⟨m, h1, h⟩ := Flow.andThen_eq_go.mp h
    have e1 := snapshot_eq_go hw h1
    subst e1
    rw [State.syncRun_succ]
    split at h
    · rename_i hm
      rw [if_pos hm]
      cases h
      rfl
    · rename_i hm
      rw [if_neg hm]
      obtain ⟨m, h2, h⟩ := Flow.andThen_eq_go.mp h
      have e2 := slipPulse_eq_slipped (s := s.snapped (oneOf c) 1) hw h2
      subst e2
      exact ih (s := s.nextAttempt c) hw h

section
variable (c : Fin 4) (s : State)

@[simp] theorem State.nextAttempt_params : (s.nextAttempt c).params = s.params := rfl
@[simp] theorem State.nextAttempt_expect : (s.nextAttempt c).work.expect = s.work.expect := rfl
@[simp] theorem State.nextAttempt_curchip : (s.nextAttempt c).work.curchip = s.work.curchip := rfl
@[simp] theorem State.nextAttempt_attempt : (s.nextAttempt c).work.attempt = s.work.attempt + 1 := rfl
@[simp] theorem State.nextAttempt_captures : (s.nextAttempt c).env.captures = s.env.captures.tail := rfl
@[simp] theorem State.nextAttempt_chips : (s.nextAttempt c).dev.chips = slipChips (oneOf c) s.dev.chips := rfl
@[simp] theorem State.nextAttempt_ctrl0 : (s.nextAttempt c).dev.ctrl0 = s.dev.ctrl0 := rfl
@[simp] theorem State.nextAttempt_prev0 : (s.nextAttempt c).dev.prev0 = s.dev.prev0 := rfl
@[simp] theorem State.nextAttempt_errcnt : (s.nextAttempt c).res.errcnt = s.res.errcnt := rfl
@[simp] theorem State.nextAttempt_good : (s.nextAttempt c).res.good = s.res.good := rfl
@[simp] theorem State.nextAttempt_calValid : (s.nextAttempt c).res.calValid = s.res.calValid := rfl
@[simp] theorem State.nextAttempt_calChip : (s.nextAttempt c).res.calChip = s.res.calChip := rfl
@[simp] theorem State.nextAttempt_syncok : (s.nextAttempt c).res.syncok = s.res.syncok := rfl
@[simp] theorem State.nextAttempt_syncValid : (s.nextAttempt c).res.syncValid = s.res.syncValid := rfl

theorem State.nextAttempt_port :
    (s.nextAttempt c).port = (snapTrace s.params (oneOf c) 1 ++ slipTrace s.params (oneOf c)).reverse ++ s.port := by
  show ((s.snapped (oneOf c) 1).slipped (oneOf c)).port = _
  rw [State.slipped_port, State.snapped_port]
  simp

end

/-- The registers the loop carries along. -/
theorem State.syncRun_keeps (c : Fin 4) (n : Nat) (s : State) :
    (s.syncRun c n).params = s.params ∧ (s.syncRun c n).work.expect = s.work.expect ∧
    (s.syncRun c n).work.curchip = s.work.curchip ∧ (s.syncRun c n).dev.ctrl0 = s.dev.ctrl0 ∧
    (s.syncRun c n).dev.prev0 = s.dev.prev0 ∧ (s.syncRun c n).res.errcnt = s.res.errcnt ∧
    (s.syncRun c n).res.good = s.res.good ∧ (s.syncRun c n).res.calValid = s.res.calValid ∧
    (s.syncRun c n).res.calChip = s.res.calChip ∧ (s.syncRun c n).res.syncok = s.res.syncok ∧
    (s.syncRun c n).res.syncValid = s.res.syncValid := by
  induction n generalizing s with
  | zero => exact ⟨rfl, rfl, rfl, rfl, rfl, rfl, rfl, rfl, rfl, rfl, rfl⟩
  | succ n ih =>
    rw [State.syncRun_succ]
    split
    · exact ⟨rfl, rfl, rfl, rfl, rfl, rfl, rfl, rfl, rfl, rfl, rfl⟩
    · obtain ⟨h1, h2, h3, h4, h5, h6, h7, h8, h9, h10, h11⟩ := ih (s.nextAttempt c)
      exact ⟨h1, h2, h3, h4, h5, h6, h7, h8, h9, h10, h11⟩

/-- Other chips, and everything of a chip but SLIP, are untouched (R214). -/
theorem State.syncRun_chip (c : Fin 4) (n : Nat) (s : State) (c' : Fin 4) :
    (s.syncRun c n).dev.chips[c'].adcreg = s.dev.chips[c'].adcreg ∧ (s.syncRun c n).dev.chips[c'].tap = s.dev.chips[c'].tap ∧
    (s.syncRun c n).dev.chips[c'].rxsr = s.dev.chips[c'].rxsr ∧ (s.syncRun c n).dev.chips[c'].rxcnt = s.dev.chips[c'].rxcnt ∧
    (c' ≠ c → (s.syncRun c n).dev.chips[c'].slip = s.dev.chips[c'].slip) := by
  induction n generalizing s with
  | zero => exact ⟨rfl, rfl, rfl, rfl, fun _ => rfl⟩
  | succ n ih =>
    rw [State.syncRun_succ]
    split
    · exact ⟨rfl, rfl, rfl, rfl, fun _ => rfl⟩
    · obtain ⟨h1, h2, h3, h4, h5⟩ := ih (s.nextAttempt c)
      have e : (s.nextAttempt c).dev.chips[c'] =
          { s.dev.chips[c'] with
            slip := if (oneOf c).getLsbD c'.val then s.dev.chips[c'].slip + 1 else s.dev.chips[c'].slip } := by
        rw [State.nextAttempt_chips, slipChips_chip]
      rw [e] at h1 h2 h3 h4 h5
      refine ⟨h1, h2, h3, h4, fun hc => (h5 hc).trans ?_⟩
      rw [oneOf_bit, decide_eq_false hc]
      rfl

/-- The samples of a one-column capture given as data (R165). -/
theorem State.snapped_sample (c : Fin 4) (s : State) {k : Capture} {ks : List Capture} (h : s.env.captures = k :: ks) (lane : Fin 4) :
    (s.snapped (oneOf c) 1).res.samples[c][lane][(0 : Fin 1024)] = k.sample s.params.byteOrder c lane 1 0 := by
  have hc : (oneOf c).getLsbD c.val = true := by rw [oneOf_bit]; simp
  have hl := lane.isLt
  have hn : s.nextCapture = k.word := by
    unfold State.nextCapture
    rw [h]
  refine (State.snapped_samples (n := 1) (s := s) hc lane 0 (by decide)).trans ?_
  unfold State.capturedDev Capture.sample
  rw [Device.stream_capture _ _ _ _ _ (by unfold stride; omega), hn, List.getD_eq_getElem?_getD, List.getElem?_map,
    List.getElem?_range (by simp)]
  rfl

/-- The match of R214 after a capture given as data. -/
theorem State.snapped_syncMatch (c : Fin 4) (s : State) {k : Capture} {ks : List Capture} (h : s.env.captures = k :: ks) :
    (s.snapped (oneOf c) 1).syncMatch c = k.shows s.params.byteOrder c s.work.expect := by
  have e : (s.snapped (oneOf c) 1).res.samples[c][0][0] = conv (k.streamByte s.params.byteOrder c 0) := State.snapped_sample c s h 0
  unfold State.syncMatch Capture.shows
  rw [e]
  rfl

/-- How many captures the loop takes with `n` attempts left and `q` pulses: one more if it exits early (R215). -/
def loopCaptures (q n : Nat) : Nat := if q < n then q + 1 else q

/-- The trace of the loop with `n` attempts left and `q` pulses (R214). -/
def loopTrace (p : Params) (c : Fin 4) (q n : Nat) : List TOp :=
  (List.replicate q (snapTrace p (oneOf c) 1 ++ slipTrace p (oneOf c))).flatten ++
    if q < n then snapTrace p (oneOf c) 1 else []

theorem loopCaptures_succ (q n : Nat) : loopCaptures (q + 1) (n + 1) = loopCaptures q n + 1 := by
  unfold loopCaptures
  grind

theorem syncCaptures_eq {q : Nat} (h : q ≤ 8) : syncCaptures q = loopCaptures q 8 + 1 := by
  unfold syncCaptures loopCaptures
  grind

theorem loopTrace_succ (p : Params) (c : Fin 4) (q n : Nat) :
    loopTrace p c (q + 1) (n + 1) = (snapTrace p (oneOf c) 1 ++ slipTrace p (oneOf c)) ++ loopTrace p c q n := by
  unfold loopTrace
  rw [List.replicate_succ, List.flatten_cons, List.append_assoc]
  by_cases h : q < n
  · rw [if_pos h, if_pos (by omega)]
  · rw [if_neg h, if_neg (by omega)]

/-- With the captures given as data: captures used, pulses, trace (R214, R215). -/
theorem State.syncRun_script (c : Fin 4) (n : Nat) (s : State) (hl : n ≤ s.env.captures.length) (q : Nat)
    (hq : syncPulses s.params.byteOrder c s.work.expect n s.env.captures = q) :
    (s.syncRun c n).env.captures = s.env.captures.drop (loopCaptures q n) ∧
    (s.syncRun c n).dev.chips[c].slip = s.dev.chips[c].slip + q ∧
    (s.syncRun c n).port = (loopTrace s.params c q n).reverse ++ s.port ∧ q ≤ n := by
  induction n generalizing s q with
  | zero =>
    subst hq
    exact ⟨rfl, rfl, rfl, Nat.le_refl _⟩
  | succ n ih =>
    cases hcap : s.env.captures with
    | nil => rw [hcap] at hl; simp at hl
    | cons k ks =>
      have hm := State.snapped_syncMatch c s hcap
      rw [State.syncRun_succ, hm]
      rw [hcap, syncPulses] at hq
      by_cases hk : k.shows s.params.byteOrder c s.work.expect = true
      · rw [if_pos hk] at hq ⊢
        subst hq
        refine ⟨?_, rfl, ?_, by omega⟩
        · rw [State.snapped_captures, hcap]
          rfl
        · rw [State.snapped_port]
          rfl
      · rw [if_neg hk] at hq ⊢
        have hks : (s.nextAttempt c).env.captures = ks := by rw [State.nextAttempt_captures, hcap]; rfl
        obtain ⟨h1, h2, h3, h4⟩ := ih (s.nextAttempt c) (by rw [hks]; rw [hcap] at hl; simpa using hl) _ (by rw [hks])
        subst hq
        simp only [State.nextAttempt_params, State.nextAttempt_expect] at h1 h2 h3 h4
        refine ⟨?_, ?_, ?_, by omega⟩
        · rw [h1, hks, loopCaptures_succ, List.drop_succ_cons]
        · rw [h2, State.nextAttempt_chips, slipChips_chip, oneOf_bit, decide_eq_true rfl, if_pos rfl, Nat.add_assoc, Nat.add_comm 1]
        · rw [h3, State.nextAttempt_port, loopTrace_succ]
          simp only [List.reverse_append, List.append_assoc]

/-- The state after `SyncChip(c)` (R214). -/
def State.synced (c : Fin 4) (s : State) : State :=
  ((((s.setWork { s.work with curchip := c, attempt := 0 }).syncRun c 8).snapped (oneOf c) 1).verdict c)

theorem syncChip_eq_go {c : Fin 4} {s t : State} (hw : s.params.Ctrl1Wf) (h : syncChip c s = .go t) : t = s.synced c := by
  obtain ⟨m, h, h3⟩ := Flow.andThen_eq_go.mp h
  obtain ⟨m', h1, h2⟩ := Flow.andThen_eq_go.mp h
  cases h3
  have e1 := syncLoop_eq_go (s := s.setWork { s.work with curchip := c, attempt := 0 }) hw h1
  subst e1
  rw [snapshot_eq_go (by rw [(State.syncRun_keeps c 8 _).1]; exact hw) h2]
  rfl

/-- The verdict on one chip is that chip's alone (R214). -/
theorem State.verdict_syncok (c c' : Fin 4) (s : State) :
    (s.verdict c).res.syncok[c'] = if c' = c then s.syncMatch c else s.res.syncok[c'] := by
  show (s.res.syncok.set c.val (s.syncMatch c) c.isLt)[c'.val]'c'.isLt = _
  rw [Vector.getElem_set]
  by_cases h : c' = c
  · rw [if_pos h, if_pos (by rw [h])]
  · rw [if_neg h, if_neg fun e => h (Fin.ext e.symm)]
    rfl

/-- What synchronising one chip keeps. -/
theorem State.synced_keeps (c : Fin 4) (s : State) :
    (s.synced c).params = s.params ∧ (s.synced c).work.expect = s.work.expect ∧
    (s.synced c).dev.ctrl0 = s.dev.ctrl0 ∧ (s.synced c).dev.prev0 = s.dev.prev0 ∧
    (s.synced c).res.errcnt = s.res.errcnt ∧ (s.synced c).res.good = s.res.good ∧
    (s.synced c).res.calValid = s.res.calValid ∧ (s.synced c).res.calChip = s.res.calChip ∧
    (s.synced c).res.syncValid = s.res.syncValid ∧ (s.synced c).res.sampleLen = 1 ∧
    (s.synced c).res.sampleValid = oneOf c ∧ (s.synced c).dev.ctrl1 = zeroWord ∧ (s.synced c).dev.prev1 = zeroWord ∧
    (∀ c' : Fin 4, c' ≠ c → (s.synced c).res.syncok[c'] = s.res.syncok[c']) ∧
    (s.synced c).res.syncok[c] = (s.synced c).syncMatch c := by
  obtain ⟨h1, h2, h3, h4, h5, h6, h7, h8, h9, h10, h11⟩ :=
    State.syncRun_keeps c 8 (s.setWork { s.work with curchip := c, attempt := 0 })
  generalize hr : (s.setWork { s.work with curchip := c, attempt := 0 }).syncRun c 8 = r at *
  have hs : s.synced c = (r.snapped (oneOf c) 1).verdict c := by rw [← hr]; rfl
  rw [hs]
  refine ⟨h1, h2, h4, h5, h6, h7, h8, h9, h11, rfl, rfl, rfl, rfl, ?_, ?_⟩
  · intro c' hc
    have e : r.res.syncok = s.res.syncok := h10
    rw [State.verdict_syncok, if_neg hc, State.snapped_syncok, e]
  · rw [State.verdict_syncok, if_pos rfl]
    rfl

theorem State.synced_chip (c : Fin 4) (s : State) (c' : Fin 4) :
    (s.synced c).dev.chips[c'].adcreg = s.dev.chips[c'].adcreg ∧ (s.synced c).dev.chips[c'].tap = s.dev.chips[c'].tap ∧
    (s.synced c).dev.chips[c'].rxsr = s.dev.chips[c'].rxsr ∧ (s.synced c).dev.chips[c'].rxcnt = s.dev.chips[c'].rxcnt ∧
    (c' ≠ c → (s.synced c).dev.chips[c'].slip = s.dev.chips[c'].slip) :=
  State.syncRun_chip c 8 (s.setWork { s.work with curchip := c, attempt := 0 }) c'

/-- With the captures given as data, one chip's synchronisation (R214, R215, R217). -/
theorem State.synced_script (c : Fin 4) (s : State) (hl : 9 ≤ s.env.captures.length) :
    (s.synced c).env.captures =
      s.env.captures.drop (syncCaptures (syncPulses s.params.byteOrder c s.work.expect 8 s.env.captures)) ∧
    (s.synced c).dev.chips[c].slip =
      s.dev.chips[c].slip + syncPulses s.params.byteOrder c s.work.expect 8 s.env.captures ∧
    (s.synced c).port =
      (syncChipTrace s.params c (syncPulses s.params.byteOrder c s.work.expect 8 s.env.captures)).reverse ++ s.port ∧
    (s.synced c).res.syncok[c] = syncVerdict s.params.byteOrder c s.work.expect s.env.captures ∧
    syncPulses s.params.byteOrder c s.work.expect 8 s.env.captures ≤ 8 := by
  have k := State.syncRun_keeps c 8 (s.setWork { s.work with curchip := c, attempt := 0 })
  obtain ⟨h1, h2, h3, h4⟩ := State.syncRun_script c 8 (s.setWork { s.work with curchip := c, attempt := 0 })
    (by rw [State.setWork_env]; omega) _ rfl
  generalize hr : (s.setWork { s.work with curchip := c, attempt := 0 }).syncRun c 8 = r at h1 h2 h3 k
  have hs : s.synced c = (r.snapped (oneOf c) 1).verdict c := by rw [← hr]; rfl
  simp only [State.setWork_params, State.setWork_work, State.setWork_env, State.setWork_dev, State.setWork_port] at h1 h2 h3 h4 k
  have hcap := syncCaptures_eq h4
  refine ⟨?_, ?_, ?_, ?_, h4⟩
  · rw [hs, State.verdict_env, State.snapped_captures, h1, hcap, List.tail_drop]
  · rw [hs]
    exact h2
  · rw [hs, State.verdict_port, State.snapped_port, k.1, h3]
    unfold syncChipTrace loopTrace
    split <;> simp
  · rw [(State.synced_keeps c s).2.2.2.2.2.2.2.2.2.2.2.2.2.2, hs]
    show (r.snapped (oneOf c) 1).syncMatch c = _
    unfold syncVerdict
    rw [hcap, Nat.add_sub_cancel]
    have hlt : loopCaptures (syncPulses s.params.byteOrder c s.work.expect 8 s.env.captures) 8 < s.env.captures.length := by
      unfold loopCaptures
      grind
    rw [List.getElem?_eq_getElem hlt]
    have hd := List.drop_eq_getElem_cons hlt
    rw [← h1] at hd
    rw [State.snapped_syncMatch c r hd, k.1, k.2.1]

/-- SAMPLES after one chip's synchronisation: those of its final capture (R216). -/
theorem State.synced_samples (c : Fin 4) (s : State) (hl : 9 ≤ s.env.captures.length) {k : Capture}
    (hk : s.env.captures[syncCaptures (syncPulses s.params.byteOrder c s.work.expect 8 s.env.captures) - 1]? = some k) (lane : Fin 4) :
    (s.synced c).res.samples[c][lane][(0 : Fin 1024)] = k.sample s.params.byteOrder c lane 1 0 := by
  have hp := (State.syncRun_keeps c 8 (s.setWork { s.work with curchip := c, attempt := 0 })).1
  obtain ⟨h1, -, -, h4⟩ := State.syncRun_script c 8 (s.setWork { s.work with curchip := c, attempt := 0 })
    (by rw [State.setWork_env]; omega) _ rfl
  generalize hr : (s.setWork { s.work with curchip := c, attempt := 0 }).syncRun c 8 = r at h1 hp
  have hs : s.synced c = (r.snapped (oneOf c) 1).verdict c := by rw [← hr]; rfl
  simp only [State.setWork_params, State.setWork_work, State.setWork_env] at h1 h4 hp
  rw [syncCaptures_eq h4, Nat.add_sub_cancel] at hk
  obtain ⟨hlt, e⟩ := List.getElem?_eq_some_iff.mp hk
  have hd := List.drop_eq_getElem_cons hlt
  rw [← h1, e] at hd
  rw [hs, ← hp]
  exact State.snapped_sample c r hd lane

/-- The pulses of one chip's synchronisation are at most 8 (R214, R217). -/
theorem State.syncRun_slip (c : Fin 4) (n : Nat) (s : State) :
    s.dev.chips[c].slip ≤ (s.syncRun c n).dev.chips[c].slip ∧ (s.syncRun c n).dev.chips[c].slip ≤ s.dev.chips[c].slip + n := by
  induction n generalizing s with
  | zero => exact ⟨Nat.le_refl _, Nat.le_refl _⟩
  | succ n ih =>
    rw [State.syncRun_succ]
    split
    · exact ⟨Nat.le_refl _, Nat.le_add_right _ _⟩
    · obtain ⟨h1, h2⟩ := ih (s.nextAttempt c)
      have e : (s.nextAttempt c).dev.chips[c].slip = s.dev.chips[c].slip + 1 := by
        rw [State.nextAttempt_chips, slipChips_chip, oneOf_bit, decide_eq_true rfl, if_pos rfl]
      omega

theorem State.synced_slip (c : Fin 4) (s : State) :
    s.dev.chips[c].slip ≤ (s.synced c).dev.chips[c].slip ∧ (s.synced c).dev.chips[c].slip ≤ s.dev.chips[c].slip + 8 :=
  State.syncRun_slip c 8 (s.setWork { s.work with curchip := c, attempt := 0 })

/-- Whatever the captures, the loop's pulses, slips and operations (R214, R215). -/
theorem State.syncRun_trace (c : Fin 4) (n : Nat) (s : State) :
    ∃ q, q ≤ n ∧ (s.syncRun c n).dev.chips[c].slip = s.dev.chips[c].slip + q ∧
      (s.syncRun c n).port = (loopTrace s.params c q n).reverse ++ s.port := by
  induction n generalizing s with
  | zero => exact ⟨0, Nat.le_refl _, rfl, rfl⟩
  | succ n ih =>
    rw [State.syncRun_succ]
    split
    · exact ⟨0, Nat.zero_le _, rfl, State.snapped_port _ _ s⟩
    · obtain ⟨q, h1, h2, h3⟩ := ih (s.nextAttempt c)
      refine ⟨q + 1, Nat.succ_le_succ h1, ?_, ?_⟩
      · rw [h2, State.nextAttempt_chips, slipChips_chip, oneOf_bit, decide_eq_true rfl, if_pos rfl, Nat.add_assoc, Nat.add_comm 1]
      · rw [h3, State.nextAttempt_port, loopTrace_succ, State.nextAttempt_params]
        simp only [List.reverse_append, List.append_assoc]

theorem State.synced_trace (c : Fin 4) (s : State) :
    ∃ q, q ≤ 8 ∧ (s.synced c).dev.chips[c].slip = s.dev.chips[c].slip + q ∧
      (s.synced c).port = (syncChipTrace s.params c q).reverse ++ s.port := by
  have k := (State.syncRun_keeps c 8 (s.setWork { s.work with curchip := c, attempt := 0 })).1
  obtain ⟨q, h1, h2, h3⟩ := State.syncRun_trace c 8 (s.setWork { s.work with curchip := c, attempt := 0 })
  generalize hr : (s.setWork { s.work with curchip := c, attempt := 0 }).syncRun c 8 = r at h2 h3 k
  have hs : s.synced c = (r.snapped (oneOf c) 1).verdict c := by rw [← hr]; rfl
  refine ⟨q, h1, by rw [hs]; exact h2, ?_⟩
  rw [hs, State.verdict_port, State.snapped_port, k, h3, State.setWork_params, State.setWork_port]
  unfold syncChipTrace loopTrace
  split <;> simp

/-! ### Several chips -/

/-- The state after the chips `cs` have been synchronised in order. -/
def State.syncedAll (cs : List (Fin 4)) (s : State) : State := cs.foldl (fun s c => s.synced c) s

theorem State.syncedAll_cons (c : Fin 4) (cs : List (Fin 4)) (s : State) : s.syncedAll (c :: cs) = (s.synced c).syncedAll cs := rfl

theorem syncChips_eq_go {cs : List (Fin 4)} {s t : State} (hw : s.params.Ctrl1Wf) (h : Flow.each syncChip cs s = .go t) :
    t = s.syncedAll cs := by
  induction cs generalizing s with
  | nil => cases h; rfl
  | cons c cs ih =>
    obtain ⟨m, h1, h2⟩ := Flow.andThen_eq_go.mp h
    have e := syncChip_eq_go hw h1
    subst e
    exact ih (by rw [(State.synced_keeps c s).1]; exact hw) h2

/-- What synchronising several chips keeps. -/
theorem State.syncedAll_keeps (cs : List (Fin 4)) (s : State) :
    (s.syncedAll cs).params = s.params ∧ (s.syncedAll cs).work.expect = s.work.expect ∧
    (s.syncedAll cs).dev.ctrl0 = s.dev.ctrl0 ∧ (s.syncedAll cs).dev.prev0 = s.dev.prev0 ∧
    (s.syncedAll cs).res.errcnt = s.res.errcnt ∧ (s.syncedAll cs).res.good = s.res.good ∧
    (s.syncedAll cs).res.calValid = s.res.calValid ∧ (s.syncedAll cs).res.calChip = s.res.calChip ∧
    ∀ c ∉ cs, (s.syncedAll cs).res.syncok[c] = s.res.syncok[c] := by
  induction cs generalizing s with
  | nil => exact ⟨rfl, rfl, rfl, rfl, rfl, rfl, rfl, rfl, fun _ _ => rfl⟩
  | cons c cs ih =>
    obtain ⟨h1, h2, h3, h4, h5, h6, h7, h8, h9⟩ := ih (s.synced c)
    obtain ⟨g1, g2, g3, g4, g5, g6, g7, g8, -, -, -, -, -, g9, -⟩ := State.synced_keeps c s
    rw [State.syncedAll_cons]
    refine ⟨h1.trans g1, h2.trans g2, h3.trans g3, h4.trans g4, h5.trans g5, h6.trans g6, h7.trans g7, h8.trans g8, fun c' hc => ?_⟩
    rw [List.mem_cons, not_or] at hc
    exact (h9 c' hc.2).trans (g9 c' hc.1)

theorem State.syncedAll_chip (cs : List (Fin 4)) (s : State) (c : Fin 4) :
    (s.syncedAll cs).dev.chips[c].adcreg = s.dev.chips[c].adcreg ∧ (s.syncedAll cs).dev.chips[c].tap = s.dev.chips[c].tap ∧
    (s.syncedAll cs).dev.chips[c].rxsr = s.dev.chips[c].rxsr ∧ (s.syncedAll cs).dev.chips[c].rxcnt = s.dev.chips[c].rxcnt ∧
    (c ∉ cs → (s.syncedAll cs).dev.chips[c].slip = s.dev.chips[c].slip) := by
  induction cs generalizing s with
  | nil => exact ⟨rfl, rfl, rfl, rfl, fun _ => rfl⟩
  | cons x cs ih =>
    obtain ⟨h1, h2, h3, h4, h5⟩ := ih (s.synced x)
    obtain ⟨g1, g2, g3, g4, g5⟩ := State.synced_chip x s c
    rw [State.syncedAll_cons]
    refine ⟨h1.trans g1, h2.trans g2, h3.trans g3, h4.trans g4, fun hc => ?_⟩
    rw [List.mem_cons, not_or] at hc
    exact (h5 hc.2).trans (g5 hc.1)

theorem State.syncedAll_slip (cs : List (Fin 4)) (hd : cs.Nodup) (s : State) (c : Fin 4) :
    s.dev.chips[c].slip ≤ (s.syncedAll cs).dev.chips[c].slip ∧ (s.syncedAll cs).dev.chips[c].slip ≤ s.dev.chips[c].slip + 8 := by
  induction cs generalizing s with
  | nil => exact ⟨Nat.le_refl _, Nat.le_add_right _ _⟩
  | cons x cs ih =>
    rw [State.syncedAll_cons]
    obtain ⟨hx, hcs⟩ := List.nodup_cons.mp hd
    obtain ⟨h1, h2⟩ := ih hcs (s.synced x)
    by_cases hc : c = x
    · subst hc
      rw [(State.syncedAll_chip cs (s.synced c) c).2.2.2.2 hx]
      exact State.synced_slip c s
    · have g := (State.synced_chip x s c).2.2.2.2 hc
      rw [g] at h1 h2
      exact ⟨h1, h2⟩

/-- What the last synchronised chip leaves (R166, R214). -/
theorem State.syncedAll_last (cs : List (Fin 4)) (s : State) (c : Fin 4) (h : cs.getLast? = some c) :
    (s.syncedAll cs).res.sampleLen = 1 ∧ (s.syncedAll cs).res.sampleValid = oneOf c ∧ (s.syncedAll cs).dev.ctrl1 = zeroWord ∧
    (s.syncedAll cs).dev.prev1 = zeroWord := by
  induction cs generalizing s with
  | nil => cases h
  | cons x cs ih =>
    rw [State.syncedAll_cons]
    cases cs with
    | nil =>
      obtain rfl : x = c := by simpa using h
      obtain ⟨-, -, -, -, -, -, -, -, -, h1, h2, h3, h4, -⟩ := State.synced_keeps x s
      exact ⟨h1, h2, h3, h4⟩
    | cons y cs => exact ih (s.synced x) (by simpa using h)

/-- Whatever the captures, the pulses, slips and operations of several chips (R213 to R215). -/
theorem State.syncedAll_trace (cs : List (Fin 4)) (hd : cs.Nodup) (s : State) :
    ∃ pulses : Fin 4 → Nat, (∀ c, pulses c ≤ 8) ∧
      (∀ c ∈ cs, (s.syncedAll cs).dev.chips[c].slip = s.dev.chips[c].slip + pulses c) ∧
      (s.syncedAll cs).port = (cs.flatMap fun c => syncChipTrace s.params c (pulses c)).reverse ++ s.port := by
  induction cs generalizing s with
  | nil => exact ⟨fun _ => 0, fun _ => Nat.zero_le _, by simp, rfl⟩
  | cons x cs ih =>
    obtain ⟨hx, hcs⟩ := List.nodup_cons.mp hd
    obtain ⟨q, h1, h2, h3⟩ := State.synced_trace x s
    obtain ⟨f, g1, g2, g3⟩ := ih hcs (s.synced x)
    rw [State.syncedAll_cons]
    have fx : Function.update f x q x = q := Function.update_self x q f
    have fo {c : Fin 4} (h : c ≠ x) : Function.update f x q c = f c := Function.update_of_ne h q f
    refine ⟨Function.update f x q, fun c => ?_, fun c hc => ?_, ?_⟩
    · by_cases e : c = x
      · rw [e, fx]
        exact h1
      · rw [fo e]
        exact g1 c
    · by_cases e : c = x
      · subst e
        rw [fx, (State.syncedAll_chip cs (s.synced c) c).2.2.2.2 hx, h2]
      · rw [fo e, g2 c ((List.mem_cons.mp hc).resolve_left e), (State.synced_chip x s c).2.2.2.2 e]
    · have hf : (cs.flatMap fun c => syncChipTrace s.params c (Function.update f x q c)) =
          cs.flatMap fun c => syncChipTrace s.params c (f c) := by
        refine List.flatMap_congr fun c hc => ?_
        rw [fo fun e : c = x => hx (e ▸ hc)]
      rw [g3, h3, (State.synced_keeps x s).1, List.flatMap_cons, fx, hf, List.reverse_append, List.append_assoc]

theorem snapTrace_one_length (p : Params) (c : Fin 4) : (snapTrace p (oneOf c) 1).length = 4 := by
  unfold snapTrace
  rw [chipsIn_oneOf]
  rfl

/-- The counts of one chip (R215). -/
theorem syncChipTrace_length (p : Params) (c : Fin 4) (q : Nat) (hq : q ≤ 8) :
    (syncChipTrace p c q).length = if q < 8 then 7 * q + 8 else 60 := by
  unfold syncChipTrace
  rw [List.length_append, List.length_flatten, List.map_replicate, List.sum_replicate_nat, List.length_append, snapTrace_one_length]
  have h : (slipTrace p (oneOf c)).length = 3 := rfl
  split
  · rw [List.length_append, snapTrace_one_length, h]
    omega
  · rw [snapTrace_one_length, h]
    omega

/-- With the captures given as data, the synchronisation of several chips (R213 to R215). -/
theorem State.syncedAll_script (cs : List (Fin 4)) (hd : cs.Nodup) (s : State) (hl : 9 * cs.length ≤ s.env.captures.length) :
    (s.syncedAll cs).port =
      ((syncOutcome s.params.byteOrder s.work.expect cs s.env.captures).flatMap fun o =>
        syncChipTrace s.params o.1 o.2.1).reverse ++ s.port ∧
    (syncOutcome s.params.byteOrder s.work.expect cs s.env.captures).map (fun o => o.1) = cs ∧
    ∀ (c : Fin 4) (pulses : Nat) (ok : Bool),
      (c, pulses, ok) ∈ syncOutcome s.params.byteOrder s.work.expect cs s.env.captures →
      pulses ≤ 8 ∧ (s.syncedAll cs).dev.chips[c].slip = s.dev.chips[c].slip + pulses ∧ (s.syncedAll cs).res.syncok[c] = ok := by
  induction cs generalizing s with
  | nil => exact ⟨rfl, rfl, fun c q ok h => by cases h⟩
  | cons x cs ih =>
    rw [List.length_cons] at hl
    obtain ⟨hx, hcs⟩ := List.nodup_cons.mp hd
    obtain ⟨g1, g2, -⟩ := State.synced_keeps x s
    obtain ⟨e1, e2, e3, e4, e5⟩ := State.synced_script x s (by omega)
    have hle : syncCaptures (syncPulses s.params.byteOrder x s.work.expect 8 s.env.captures) ≤ 9 := by
      unfold syncCaptures
      split <;> omega
    obtain ⟨h1, h2, h3⟩ := ih hcs (s.synced x) (by rw [e1, List.length_drop]; omega)
    rw [g1, g2, e1] at h1 h2 h3
    rw [State.syncedAll_cons]
    refine ⟨?_, ?_, ?_⟩
    · rw [h1, e3, syncOutcome, List.flatMap_cons, List.reverse_append, List.append_assoc]
    · rw [syncOutcome, List.map_cons, h2]
    · intro c q ok hm
      rw [syncOutcome, List.mem_cons] at hm
      rcases hm with hm | hm
      · simp only [Prod.mk.injEq] at hm
        obtain ⟨rfl, rfl, rfl⟩ := hm
        rw [(State.syncedAll_chip cs (s.synced c) c).2.2.2.2 hx, (State.syncedAll_keeps cs (s.synced c)).2.2.2.2.2.2.2.2 c hx]
        exact ⟨e5, e2, e4⟩
      · obtain ⟨a, b, d⟩ := h3 c q ok hm
        have hc : c ∈ cs := by
          rw [← h2]
          exact List.mem_map.mpr ⟨_, hm, rfl⟩
        have hne : c ≠ x := fun e => hx (e ▸ hc)
        exact ⟨a, by rw [b, (State.synced_chip x s c).2.2.2.2 hne], d⟩

/-- With the captures given as data, how many of them the synchronisation of several chips takes, and what the last of them leaves in
SAMPLES (R215, R216). -/
theorem State.syncedAll_samples (cs : List (Fin 4)) (s : State) (hl : 9 * cs.length ≤ s.env.captures.length) :
    (s.syncedAll cs).env.captures =
      s.env.captures.drop (outcomeCaptures (syncOutcome s.params.byteOrder s.work.expect cs s.env.captures)) ∧
    2 * cs.length ≤ outcomeCaptures (syncOutcome s.params.byteOrder s.work.expect cs s.env.captures) ∧
    outcomeCaptures (syncOutcome s.params.byteOrder s.work.expect cs s.env.captures) ≤ 9 * cs.length ∧
    ∀ (c lane : Fin 4) (k : Capture), cs.getLast? = some c →
      s.env.captures[outcomeCaptures (syncOutcome s.params.byteOrder s.work.expect cs s.env.captures) - 1]? = some k →
      (s.syncedAll cs).res.samples[c][lane][(0 : Fin 1024)] = k.sample s.params.byteOrder c lane 1 0 := by
  induction cs generalizing s with
  | nil => exact ⟨rfl, Nat.le_refl _, Nat.le_refl _, fun _ _ _ h => nomatch h⟩
  | cons x cs ih =>
    rw [List.length_cons] at hl
    obtain ⟨g1, g2, -⟩ := State.synced_keeps x s
    obtain ⟨e1, -⟩ := State.synced_script x s (by omega)
    have hq : 2 ≤ syncCaptures (syncPulses s.params.byteOrder x s.work.expect 8 s.env.captures) ∧
        syncCaptures (syncPulses s.params.byteOrder x s.work.expect 8 s.env.captures) ≤ 9 := by
      unfold syncCaptures
      split <;> omega
    have he : outcomeCaptures (syncOutcome s.params.byteOrder s.work.expect (x :: cs) s.env.captures) =
        syncCaptures (syncPulses s.params.byteOrder x s.work.expect 8 s.env.captures) +
          outcomeCaptures (syncOutcome s.params.byteOrder s.work.expect cs (s.synced x).env.captures) := by
      rw [e1]
      rfl
    obtain ⟨h1, h2, h3, h4⟩ := ih (s.synced x) (by rw [e1, List.length_drop]; omega)
    rw [g1, g2] at h1 h2 h3 h4
    rw [State.syncedAll_cons, he]
    refine ⟨by rw [h1, e1, List.drop_drop], by rw [List.length_cons]; omega, by rw [List.length_cons]; omega, ?_⟩
    intro c lane k hc hk
    cases cs with
    | nil =>
      obtain rfl : x = c := by simpa using hc
      exact State.synced_samples x s (by omega) hk lane
    | cons y cs =>
      refine h4 c lane k (by simpa using hc) ?_
      rw [List.length_cons] at h2
      rw [← hk, e1, List.getElem?_drop, ← e1]
      congr 1
      omega

/-- The state when the synchronisation starts (R213). -/
def State.forSync (e : Sample) (s : State) : State := s.setWork { s.work with expect := e }

/-- A completed synchronisation, in full (R213). -/
theorem synchronize_eq_go {set : BitVec 4} {e : Sample} {s t : State} (hw : s.params.Ctrl1Wf) (h : synchronize set e s = .go t) :
    t = ((s.forSync e).syncedAll (chipsIn set)).endSync set := by
  obtain ⟨m, h1, h2⟩ := Flow.andThen_eq_go.mp h
  rw [Flow.update_apply, Flow.andThen_go] at h1
  have e1 : m = (s.forSync e).syncedAll (chipsIn set) := syncChips_eq_go (s := s.forSync e) hw h1
  cases h2
  rw [e1]

theorem State.endSync_syncok {set : BitVec 4} {s : State} {c : Fin 4} (h : set.getLsbD c.val = true) :
    (s.endSync set).res.syncok[c] = s.res.syncok[c] := by
  simp [State.endSync, h]

theorem nodup_chipsIn (set : BitVec 4) : (chipsIn set).Nodup := by
  revert set
  decide

/-- The last chip of a non-empty set is its largest. -/
theorem chipsIn_getLast (set : BitVec 4) (h : set ≠ 0) :
    ∃ c : Fin 4, (chipsIn set).getLast? = some c ∧ set.getLsbD c.val = true ∧ ∀ c' : Fin 4, set.getLsbD c'.val = true → c' ≤ c := by
  revert set
  decide

/-! ### Bounds -/

theorem syncLoop_within (c : Fin 4) (n : Nat) : Within 0 (7 * n) (syncLoop c n) := by
  induction n with
  | zero => exact Within.skip
  | succ n ih =>
    intro s
    have hs := snapshot_within (oneOf c) (n := 1) (by omega) (by unfold stride; omega)
    rw [chipsIn_oneOf] at hs
    refine WithinAt.weaken ((hs s).bind (lo' := 0) (hi' := 3 + 7 * n) fun m _ => ?_) (by omega)
      (by simp only [List.length_singleton]; omega)
    split
    · exact (Within.skip m).weaken (by omega) (by omega)
    · refine WithinAt.weaken ((slipPulse_within _ m).bind (lo' := 0) (hi' := 7 * n) fun m' _ => ?_) (Nat.zero_le _) (Nat.le_refl _)
      exact WithinAt.pre (ran_setWork (s := m') (w := { m'.work with attempt := m'.work.attempt + 1 }) rfl) (ih _)

theorem syncLoop_within_four (c : Fin 4) (n : Nat) : Within 4 (7 * n + 7) (syncLoop c (n + 1)) := by
  intro s
  have hs := snapshot_within (oneOf c) (n := 1) (by omega) (by unfold stride; omega)
  rw [chipsIn_oneOf] at hs
  refine WithinAt.weaken ((hs s).bind (lo' := 0) (hi' := 3 + 7 * n) fun m _ => ?_) (by simp)
    (by simp only [List.length_singleton]; omega)
  split
  · exact (Within.skip m).weaken (by omega) (by omega)
  · refine WithinAt.weaken ((slipPulse_within _ m).bind (lo' := 0) (hi' := 7 * n) fun m' _ => ?_) (Nat.zero_le _) (Nat.le_refl _)
    exact WithinAt.pre (ran_setWork (s := m') (w := { m'.work with attempt := m'.work.attempt + 1 }) rfl) (syncLoop_within c n _)

/-- One chip's synchronisation is 8 to 60 operations (R215). -/
theorem syncChip_within (c : Fin 4) : Within 8 60 (syncChip c) := by
  intro s
  have hs := snapshot_within (oneOf c) (n := 1) (by omega) (by unfold stride; omega)
  rw [chipsIn_oneOf] at hs
  have h0 : WithinAt 4 56 (syncLoop c 8 (s.setWork { s.work with curchip := c, attempt := 0 })) s :=
    WithinAt.pre (ran_setWork (s := s) (w := { s.work with curchip := c, attempt := 0 }) rfl) (syncLoop_within_four c 7 _)
  refine ((h0.bind (lo' := 4) (hi' := 4) fun m _ => hs m).bind (lo' := 0) (hi' := 0) fun m _ => ?_)
  exact Within.update (f := State.verdict c) (fun s => ran_setRes s _) m

theorem synchronize_within (set : BitVec 4) (e : Sample) :
    Within ((chipsIn set).length * 8) ((chipsIn set).length * 60) (synchronize set e) := by
  have h := ((Within.update (f := fun s => s.setWork { s.work with expect := e }) fun s => ran_setWork rfl).andThen
    (Within.each syncChip_within (chipsIn set))).andThen
    (Within.update (f := State.endSync set) fun s => ran_setRes s _)
  simp only [Nat.zero_add, Nat.add_zero] at h
  exact h

theorem setPattern_within (kind : PatKind) : Within 100 150 (setPattern kind) := by
  intro s
  have h := serialWrites_within (patternWrites s.params kind) s
  refine h.weaken ?_ ?_ <;> cases kind <;> simp [patternWrites, patternWrite]

theorem setPattern_within_setting (kind : PatKind) (hk : kind ≠ .none) : Within 150 150 (setPattern kind) := by
  intro s
  have h := serialWrites_within (patternWrites s.params kind) s
  refine h.weaken ?_ ?_ <;> cases kind <;> simp [patternWrites, patternWrite] at hk ⊢

theorem setPattern_within_none : Within 100 100 (setPattern .none) := fun s => serialWrites_within (patternWrites s.params .none) s

/-- CAL is 1228 to 1484 operations (R220). -/
theorem calibrate_within (d e : Sample) : Within 1228 1484 (calibrate d e) := by
  have h1 := setPattern_within_setting .deskew (by decide)
  have h2 := Within.each (fun c => calibrateTaps_within c d) (List.finRange 4)
  have h3 := setPattern_within_setting .sync (by decide)
  have h4 := synchronize_within 0b1111 e
  have h := ((h1.andThen h2).andThen h3).andThen h4
  exact h

end Sys2Proof.Machine
end

