-- ==== Sys2Proof/Laws/Calibrate.lean ====
section
/-! SUPPORT. What a completed CAL does, part by part (R219): a pattern, the four chips' calibrations, a pattern, the synchronisation. -/

namespace Sys2Proof.Machine

theorem patternWrites_ne_nil (p : Params) (kind : PatKind) : patternWrites p kind ≠ [] := List.cons_ne_nil _ _

/-- What a completed SETPAT leaves (R150). -/
theorem setPattern_keeps {kind : PatKind} {s t : State} (h : setPattern kind s = .go t) :
    t.params = s.params ∧ t.csmask = s.csmask ∧ t.res = s.res ∧ t.env.captures = s.env.captures ∧
    t.port = (patternTrace s.params s.csmask kind).reverse ++ s.port ∧
    t.dev = s.dev.afterCycles s.params s.csmask (patternWrites s.params kind) ∧
    (s.params.Ctrl0Wf → ∀ c : Fin 4, t.dev.chips[c].tap = s.dev.chips[c].tap ∧ t.dev.chips[c].slip = s.dev.chips[c].slip) := by
  have e := serialWrites_eq_go h
  have hp : t.port = (((patternWrites s.params kind).flatMap fun av => cycleWords s.params s.csmask av.1 av.2).map
      (ctrl0Op s.params)).reverse ++ s.port := by rw [e]; rfl
  refine ⟨by rw [e]; rfl, by rw [e]; rfl, by rw [e]; rfl, by rw [e]; rfl, ?_, serialWrites_dev h, fun hw c => ?_⟩
  rotate_left
  · obtain ⟨h1, h2, -⟩ := Device.afterCycles_chip hw s.csmask c (patternWrites_ne_nil s.params kind) s.dev
    rw [serialWrites_dev h]
    exact ⟨h1, h2⟩
  rw [hp, List.map_flatMap]
  congr 2

/-! ### The four chips in order -/

/-- The state when the calibration of chip `c` starts, the chips below it having been calibrated. -/
def State.calStart (e : Sample) (s : State) : Fin 4 → State
  | 0 => s
  | 1 => s.calibrated 0 e
  | 2 => (s.calibrated 0 e).calibrated 1 e
  | 3 => ((s.calibrated 0 e).calibrated 1 e).calibrated 2 e

/-- The state after all four chips (R219). -/
def State.calibratedAll (e : Sample) (s : State) : State := (s.calStart e 3).calibrated 3 e

section
variable (e : Sample) (s : State)

/-- What the calibrations of the chips below `c` keep. -/
theorem State.calStart_keeps (c : Fin 4) :
    (s.calStart e c).params = s.params ∧ (s.calStart e c).env.captures = s.env.captures.drop (32 * c.val) ∧
    (s.calStart e c).dev.prev0 = s.dev.prev0 ∧
    ∀ x : Fin 4, (s.calStart e c).dev.chips[x].adcreg = s.dev.chips[x].adcreg ∧
      (s.calStart e c).dev.chips[x].slip = s.dev.chips[x].slip := by
  have step (d : Fin 4) (q : State) := State.calibrated_keeps d e q
  have chip (d : Fin 4) (q : State) (x : Fin 4) := State.calibrated_chip d e q x
  match c with
  | 0 => exact ⟨rfl, rfl, rfl, fun _ => ⟨rfl, rfl⟩⟩
  | 1 =>
    obtain ⟨p0, k0, -, -, -, -, -, -, -, v0, -⟩ := step 0 s
    exact ⟨p0, k0, v0, fun x => ⟨(chip 0 s x).1, (chip 0 s x).2.1⟩⟩
  | 2 =>
    obtain ⟨p0, k0, -, -, -, -, -, -, -, v0, -⟩ := step 0 s
    obtain ⟨p1, k1, -, -, -, -, -, -, -, v1, -⟩ := step 1 (s.calibrated 0 e)
    exact ⟨p1.trans p0, by rw [State.calStart, k1, k0, List.drop_drop]; rfl, v1.trans v0, fun x =>
      ⟨(chip 1 _ x).1.trans (chip 0 s x).1, (chip 1 _ x).2.1.trans (chip 0 s x).2.1⟩⟩
  | 3 =>
    obtain ⟨p0, k0, -, -, -, -, -, -, -, v0, -⟩ := step 0 s
    obtain ⟨p1, k1, -, -, -, -, -, -, -, v1, -⟩ := step 1 (s.calibrated 0 e)
    obtain ⟨p2, k2, -, -, -, -, -, -, -, v2, -⟩ := step 2 ((s.calibrated 0 e).calibrated 1 e)
    exact ⟨p2.trans (p1.trans p0), by rw [State.calStart, k2, k1, k0, List.drop_drop, List.drop_drop]; rfl,
      v2.trans (v1.trans v0), fun x =>
      ⟨(chip 2 _ x).1.trans ((chip 1 _ x).1.trans (chip 0 s x).1), (chip 2 _ x).2.1.trans ((chip 1 _ x).2.1.trans (chip 0 s x).2.1)⟩⟩

/-- The maps of good taps that chip `c`'s own calibration writes. -/
def State.calGood (c : Fin 4) : Vector (BitVec 32) 4 := ((s.calStart e c).calibrated c e).res.good

/-- Every lane of every chip ends at the tap its own sweep selects (R191, R194, R195). -/
theorem State.calibratedAll_tap (c lane : Fin 4) :
    (s.calibratedAll e).dev.chips[c].tap[lane] =
      if tapsOf (s.calGood e c)[lane] = [] then 31 else selectTap (tapsOf (s.calGood e c)[lane]) := by
  unfold State.calibratedAll State.calGood
  rw [State.calibrated_tap]
  match c with
  | 0 => simp only [State.calStart, State.calibrated_tap]; rfl
  | 1 => simp only [State.calStart, State.calibrated_tap]; rfl
  | 2 => simp only [State.calStart, State.calibrated_tap]; rfl
  | 3 => rfl

/-- With the capture of chip `c` at tap `j` given as data, whether that tap is good (R188 to R190). -/
theorem State.calGood_capture (c lane : Fin 4) (j : Fin 32) {k : Capture} (hk : s.env.captures[32 * c.val + j.val]? = some k) :
    (s.calGood e c)[lane].getLsbD j.val = true ↔ k.GoodAt s.params.byteOrder c lane e := by
  obtain ⟨h1, h2, -⟩ := s.calStart_keeps e c
  have hk' : (s.calStart e c).env.captures[j.val]? = some k := by rw [h2, List.getElem?_drop, hk]
  have er (r : Nat) := State.calErrors_capture c e (s.calStart e c) j.val (by omega) r hk'
  rw [h1] at er
  unfold State.calGood Capture.GoodAt
  rw [State.calibrated_good _ _ _ _ _ j.isLt, er, er, Bool.and_eq_true, decide_eq_true_eq, decide_eq_true_eq]

/-- The operations of the four calibrations (R187, R191, R219). -/
theorem State.calibratedAll_port :
    (s.calibratedAll e).port =
      ((List.finRange 4).flatMap fun c => sweepTrace s.params c ++ selectTrace s.params c (s.calGood e c)).reverse ++ s.port := by
  have hp (c : Fin 4) : ((s.calStart e c).calibrated c e).port =
      (sweepTrace s.params c ++ selectTrace s.params c (s.calGood e c)).reverse ++ (s.calStart e c).port := by
    rw [State.calibrated_port, (s.calStart_keeps e c).1]
    rfl
  have h0 : (s.calStart e 1).port = _ := hp 0
  have h1 : (s.calStart e 2).port = _ := hp 1
  have h2 : (s.calStart e 3).port = _ := hp 2
  have hf : List.finRange 4 = [0, 1, 2, 3] := by decide
  unfold State.calibratedAll
  rw [hp 3, h2, h1, h0, hf]
  simp only [List.flatMap_cons, List.flatMap_nil, List.append_nil, List.reverse_append, List.append_assoc]
  rfl

end

theorem calibrateAll_eq_go {e : Sample} {s t : State} (hw : s.params.Ctrl1Wf)
    (h : Flow.each (fun c => calibrateTaps c e) (List.finRange 4) s = .go t) : t = s.calibratedAll e := by
  rw [show List.finRange 4 = [0, 1, 2, 3] by decide] at h
  have hp (c : Fin 4) : (s.calStart e c).params.Ctrl1Wf := by rw [(s.calStart_keeps e c).1]; exact hw
  obtain ⟨a0, h0, h⟩ := Flow.andThen_eq_go.mp h
  obtain ⟨a1, h1, h⟩ := Flow.andThen_eq_go.mp h
  obtain ⟨a2, h2, h⟩ := Flow.andThen_eq_go.mp h
  obtain ⟨a3, h3, h⟩ := Flow.andThen_eq_go.mp h
  cases h
  obtain rfl : a0 = s.calStart e 1 := calibrateTaps_eq_go hw h0
  obtain rfl : a1 = s.calStart e 2 := calibrateTaps_eq_go (hp 1) h1
  obtain rfl : a2 = s.calStart e 3 := calibrateTaps_eq_go (hp 2) h2
  exact calibrateTaps_eq_go (hp 3) h3

/-- A completed CAL, part by part (R219). -/
theorem calibrate_eq_go {d e : Sample} {s t : State} (hw : s.params.Ctrl1Wf) (h : calibrate d e s = .go t) :
    ∃ m1 m3, setPattern .deskew s = .go m1 ∧ setPattern .sync (m1.calibratedAll d) = .go m3 ∧
      t = ((m3.forSync e).syncedAll (chipsIn 0b1111)).endSync 0b1111 ∧ (m1.calibratedAll d).params = s.params ∧
      (m1.calibratedAll d).csmask = s.csmask ∧ (m1.calibratedAll d).env.captures = s.env.captures.drop 128 := by
  obtain ⟨m3, h, h4⟩ := Flow.andThen_eq_go.mp h
  obtain ⟨m2, h, h3⟩ := Flow.andThen_eq_go.mp h
  obtain ⟨m1, h1, h2⟩ := Flow.andThen_eq_go.mp h
  obtain ⟨p1, c1, -, k1, -⟩ := setPattern_keeps h1
  have w1 : m1.params.Ctrl1Wf := by rw [p1]; exact hw
  have hr := Within.each (fun c => calibrateTaps_within c d) (List.finRange 4) m1
  rw [h2] at hr
  obtain ⟨n, -, -, r⟩ := hr.ran
  obtain rfl := calibrateAll_eq_go w1 h2
  have w2 : (m1.calibratedAll d).params.Ctrl1Wf := by rw [r.params]; exact w1
  refine ⟨m1, m3, h1, h3, synchronize_eq_go (by rw [(setPattern_keeps h3).1]; exact w2) h4, r.params.trans p1, r.csmask.trans c1, ?_⟩
  unfold State.calibratedAll
  rw [(State.calibrated_keeps _ _ _).2.1, (State.calStart_keeps _ _ _).2.1, k1, List.drop_drop]
  rfl

end Sys2Proof.Machine
end

