-- ==== Sys2Proof/Laws/Work.lean ====
section
/-! SUPPORT. Which working registers the parts of a command leave alone: any `f` of the working registers that does not look at the
ones a part writes is kept. -/

namespace Sys2Proof.Machine

section
variable {β : Type} (f : Work → β) (hsub : ∀ w n, f { w with substep := n } = f w) (hraw : ∀ w r, f { w with raw := r } = f w)

section
include hsub

theorem pulseCtrl1_work (w0 w1 w2 : Word) : KeepsGo (fun s => f s.work) (pulseCtrl1 w0 w1 w2) := by
  have h (w : Word) : KeepsGo (fun s => f s.work) (writeCtrl1 w) := by
    intro s t e
    rw [writeCtrl1_eq_go e]
    exact hsub _ _
  exact (h w0).andThen ((h w1).andThen (h w2))

theorem delayWrite_work (c : Fin 4) (t : BitVec 5) (lanes : BitVec 4) : KeepsGo (fun s => f s.work) (delayWrite c t lanes) :=
  fun s => pulseCtrl1_work f hsub _ (tapResetWord s.params t c lanes) _ s

theorem slipPulse_work (set : BitVec 4) : KeepsGo (fun s => f s.work) (slipPulse set) :=
  fun s => pulseCtrl1_work f hsub _ (slipWord s.params set) _ s

theorem programLane_work (lane : Fin 4) : KeepsGo (fun s => f s.work) (programLane lane) := by
  intro s t e
  unfold programLane at e
  split at e
  · cases e
    rfl
  · exact delayWrite_work f hsub _ _ _ s t e

end

include hsub hraw

theorem snapshot_work (set : BitVec 4) (n : Nat) : KeepsGo (fun s => f s.work) (snapshot set n) := by
  have h1 : KeepsGo (fun s => f s.work) trigger := fun s => pulseCtrl1_work f hsub _ (trigWord s.params) _ s
  have h2 (c : Fin 4) : KeepsGo (fun s => f s.work) (readChip n c) := by
    intro s t e
    rw [readChip_eq_go e]
    exact (hsub { s.work with raw := lastRaw s.params s.dev n [c] s.work.raw } _).trans (hraw s.work _)
  have h3 : KeepsGo (fun s => f s.work) (Flow.update (State.endSnap set n)) := KeepsGo.update fun _ => rfl
  exact (h1.andThen (KeepsGo.each h2 (chipsIn set))).andThen h3

theorem calibrateTaps_work (htap : ∀ w t, f { w with tapidx := t } = f w) (hcnt : ∀ w a b, f { w with evcnt := a, odcnt := b } = f w)
    (hcal : ∀ w c e, f { w with curchip := c, expect := e } = f w) (c : Fin 4) (e : Sample) :
    KeepsGo (fun s => f s.work) (calibrateTaps c e) := by
  have hs (t : BitVec 5) : KeepsGo (fun s => f s.work) (sweepTap t) := by
    have h1 : KeepsGo (fun s => f s.work) (Flow.update fun s => s.setWork { s.work with tapidx := t }) :=
      KeepsGo.update fun s => htap _ _
    have h2 : KeepsGo (fun s => f s.work) fun s => delayWrite s.work.curchip s.work.tapidx 0b1111 s :=
      fun s => delayWrite_work f hsub _ _ _ s
    have h3 : KeepsGo (fun s => f s.work) fun s => snapshot (oneOf s.work.curchip) 256 s :=
      fun s => snapshot_work f hsub hraw _ _ s
    have h4 : KeepsGo (fun s => f s.work) (Flow.update State.countTap) := KeepsGo.update fun s => hcnt s.work _ _
    exact ((h1.andThen h2).andThen h3).andThen h4
  have h1 : KeepsGo (fun s => f s.work) (Flow.update fun s => s.setWork { s.work with curchip := c, expect := e }) :=
    KeepsGo.update fun s => hcal _ _ _
  have h2 : KeepsGo (fun s => f s.work) (Flow.update fun s => s.setRes { s.res with calChip := c, calValid := true }) :=
    KeepsGo.update fun _ => rfl
  exact ((h1.andThen (KeepsGo.each hs allTaps)).andThen (KeepsGo.each (programLane_work f hsub) (List.finRange 4))).andThen h2

theorem synchronize_work (hatt : ∀ w n, f { w with attempt := n } = f w) (hchip : ∀ w c n, f { w with curchip := c, attempt := n } = f w)
    (hexp : ∀ w e, f { w with expect := e } = f w) (set : BitVec 4) (e : Sample) :
    KeepsGo (fun s => f s.work) (synchronize set e) := by
  have hl (c : Fin 4) (n : Nat) : KeepsGo (fun s => f s.work) (syncLoop c n) := by
    induction n with
    | zero => intro s t h; cases h; rfl
    | succ n ih =>
      refine KeepsGo.andThen (snapshot_work f hsub hraw (oneOf c) 1) fun s t h => ?_
      split at h
      · cases h
        rfl
      · obtain ⟨m, h1, h2⟩ := Flow.andThen_eq_go.mp h
        exact (ih _ t h2).trans ((hatt _ _).trans (slipPulse_work f hsub _ s m h1))
  have hc (c : Fin 4) : KeepsGo (fun s => f s.work) (syncChip c) := by
    have h1 : KeepsGo (fun s => f s.work) (Flow.update (State.verdict c)) := KeepsGo.update fun _ => rfl
    have h := ((hl c 8).andThen (snapshot_work f hsub hraw (oneOf c) 1)).andThen h1
    exact fun s t g => (h (s.setWork { s.work with curchip := c, attempt := 0 }) t g).trans (hchip _ _ _)
  have h1 : KeepsGo (fun s => f s.work) (Flow.update fun s => s.setWork { s.work with expect := e }) :=
    KeepsGo.update fun s => hexp _ _
  have h2 : KeepsGo (fun s => f s.work) (Flow.update (State.endSync set)) := KeepsGo.update fun _ => rfl
  exact (h1.andThen (KeepsGo.each hc (chipsIn set))).andThen h2

end

end Sys2Proof.Machine
end

