-- ==== Sys2Proof/Laws/Command.lean ====
section
/-! SUPPORT. What a command can do, said once for all of them: it completes within its counts, faults, or is abandoned by reset. -/

namespace Sys2Proof.Machine

theorem ran_beginCommand_answers (s : State) : s.beginCommand.env = s.env := rfl

/-- What runs when a command's chips exist: its body (R111). -/
def bodyOf : Instr → State → Flow
  | .setcs mask => Flow.update (State.setCsmask mask)
  | .wrreg addr value => serialWrite addr value
  | .setpatNone => setPattern .none
  | .setpatRamp => setPattern .ramp
  | .setpatDeskew => setPattern .deskew
  | .setpatSync => setPattern .sync
  | .setpatCustom => setPattern .custom
  | .setpatDual => setPattern .dual
  | .setfmt invertMsb msbFirst => setFormat invertMsb msbFirst
  | .snap chips count => snapshot (chips.extractLsb' 0 4) (clampCount count)
  | .dlytap chip tap lanes => delayWrite (Fin.ofNat 4 chip.toNat) (clampTap tap) lanes
  | .bitslip chips => slipPulse (chips.extractLsb' 0 4)
  | .caltaps chip expected => calibrateTaps (Fin.ofNat 4 chip.toNat) (expectedOf expected)
  | .sync chips expected => synchronize (chips.extractLsb' 0 4) (expectedOf expected)
  | .cal deskewExpected syncExpected => calibrate (expectedOf deskewExpected) (expectedOf syncExpected)

theorem chipOf_valid {chip : BitVec 3} (h : chip.toNat ≤ 3) : chipOf chip = some (Fin.ofNat 4 chip.toNat) := by
  unfold chipOf
  rw [dif_pos (by omega)]
  congr 1
  apply Fin.ext
  show chip.toNat = chip.toNat % 4
  omega

theorem chipOf_eq {chip : BitVec 3} {c : Fin 4} (h : chip.toNat = c.val) : chipOf chip = some c := by
  have hc := c.isLt
  rw [chipOf_valid (by omega)]
  congr 1
  apply Fin.ext
  show chip.toNat % 4 = c.val
  omega

theorem chipOf_missing {chip : BitVec 3} (h : 3 < chip.toNat) : chipOf chip = none := by
  unfold chipOf
  rw [dif_neg (by omega)]

theorem chipSetOf_valid {chips : BitVec 8} (h : chips.extractLsb' 4 4 = 0#4) : chipSetOf chips = some (chips.extractLsb' 0 4) :=
  if_pos h

theorem chipSetOf_missing {chips : BitVec 8} (h : chips.extractLsb' 4 4 ≠ 0#4) : chipSetOf chips = none := if_neg h

/-- A command whose chips exist runs its body. -/
theorem exec_wellFormed {i : Instr} (h : i.wellFormed = true) (s : State) : exec i s = .next (runCommand (bodyOf i) s) := by
  cases i with
  | snap chips count =>
    show execSnap chips count s = _
    unfold execSnap withChips
    rw [chipSetOf_valid (by simpa [Instr.wellFormed] using h)]
    rfl
  | dlytap chip tap lanes =>
    show execDlytap chip tap lanes s = _
    unfold execDlytap withChip
    rw [chipOf_valid (by simpa [Instr.wellFormed] using h)]
    rfl
  | bitslip chips =>
    show execBitslip chips s = _
    unfold execBitslip withChips
    rw [chipSetOf_valid (by simpa [Instr.wellFormed] using h)]
    rfl
  | caltaps chip expected =>
    show execCaltaps chip expected s = _
    unfold execCaltaps withChip
    rw [chipOf_valid (by simpa [Instr.wellFormed] using h)]
    rfl
  | sync chips expected =>
    show execSync chips expected s = _
    unfold execSync withChips
    rw [chipSetOf_valid (by simpa [Instr.wellFormed] using h)]
    rfl
  | _ => rfl

/-- A command that names a missing chip faults at once (R232). -/
theorem exec_illFormed {i : Instr} (h : i.wellFormed = false) (s : State) :
    exec i s = .next (s.refuse .invalidChipIdentifier) := by
  cases i with
  | snap chips count =>
    show execSnap chips count s = _
    unfold execSnap withChips
    rw [chipSetOf_missing (by simpa [Instr.wellFormed] using h)]
  | dlytap chip tap lanes =>
    show execDlytap chip tap lanes s = _
    unfold execDlytap withChip
    rw [chipOf_missing (by simpa [Instr.wellFormed] using h)]
  | bitslip chips =>
    show execBitslip chips s = _
    unfold execBitslip withChips
    rw [chipSetOf_missing (by simpa [Instr.wellFormed] using h)]
  | caltaps chip expected =>
    show execCaltaps chip expected s = _
    unfold execCaltaps withChip
    rw [chipOf_missing (by simpa [Instr.wellFormed] using h)]
  | sync chips expected =>
    show execSync chips expected s = _
    unfold execSync withChips
    rw [chipSetOf_missing (by simpa [Instr.wellFormed] using h)]
  | _ => cases h

theorem clampCount_bounds (count : BitVec 16) : 1 ≤ clampCount count ∧ clampCount count ≤ stride := by
  unfold clampCount clamp stride
  split
  · omega
  · split <;> omega

/-- Every command but SETCS keeps to its counts. -/
theorem bodyOf_within (i : Instr) (h : ∀ mask, i ≠ .setcs mask) : Within (minOps i) (maxOps i) (bodyOf i) := by
  cases i with
  | setcs mask => exact absurd rfl (h mask)
  | wrreg addr value => exact serialWrite_within _ _
  | setpatNone => exact setPattern_within_none
  | setpatRamp => exact setPattern_within_setting .ramp (by decide)
  | setpatDeskew => exact setPattern_within_setting .deskew (by decide)
  | setpatSync => exact setPattern_within_setting .sync (by decide)
  | setpatCustom => exact setPattern_within_setting .custom (by decide)
  | setpatDual => exact setPattern_within_setting .dual (by decide)
  | setfmt invertMsb msbFirst => exact fun s => serialWrite_within s.params.fmtReg _ s
  | snap chips count => exact snapshot_within _ (clampCount_bounds count).1 (clampCount_bounds count).2
  | dlytap chip tap lanes => exact delayWrite_within _ _ _
  | bitslip chips => exact slipPulse_within _
  | caltaps chip expected => exact calibrateTaps_within _ _
  | sync chips expected =>
    have h := synchronize_within (chips.extractLsb' 0 4) (expectedOf expected)
    rw [Nat.mul_comm _ 8, Nat.mul_comm _ 60] at h
    exact h
  | cal deskewExpected syncExpected => exact calibrate_within _ _

/-- The end of a completed command (R21, R130). -/
theorem completed_of_ran {n : Nat} {s m : State} (h : Ran n s.beginCommand m) : Completed s (Flow.go m).finish where
  params := h.params
  prog := h.prog
  cp := congrArg (· + 1) h.cp
  faults := h.faults
  substep := rfl
  resetLine := h.resetLine

theorem faultedAt_of_failedAt {n : Nat} {s t : State} (h : FailedAt n s.beginCommand t) : FaultedAt n s t where
  params := h.params
  prog := h.prog
  cp := h.cp
  csmask := h.csmask
  faults := by
    have e : s.beginCommand.work.substep + n = n := by
      show 0 + n = n
      omega
    rw [h.faults, e]
    rfl
  phase := h.phase
  substep := h.substep

theorem atReset_of_resetAt {n : Nat} {s t : State} (h : ResetAt n s t) : t.AtReset := by
  refine ⟨h.csmask, h.cp, h.faults, ?_⟩
  rw [h.work, h.res]
  exact ⟨rfl, rfl, rfl, rfl, rfl⟩

/-- Everything a well-formed command but SETCS can do. -/
theorem exec_cases {i : Instr} (hw : i.wellFormed = true) (hm : ∀ mask, i ≠ .setcs mask) (s : State) :
    (∃ n m, minOps i ≤ n ∧ n ≤ maxOps i ∧ bodyOf i s.beginCommand = .go m ∧ Ran n s.beginCommand m ∧
      exec i s = .next (Flow.go m).finish) ∨
    (∃ n t, n < maxOps i ∧ bodyOf i s.beginCommand = .stop t ∧ Abandoned n s.beginCommand (t.setsNoFlag s.res) ∧
      exec i s = .next (t.setsNoFlag s.res)) := by
  rw [exec_wellFormed hw]
  unfold runCommand
  rcases bodyOf_within i hm s.beginCommand with ⟨n, m, h1, h2, h3, h4⟩ | ⟨n, t, h1, h2, h3⟩
  · exact .inl ⟨n, m, h1, h2, h3, h4, by rw [h3]; rfl⟩
  · exact .inr ⟨n, t, h1, h2, h3.setsNoFlag _, by rw [h2]; rfl⟩

/-- A completed command ran its body to the end. -/
theorem exec_completed {i : Instr} {s t : State} (h : exec i s = .next t) (hc : t.cp = s.cp + 1) :
    i.wellFormed = true ∧ ∃ m, bodyOf i s.beginCommand = .go m ∧ t = (Flow.go m).finish := by
  cases hw : i.wellFormed with
  | false =>
    rw [exec_illFormed hw] at h
    cases h
    simp at hc
  | true =>
    refine ⟨rfl, ?_⟩
    by_cases hm : ∃ mask, i = .setcs mask
    · obtain ⟨mask, rfl⟩ := hm
      cases h
      exact ⟨_, rfl, rfl⟩
    · rcases exec_cases hw (fun mask e => hm ⟨mask, e⟩) s with ⟨n, m, -, -, h3, -, h5⟩ | ⟨n, t', -, -, h3, h4⟩
      · rw [h5] at h
        cases h
        exact ⟨m, h3, rfl⟩
      · rw [h4] at h
        cases h
        exfalso
        rcases h3 with h3 | h3
        · have := h3.cp
          have e : s.beginCommand.cp = s.cp := rfl
          omega
        · have := h3.cp
          omega

/-- With no failing operation the body runs to the end. -/
theorem exec_completes {i : Instr} (hw : i.wellFormed = true) {s : State} (hs : s.NoTransportFailure (maxOps i)) :
    ∃ m, bodyOf i s.beginCommand = .go m ∧ exec i s = .next (Flow.go m).finish ∧ Completed s (Flow.go m).finish := by
  by_cases hm : ∃ mask, i = .setcs mask
  · obtain ⟨mask, rfl⟩ := hm
    exact ⟨_, rfl, rfl, ⟨rfl, rfl, rfl, rfl, rfl, rfl⟩⟩
  · have hb := bodyOf_within i (fun mask e => hm ⟨mask, e⟩) s.beginCommand
    obtain ⟨n, m, -, -, h1, h2⟩ := hb.completes (hs.congr rfl rfl)
    refine ⟨m, h1, ?_, completed_of_ran h2⟩
    rw [exec_wellFormed hw]
    unfold runCommand
    rw [h1]
    rfl

/-- Everything supplying a command stream does (R268). -/
theorem State.supply_eq_some {prog : List Word} {s t : State} :
    s.supply prog = some t ↔ s.cp = 0 ∧ s.faults.halt = false ∧ t = { s with prog := prog } := by
  unfold State.supply State.beforeRun
  split
  · rename_i h
    rw [Bool.and_eq_true, decide_eq_true_eq, Bool.not_eq_true'] at h
    exact ⟨fun e => ⟨h.1, h.2, (Option.some.inj e).symm⟩, fun e => congrArg some e.2.2.symm⟩
  · rename_i h
    refine ⟨fun e => (nomatch e), fun e => absurd ?_ h⟩
    rw [e.1, e.2.1]
    rfl

/-! ### The bit-banger is idle between commands (R26) -/

/-- PHASE is IDLE. -/
def PhaseIdle (s : State) : Prop := s.work.phase = .idle

theorem preserves_phaseIdle {b : State → Flow} (h : KeepsGo (fun s => s.work.phase) b) : Preserves PhaseIdle b :=
  fun s t hs e => (h s t e).trans hs

theorem serialWrite_phase (a : BitVec 8) (v : BitVec 16) : Preserves PhaseIdle (serialWrite a v) := by
  intro s t _ e
  rw [serialWrite_eq_go e]
  rfl

theorem setPattern_phase (kind : PatKind) : Preserves PhaseIdle (setPattern kind) :=
  fun s => Preserves.each (fun av : BitVec 8 × BitVec 16 => serialWrite_phase av.1 av.2) (patternWrites s.params kind) s

theorem calibrateTaps_phase (c : Fin 4) (e : Sample) : Preserves PhaseIdle (calibrateTaps c e) :=
  preserves_phaseIdle (calibrateTaps_work Work.phase (fun _ _ => rfl) (fun _ _ => rfl) (fun _ _ => rfl) (fun _ _ _ => rfl)
    (fun _ _ _ => rfl) c e)

theorem synchronize_phase (set : BitVec 4) (e : Sample) : Preserves PhaseIdle (synchronize set e) :=
  preserves_phaseIdle (synchronize_work Work.phase (fun _ _ => rfl) (fun _ _ => rfl) (fun _ _ => rfl) (fun _ _ _ => rfl)
    (fun _ _ => rfl) set e)

/-- A command that completes leaves the bit-banger idle, if it found it idle. -/
theorem bodyOf_phase (i : Instr) : Preserves PhaseIdle (bodyOf i) := by
  cases i with
  | setcs mask => exact Preserves.update fun s hs => hs
  | wrreg addr value => exact serialWrite_phase _ _
  | setfmt invertMsb msbFirst => exact fun s => serialWrite_phase s.params.fmtReg _ s
  | snap chips count => exact preserves_phaseIdle (snapshot_work Work.phase (fun _ _ => rfl) (fun _ _ => rfl) _ _)
  | dlytap chip tap lanes => exact preserves_phaseIdle (delayWrite_work Work.phase (fun _ _ => rfl) _ _ _)
  | bitslip chips => exact preserves_phaseIdle (slipPulse_work Work.phase (fun _ _ => rfl) _)
  | caltaps chip expected => exact calibrateTaps_phase _ _
  | sync chips expected => exact synchronize_phase _ _
  | cal deskewExpected syncExpected =>
    exact (((setPattern_phase .deskew).andThen (Preserves.each (fun c => calibrateTaps_phase c _) (List.finRange 4))).andThen
      (setPattern_phase .sync)).andThen (synchronize_phase _ _)
  | _ => exact setPattern_phase _

section
variable (m : State)

@[simp] theorem Flow.finish_params : (Flow.go m).finish.params = m.params := rfl
@[simp] theorem Flow.finish_prog : (Flow.go m).finish.prog = m.prog := rfl
@[simp] theorem Flow.finish_cp : (Flow.go m).finish.cp = m.cp + 1 := rfl
@[simp] theorem Flow.finish_csmask : (Flow.go m).finish.csmask = m.csmask := rfl
@[simp] theorem Flow.finish_faults : (Flow.go m).finish.faults = m.faults := rfl
@[simp] theorem Flow.finish_work : (Flow.go m).finish.work = { m.work with substep := 0 } := rfl
@[simp] theorem Flow.finish_res : (Flow.go m).finish.res = m.res := rfl
@[simp] theorem Flow.finish_dev : (Flow.go m).finish.dev = m.dev := rfl
@[simp] theorem Flow.finish_env : (Flow.go m).finish.env = { m.env with draws := m.env.draws + 1 } := rfl
@[simp] theorem Flow.finish_port : (Flow.go m).finish.port = m.port := rfl

end

end Sys2Proof.Machine
end

