-- ==== Sys2Proof/Laws/Encoding.lean ====
section
/-! SUPPORT. Bit fields of words put together from fields, and the fields of a command word. -/

namespace Sys2Proof

/-- A field inside the lower part. -/
theorem extract_low {a b : Nat} (x : BitVec a) (y : BitVec b) (s n : Nat) (h : s + n ≤ b) :
    (x ++ y).extractLsb' s n = y.extractLsb' s n := by
  ext i hi
  simp [BitVec.getLsbD_append]
  omega

/-- A field inside the upper part. -/
theorem extract_high {a b : Nat} (x : BitVec a) (y : BitVec b) (s n : Nat) (h : b ≤ s) :
    (x ++ y).extractLsb' s n = x.extractLsb' (s - b) n := by
  ext i hi
  simp [BitVec.getLsbD_append]
  rw [if_neg (by omega)]
  congr 1
  omega

theorem extract_all {a : Nat} (x : BitVec a) : x.extractLsb' 0 a = x := by
  ext i hi
  simp

/-- Two neighbouring fields are one field. -/
theorem extract_join {w : Nat} (x : BitVec w) (s n m : Nat) :
    x.extractLsb' (s + n) m ++ x.extractLsb' s n = x.extractLsb' s (m + n) := by
  ext i hi
  rw [BitVec.getElem_append]
  by_cases h : i < n
  · rw [dif_pos h]
    simp
  · rw [dif_neg h]
    simp only [BitVec.getElem_extractLsb']
    congr 1
    omega

/-- A field whose number is known. -/
theorem eq_of_number {n k : Nat} {x : BitVec n} (h : x.toNat = k) : x = BitVec.ofNat n k := by
  rw [← h, BitVec.ofNat_toNat, BitVec.setWidth_eq]

/-- Two fields are 0 together exactly when each is. -/
theorem append_eq_zero {a b : Nat} {x : BitVec a} {y : BitVec b} (h : x ++ y = 0#(a + b)) : x = 0#a ∧ y = 0#b := by
  have hx : (x ++ y).extractLsb' b a = x := by
    rw [extract_high x y b a (Nat.le_refl _), Nat.sub_self, extract_all]
  have hy : (x ++ y).extractLsb' 0 b = y := by
    rw [extract_low x y 0 b (by omega), extract_all]
  rw [h] at hx hy
  constructor
  · rw [← hx]
    ext i hi
    simp
  · rw [← hy]
    ext i hi
    simp

/-- A field of no set bits, bit by bit. -/
theorem extract_zero_iff {w : Nat} (x : BitVec w) (s n : Nat) :
    x.extractLsb' s n = 0#n ↔ ∀ i, i < n → x.getLsbD (s + i) = false := by
  constructor
  · intro h i hi
    have := congrArg (fun v => v.getLsbD i) h
    simpa [hi] using this
  · intro h
    ext i hi
    simpa using h i hi

/-- A mask of one field: nothing of the word under it exactly when the field is 0. -/
theorem and_field_zero (w m : Word) (s n : Nat) (hn : s + n ≤ 32)
    (hm : ∀ i, i < 32 → m.getLsbD i = (decide (s ≤ i) && decide (i < s + n))) : w &&& m = 0 ↔ w.extractLsb' s n = 0#n := by
  rw [extract_zero_iff]
  constructor
  · intro h i hi
    have h1 := congrArg (fun v => v.getLsbD (s + i)) h
    simp only [BitVec.getLsbD_and, hm (s + i) (by omega)] at h1
    simpa [hi] using h1
  · intro h
    apply BitVec.eq_of_getLsbD_eq
    intro i hi
    rw [BitVec.getLsbD_and, hm i hi]
    by_cases hs : s ≤ i ∧ i < s + n
    · have := h (i - s) (by omega)
      rw [show s + (i - s) = i by omega] at this
      simp [this]
    · have : (decide (s ≤ i) && decide (i < s + n)) = false := by simpa using hs
      rw [this]
      simp

/-- A mask of two fields. -/
theorem and_or_zero (w a b : Word) : w &&& (a ||| b) = 0 ↔ w &&& a = 0 ∧ w &&& b = 0 := by
  have bits (x : Word) : x = 0 ↔ ∀ i, i < 32 → x.getLsbD i = false := by
    constructor
    · rintro rfl i -
      simp
    · intro h
      apply BitVec.eq_of_getLsbD_eq
      intro i hi
      rw [h i hi]
      simp
  rw [bits, bits, bits]
  constructor
  · intro h
    refine ⟨fun i hi => ?_, fun i hi => ?_⟩ <;>
    · have := h i hi
      rw [BitVec.getLsbD_and, BitVec.getLsbD_or] at this
      rw [BitVec.getLsbD_and]
      grind
  · rintro ⟨ha, hb⟩ i hi
    have h1 := ha i hi
    have h2 := hb i hi
    rw [BitVec.getLsbD_and] at h1 h2
    rw [BitVec.getLsbD_and, BitVec.getLsbD_or]
    grind

/-- The decoder, one format at a time (R92): what `op` selects. -/
theorem decode_op (w : Word) : decode w =
    match (w.extractLsb' 24 8).toNat with
    | 0x01 => ifReservedZero (w.extractLsb' 4 20) (.setcs (w.extractLsb' 0 4))
    | 0x02 => .ok (.wrreg (w.extractLsb' 16 8) (w.extractLsb' 0 16))
    | 0x03 => decodeSetpat w
    | 0x04 => ifReservedZero (w.extractLsb' 2 22) (.setfmt (w.getLsbD 0) (w.getLsbD 1))
    | 0x05 => .ok (.snap (w.extractLsb' 16 8) (w.extractLsb' 0 16))
    | 0x06 => ifReservedZero (w.extractLsb' 19 5 ++ w.extractLsb' 12 4)
        (.dlytap (w.extractLsb' 16 3) (w.extractLsb' 0 8) (w.extractLsb' 8 4))
    | 0x07 => ifReservedZero (w.extractLsb' 0 16) (.bitslip (w.extractLsb' 16 8))
    | 0x08 => ifReservedZero (w.extractLsb' 19 5 ++ w.extractLsb' 8 8) (.caltaps (w.extractLsb' 16 3) (w.extractLsb' 0 8))
    | 0x09 => ifReservedZero (w.extractLsb' 8 8) (.sync (w.extractLsb' 16 8) (w.extractLsb' 0 8))
    | 0x0A => ifReservedZero (w.extractLsb' 16 8) (.cal (w.extractLsb' 8 8) (w.extractLsb' 0 8))
    | _ => .error .unknownOp := rfl

theorem ifReservedZero_ok {n : Nat} {r : BitVec n} {i j : Instr} (h : ifReservedZero r i = .ok j) : r = 0#n ∧ j = i := by
  unfold ifReservedZero at h
  split at h
  · cases h
    exact ⟨by assumption, rfl⟩
  · cases h

/-- A word under a mask, bit by bit. -/
theorem and_mask_eq {w m p : Word} : w &&& m = p ↔ ∀ i, i < 32 → (w.getLsbD i && m.getLsbD i) = p.getLsbD i := by
  constructor
  · rintro rfl i -
    simp
  · intro h
    apply BitVec.eq_of_getLsbD_eq
    intro i hi
    rw [BitVec.getLsbD_and]
    exact h i hi

end Sys2Proof
end

