-- ==== Sys2Proof/Laws/PerInstr.lean ====
section
/-! SUPPORT. A statement about every instruction, one lemma per constructor: its word lies in its row of spec/opcode_table.json. -/

namespace Sys2Proof.Laws.EncodeFitsRow

open Sys2Proof

/-- The word of the command, under the row's mask, is the row's pattern. -/
def Statement (i : Instr) : Prop := encode i &&& i.row.mask = i.row.pattern

/-- A word put together from two fields, under a mask put together likewise. -/
theorem append_and {a b : Nat} (x m : BitVec a) (y k : BitVec b) : (x ++ y) &&& (m ++ k) = (x &&& m) ++ (y &&& k) := by
  ext i hi
  simp only [BitVec.getElem_and, BitVec.getElem_append]
  split <;> simp

theorem setcs (mask : BitVec 4) : Statement (.setcs mask) := by
  show 0x01#8 ++ 0#20 ++ mask &&& (0xFF#8 ++ 0xFFFFF#20 ++ 0#4) = 0x01#8 ++ 0#20 ++ 0#4
  rw [append_and]
  simp

theorem wrreg (addr : BitVec 8) (value : BitVec 16) : Statement (.wrreg addr value) := by
  show 0x02#8 ++ addr ++ value &&& (0xFF#8 ++ 0#8 ++ 0#16) = 0x02#8 ++ 0#8 ++ 0#16
  rw [append_and, append_and]
  simp

theorem setpatNone : Statement .setpatNone := rfl
theorem setpatRamp : Statement .setpatRamp := rfl
theorem setpatDeskew : Statement .setpatDeskew := rfl
theorem setpatSync : Statement .setpatSync := rfl
theorem setpatCustom : Statement .setpatCustom := rfl
theorem setpatDual : Statement .setpatDual := rfl

theorem setfmt (invertMsb msbFirst : Bool) : Statement (.setfmt invertMsb msbFirst) := by
  cases invertMsb <;> cases msbFirst <;> rfl

theorem snap (chips : BitVec 8) (count : BitVec 16) : Statement (.snap chips count) := by
  show 0x05#8 ++ chips ++ count &&& (0xFF#8 ++ 0#8 ++ 0#16) = 0x05#8 ++ 0#8 ++ 0#16
  rw [append_and, append_and]
  simp

theorem dlytap (chip : BitVec 3) (tap : BitVec 8) (lanes : BitVec 4) : Statement (.dlytap chip tap lanes) := by
  show 0x06#8 ++ 0#5 ++ chip ++ 0#4 ++ lanes ++ tap &&& (0xFF#8 ++ 0x1F#5 ++ 0#3 ++ 0xF#4 ++ 0#4 ++ 0#8) =
    0x06#8 ++ 0#5 ++ 0#3 ++ 0#4 ++ 0#4 ++ 0#8
  rw [append_and, append_and, append_and, append_and, append_and]
  simp

theorem bitslip (chips : BitVec 8) : Statement (.bitslip chips) := by
  show 0x07#8 ++ chips ++ 0#16 &&& (0xFF#8 ++ 0#8 ++ 0xFFFF#16) = 0x07#8 ++ 0#8 ++ 0#16
  rw [append_and, append_and]
  simp

theorem caltaps (chip : BitVec 3) (expected : BitVec 8) : Statement (.caltaps chip expected) := by
  show 0x08#8 ++ 0#5 ++ chip ++ 0#8 ++ expected &&& (0xFF#8 ++ 0x1F#5 ++ 0#3 ++ 0xFF#8 ++ 0#8) =
    0x08#8 ++ 0#5 ++ 0#3 ++ 0#8 ++ 0#8
  rw [append_and, append_and, append_and, append_and]
  simp

theorem sync (chips expected : BitVec 8) : Statement (.sync chips expected) := by
  show 0x09#8 ++ chips ++ 0#8 ++ expected &&& (0xFF#8 ++ 0#8 ++ 0xFF#8 ++ 0#8) = 0x09#8 ++ 0#8 ++ 0#8 ++ 0#8
  rw [append_and, append_and, append_and]
  simp

theorem cal (deskewExpected syncExpected : BitVec 8) : Statement (.cal deskewExpected syncExpected) := by
  show 0x0A#8 ++ 0#8 ++ deskewExpected ++ syncExpected &&& (0xFF#8 ++ 0xFF#8 ++ 0#8 ++ 0#8) = 0x0A#8 ++ 0#8 ++ 0#8 ++ 0#8
  rw [append_and, append_and, append_and]
  simp

end Sys2Proof.Laws.EncodeFitsRow
end

