-- ==== Sys2Proof/Tests/Slice0.lean ====
section
/-! SUPPORT. Tests and witnesses. Expected words and values come from spec/95_test_vectors.md (its number stands at each) or, where no
vector is named, are written out by hand from the rule named. A witness shows that a statement's premises can be met together. -/

namespace Sys2Proof.Tests

open Sys2Proof Sys2Proof.Machine

/-! ### Helpers -/

/-- The start state of 95_test_vectors.md, with `n` operations that complete and the given captures. -/
def ready (n : Nat) (captures : List Capture) : State :=
  { State.reset with env := { Env.atReset with answers := List.replicate n .completes, captures := captures } }

/-- The same, with one further answer after the `n` completing ones. -/
def thenAnswer (n : Nat) (a : PortAnswer) (captures : List Capture) : State :=
  { State.reset with env := { Env.atReset with answers := List.replicate n .completes ++ [a], captures := captures } }

/-- The state after a command, if there is a next state. -/
def after (i : Instr) (s : State) : Option State :=
  match exec i s with
  | .next t => some t
  | .fault _ => none
  | .refused _ => none

/-- The state after a step, if there is a next state. -/
def stepped (s : State) : Option State :=
  match step s with
  | .next t => some t
  | .fault _ => none
  | .refused _ => none

/-- The state a part of a command leaves, if it went on. -/
def went : Flow → Option State
  | .go s => some s
  | .stop _ => none

/-- An operation as numbers: kind (0 write, 1 read, 2 block read), index or offset, word or length. -/
def seen : TOp → Nat × Nat × Nat
  | .write _ index w => (0, index, w.toNat)
  | .read _ index => (1, index, 0)
  | .readBlock _ offset length => (2, offset, length)

/-- The trace so far, oldest first. -/
def trace (s : State) : List (Nat × Nat × Nat) := (s.port.map seen).reverse

/-- CTRL0 writes, oldest first. -/
def serial (ws : List Nat) : List (Nat × Nat × Nat) := ws.map fun w => (0, 0, w)

/-- CTRL1 writes, oldest first. -/
def control (ws : List Nat) : List (Nat × Nat × Nat) := ws.map fun w => (0, 1, w)

/-- A capture that holds the same word everywhere. -/
def flat (w : Word) : Capture := { words := Vector.replicate 4 [], fill := w }

/-- A capture that holds the given words of chip `c` first, and `fill` everywhere else. -/
def showing (c : Fin 4) (ws : List Word) (fill : Word) : Capture := { words := (Vector.replicate 4 []).set c ws, fill := fill }

theorem ready_completes (n : Nat) (captures : List Capture) : (ready n captures).NoTransportFailure n :=
  State.noTransportFailure_of_answers (rest := []) (by simp [ready])

theorem thenAnswer_completes (n : Nat) (a : PortAnswer) (captures : List Capture) : (thenAnswer n a captures).NoTransportFailure n :=
  State.noTransportFailure_of_answers (rest := [a]) rfl

theorem thenAnswer_last (n : Nat) (a : PortAnswer) (captures : List Capture) (op : TOp) :
    (thenAnswer n a captures).answerAt n op = a := by
  simp [thenAnswer, State.answerAt]

/-! ### Well-formedness (R111): an ill-formed command of each kind is refused, its neighbour is not -/

theorem test_wellFormed_snap : (Instr.snap 0x10 1).wellFormed = false ∧ (Instr.snap 0x0F 1).wellFormed = true := by decide
theorem test_wellFormed_dlytap : (Instr.dlytap 4 0 0).wellFormed = false ∧ (Instr.dlytap 3 0 0).wellFormed = true := by decide
theorem test_wellFormed_bitslip : (Instr.bitslip 0x10).wellFormed = false ∧ (Instr.bitslip 0).wellFormed = true := by decide
theorem test_wellFormed_caltaps : (Instr.caltaps 7 0).wellFormed = false ∧ (Instr.caltaps 3 0).wellFormed = true := by decide
theorem test_wellFormed_sync : (Instr.sync 0x80 0).wellFormed = false ∧ (Instr.sync 0x0F 0).wellFormed = true := by decide

/-! ### Decoding: the words of 95_test_vectors.md section 2.1, written out in its fields -/

theorem test_decode_setcs :
    decode 0b00000001_00000000000000000000_0101 = .ok (.setcs 0b0101) ∧ decode 0x01000010 = .error .reservedBit := by decide

theorem test_decode_wrreg : decode 0b00000010_10100101_0011110001011010 = .ok (.wrreg 0xA5 0x3C5A) := by decide

theorem test_decode_setpat :
    decode 0x03000000 = .ok .setpatNone ∧ decode 0x03000001 = .ok .setpatRamp ∧ decode 0x03000002 = .ok .setpatDeskew ∧
    decode 0x03000003 = .ok .setpatSync ∧ decode 0x03000004 = .ok .setpatCustom ∧ decode 0x03000005 = .ok .setpatDual ∧
    decode 0x03000006 = .error .unknownKind ∧ decode 0x03000007 = .error .unknownKind ∧ decode 0x03000008 = .error .reservedBit := by
  decide

theorem test_decode_setfmt :
    decode 0x04000001 = .ok (.setfmt true false) ∧ decode 0x04000002 = .ok (.setfmt false true) ∧
    decode 0x04000003 = .ok (.setfmt true true) ∧ decode 0x04000004 = .error .reservedBit := by decide

theorem test_decode_snap :
    decode 0b00000101_00000101_0000000000000010 = .ok (.snap 0b101 2) ∧ decode 0x050F0401 = .ok (.snap 0x0F 1025) ∧
    decode 0x05110001 = .ok (.snap 0x11 1) := by decide

theorem test_decode_dlytap :
    decode 0b00000110_00000_010_0000_0001_00001101 = .ok (.dlytap 2 13 0b0001) ∧ decode 0x0603061F = .ok (.dlytap 3 31 0b0110) ∧
    decode 0x060102C8 = .ok (.dlytap 1 200 0b0010) ∧ decode 0x06080000 = .error .reservedBit ∧
    decode 0x06001000 = .error .reservedBit ∧ decode 0x06040000 = .ok (.dlytap 4 0 0) := by decide

theorem test_decode_bitslip :
    decode 0b00000111_00000100_0000000000000000 = .ok (.bitslip 0b100) ∧ decode 0x07040001 = .error .reservedBit := by decide

theorem test_decode_caltaps :
    decode 0b00001000_00000_011_00000000_11010101 = .ok (.caltaps 3 0xD5) ∧ decode 0x0801002A = .ok (.caltaps 1 0x2A) ∧
    decode 0x0801012A = .error .reservedBit ∧ decode 0x0807002A = .ok (.caltaps 7 0x2A) := by decide

theorem test_decode_sync :
    decode 0b00001001_00001010_00000000_01110000 = .ok (.sync 0b1010 0x70) ∧ decode 0x09010170 = .error .reservedBit ∧
    decode 0x09800070 = .ok (.sync 0x80 0x70) := by decide

theorem test_decode_cal :
    decode 0b00001010_00000000_00101010_01110000 = .ok (.cal 0x2A 0x70) ∧ decode 0x0A012A70 = .error .reservedBit := by decide

theorem test_decode_unknown :
    decode 0x00000000 = .error .unknownOp ∧ decode 0xFFFFFFFF = .error .unknownOp ∧ decode 0x0B000000 = .error .unknownOp := by decide

theorem test_decode_reservedFirst : decode 0x07100001 = .error .reservedBit := by decide

theorem test_encode :
    encode (.wrreg 0x46 0x0008) = 0x02460008 ∧ encode (.snap 0b10 2) = 0x05020002 ∧ encode (.bitslip 0x0F) = 0x070F0000 ∧
    encode (.caltaps 3 0xD5) = 0x080300D5 := by decide

/-! ### The serial programmer (V10, V11) -/

theorem test_setcs : (after (.setcs 0b0101) (ready 0 [])).map (fun t => (t.csmask, t.cp, trace t)) = some (0b0101, 1, []) := by
  decide

theorem test_wrreg_trace : (after (.wrreg 0xA5 0x3C5A) (ready 50 [])).map trace = some (serial
    [0x00F, 0x100, 0x300, 0x000, 0x200, 0x100, 0x300, 0x000, 0x200, 0x000,
     0x200, 0x100, 0x300, 0x000, 0x200, 0x100, 0x300, 0x000, 0x200, 0x000,
     0x200, 0x100, 0x300, 0x100, 0x300, 0x100, 0x300, 0x100, 0x300, 0x000,
     0x200, 0x000, 0x200, 0x000, 0x200, 0x100, 0x300, 0x000, 0x200, 0x100,
     0x300, 0x100, 0x300, 0x000, 0x200, 0x100, 0x300, 0x000, 0x200, 0x00F]) := by
  decide

theorem test_wrreg_selected :
    (after (.wrreg 0x46 0x000C) { ready 50 [] with csmask := 0b0101 }).map (fun t =>
      ((t.dev.chips.map fun ch => ch.adcreg[0x46]).toList, t.csmask, (trace t).drop 46)) =
    some ([0x000C, 0, 0x000C, 0], 0b0101, serial [0x20A, 0x00A, 0x20A, 0x00F]) := by
  decide +kernel

/-! ### Patterns and format (V20 to V25, V27) -/

/-- The two pattern registers of the last chip. -/
def patternRegs (t : State) : BitVec 16 × BitVec 16 := (t.dev.chips[3].adcreg[0x25], t.dev.chips[3].adcreg[0x45])

/-- The machine with both pattern registers of every chip set. -/
def dirty (n : Nat) : State :=
  { ready n [] with
    dev := { Device.atPowerOn with
      chips := Vector.replicate 4 { Chip.atPowerOn with adcreg := ((Vector.replicate 256 0).set 0x25 0xFFFF).set 0x45 0xFFFF } } }

/-- What SETPAT of a kind leaves: the two pattern registers, and the number of operations. -/
def setpatResult (kind : PatKind) (n : Nat) : Option ((BitVec 16 × BitVec 16) × Nat) :=
  (after kind.instr (dirty n)).map fun t => (patternRegs t, t.port.length)

theorem test_setpat :
    setpatResult .none 100 = some ((0, 0), 100) ∧ setpatResult .ramp 150 = some ((0x0040, 0), 150) ∧
    setpatResult .deskew 150 = some ((0, 0x0001), 150) ∧ setpatResult .sync 150 = some ((0, 0x0002), 150) ∧
    setpatResult .custom 150 = some ((0x0010, 0), 150) ∧ setpatResult .dual 150 = some ((0x0020, 0), 150) := by
  decide +kernel

theorem test_setfmt_invert :
    (after (.setfmt true false) (ready 50 [])).map (fun t => (t.dev.chips[0].adcreg[0x46], t.port.length)) = some (0x0004, 50) := by
  decide

theorem test_setfmt_msb :
    (after (.setfmt false true) (ready 50 [])).map (fun t => (t.dev.chips[0].adcreg[0x46], t.port.length)) = some (0x0008, 50) := by
  decide

/-! ### Snapshot (V30, V61, V32) -/

/-- The samples of a chip as numbers, one list per lane, as the host reads them (R30). -/
def samples (t : State) (c : Fin 4) : List (List Int) := (List.finRange 4).map fun lane => (t.res.sampleSeq c lane).map BitVec.toInt

theorem test_snap :
    (after (.snap 0b10 2) (ready 4 [showing 1 [0x2A2A80FF, 0x7F000170] 0])).map
      (fun t => (trace t, samples t 1, t.res.sampleLen, t.res.sampleValid)) =
    some (control [0, 1, 0] ++ [(2, 1024, 2)], [[42, 42], [-128, -1], [127, 0], [1, 112]], 2, 0b0010) := by
  decide +kernel

theorem test_snap_noChips : (after (.snap 0 1) (ready 3 [flat 0])).map (fun t => (trace t, t.res.sampleValid, t.cp)) =
    some (control [0, 1, 0], 0, 1) := by
  decide

theorem test_byteOrder :
    ByteOrder.toBytes .little [0x2A2A80FF, 0x7F000170] = [0xFF, 0x80, 0x2A, 0x2A, 0x70, 0x01, 0x00, 0x7F] ∧
    ByteOrder.toBytes .big [0x2A2A80FF, 0x7F000170] = [0x2A, 0x2A, 0x80, 0xFF, 0x7F, 0x00, 0x01, 0x70] := by decide

/-- S2: the sample values of 95_test_vectors.md. -/
theorem test_conv :
    [0x00, 0x01, 0x2A, 0x70, 0x7F, 0x80, 0x81, 0xD5, 0xF0, 0xFF].map (fun b => (conv b).toInt) =
      [0, 1, 42, 112, 127, -128, -127, -43, -16, -1] := by decide

/-- R110: counts are clamped into 1..1024, taps into 0..31 (V34, V39, V39b). -/
theorem test_clamp :
    clampCount 0 = 1 ∧ clampCount 1 = 1 ∧ clampCount 1024 = 1024 ∧ clampCount 1025 = 1024 ∧ clampCount 65535 = 1024 ∧
    clampTap 31 = 31 ∧ clampTap 32 = 31 ∧ clampTap 200 = 31 := by decide

/-! ### Delay taps (V36, V39b) -/

/-- All taps of all chips. -/
def taps (t : State) : List (List Nat) := t.dev.chips.toList.map fun ch => ch.tap.toList.map BitVec.toNat

theorem test_dlytap :
    (after (.dlytap 2 13 0b0001) (ready 3 [])).map (fun t => (trace t, taps t)) =
    some (control [0x00006800, 0x08006800, 0x00000000], [[0, 0, 0, 0], [0, 0, 0, 0], [13, 0, 0, 0], [0, 0, 0, 0]]) := by
  decide

theorem test_dlytap_clamped :
    (after (.dlytap 3 32 0b1000) (ready 3 [])).map (fun t => (trace t, taps t)) =
    some (control [0x0000F800, 0x1000F800, 0x00000000], [[0, 0, 0, 0], [0, 0, 0, 0], [0, 0, 0, 0], [0, 0, 0, 31]]) := by
  decide

/-! ### The sweep and the selection -/

/-- V46, the selection alone. -/
theorem test_selection :
    [List.range 32, [0, 1, 30, 31], [5, 6, 7, 8, 9, 10, 11, 12], [7], [31], [0], [15, 16], [3, 4, 5, 6], List.range 21, [14, 31],
        [0, 16], [0, 17], [0, 1, 2, 3, 4, 29, 30, 31], [1, 2, 3, 4, 5, 9, 10, 11]].map (fun g => (selectTap g).toNat) =
      [0, 0, 9, 7, 31, 0, 16, 5, 5, 14, 16, 0, 1, 5] ∧
    rotate [0, 1, 2, 3, 4, 29, 30, 31] = [29, 30, 31, 32, 33, 34, 35, 36] ∧ rotate [14, 31] = [31, 46] := by
  decide

/-- V40: the three delay writes after the sweep, lane 3 skipped; taps end at 9, 0, 5 and 31. -/
theorem test_caltaps_select :
    (went (selectAndProgram
      { ready 9 [] with
        work := { Work.atReset with curchip := 1 }
        res := { Results.atReset with good := #v[0x00001FE0, 0xC0000003, 0x001FFFFF, 0x00000000] } })).map
      (fun t => (trace t, (taps t)[1]?)) =
    some (control [0x00004800, 0x00804800, 0, 0, 0x00400000, 0, 0x00002800, 0x00202800, 0], some [9, 0, 5, 0]) := by
  decide

/-- V40: the seven operations of the last step of the sweep. -/
theorem test_caltaps_tap :
    (went (sweepTap 31 { ready 7 [flat 0x2A2A2A2A] with work := { Work.atReset with curchip := 1, expect := 0x2A } })).map trace =
    some (control [0x0000F800, 0x00F0F800, 0, 0, 1, 0] ++ [(2, 1024, 256)]) := by
  decide

/-- V41: the counts of one wrong byte in row 1 and one in row 7 of the 8-row view. -/
theorem test_counts :
    let t := ({ ready 0 [] with
      work := { Work.atReset with
        tapidx := 31
        expect := 0x2A
        raw := List.replicate 130 0x2A ++ [0x2B] ++ List.replicate 769 0x2A ++ [0x00] ++ List.replicate 123 0x2A } } : State).countTap
    (t.work.evcnt.toList, t.work.odcnt.toList, t.res.good.toList) =
      ([0, 1, 0, 0], [0, 0, 0, 1], [0x80000000, 0, 0x80000000, 0]) := by
  decide +kernel

/-! ### Bit-slip and synchronisation (V48b, V56) -/

theorem test_bitslip :
    (after (.bitslip 0b1010) (ready 3 [])).map (fun t => (trace t, t.dev.chips.toList.map Chip.slip)) =
    some (control [0, 0x00000500, 0], [0, 1, 0, 1]) := by
  decide

/-- R217: the loop's capture matches, so no pulse, but the final one does not. -/
theorem test_sync_final :
    (after (.sync 0b1 0x70) (ready 8 [flat 0x70707070, flat 0x00010101])).map
      (fun t => (trace t, t.res.syncok[0], t.res.syncValid, t.dev.chips[0].slip)) =
    some (control [0, 1, 0] ++ [(2, 0, 1)] ++ control [0, 1, 0] ++ [(2, 0, 1)], false, 1, 0) := by
  decide +kernel

/-- The order of V51 with one mismatch: capture, pulse, the capture that matches, the final capture. -/
theorem test_sync_pulse :
    (after (.sync 0b1 0x70) (ready 15 [flat 0x38383838, flat 0x70707070, flat 0x70707070])).map
      (fun t => (trace t, t.res.syncok[0], t.dev.chips[0].slip)) =
    some (control [0, 1, 0] ++ [(2, 0, 1)] ++ control [0, 0x80, 0] ++ control [0, 1, 0] ++ [(2, 0, 1)] ++ control [0, 1, 0] ++
      [(2, 0, 1)], true, 1) := by
  decide +kernel

/-- R219, R233: CAL's first 150 operations are SETPAT deskew's; ERROP counts in CAL's own trace. -/
theorem test_cal_start :
    (after (.cal 0x2A 0x70) (thenAnswer 150 (.fails true) [])).map
      (fun t => (t.faults, t.port.length, patternRegs t)) =
    some (FaultRegs.mk true 2 0 150, 151, (0, 0x0001)) := by
  decide +kernel

/-! ### Faults (V60 to V63), the step and reset -/

theorem test_fault_chip :
    (stepped { ready 0 [] with prog := [0x01000003, 0x06050F07, 0x02000001], cp := 1, csmask := 0b0011 }).map
      (fun t => (t.faults, t.cp, t.csmask, t.port.length)) =
    some (FaultRegs.mk true 1 1 0, 1, 0b0011, 0) := by
  decide

theorem test_fault_illegal :
    (stepped { ready 0 [] with prog := [0x05000001, 0x00000000], cp := 1 }).map
      (fun t => (t.faults, t.cp, trace t)) =
    some (FaultRegs.mk true 3 1 0, 1, []) := by
  decide

theorem test_fault_transport :
    (after (.wrreg 0x46 0x0008) { thenAnswer 17 (.fails false) [] with csmask := 0b0010, cp := 1 }).map
      (fun t => (t.faults, t.dev.ctrl0, t.dev.chips[1].rxcnt, ((trace t).take 17).map fun op => op.2.2)) =
    some (FaultRegs.mk true 2 1 17, 0x20D, 8,
      [0x00F, 0x00D, 0x20D, 0x10D, 0x30D, 0x00D, 0x20D, 0x00D, 0x20D, 0x00D, 0x20D, 0x10D, 0x30D, 0x10D, 0x30D, 0x00D, 0x20D]) := by
  decide

/-- V62 with the failed write landed. -/
theorem test_fault_landed :
    (after (.wrreg 0x46 0x0008) { thenAnswer 17 (.fails true) [] with csmask := 0b0010 }).map
      (fun t => (t.faults.errop, t.dev.chips[1].rxcnt, t.dev.chips[1].rxsr.extractLsb' 0 8, t.port.length)) = some (17, 8, 0x46, 18) := by
  decide

theorem test_fault_blockRead :
    (after (.snap 0b1 16) (thenAnswer 3 (.fails false) [flat 0x01020304])).map
      (fun t => (t.faults, t.dev.captures, t.dev.capbuf.read 0, t.dev.capbuf.read 3)) =
    some (FaultRegs.mk true 2 0 3, 1, 0x01, 0x04) := by
  decide

/-- R237, R266, R260: a halted sequencer, the end of the stream, an asserted reset. -/
theorem test_step_stops :
    stepped { ready 0 [] with prog := [0x0100000F], faults := { halt := true, err := 3, errcp := 0, errop := 0 } } = none ∧
    stepped { ready 0 [] with prog := [0x0100000F], cp := 1 } = none ∧
    (stepped { State.assertReset (ready 0 []) with cp := 7, csmask := 0 }).map (fun t => (t.cp, t.csmask)) = some (0, 0b1111) := by
  decide

/-- R260: reset asserted before the third write of a BITSLIP. -/
theorem test_reset_midCommand :
    (after (.bitslip 0b1) (thenAnswer 2 .resetFirst [])).map (fun t => (t.cp, trace t, t.dev.ctrl1, t.dev.chips[0].slip)) =
    some (0, control [0, 0x80], 0x80, 1) := by
  decide

theorem test_decodeTableWord : decodeTableWord 32 0x060102C8 = some (.dlytap 1 200 0b0010) ∧ decodeTableWord 32 0 = none := by decide

theorem test_withFetchWord : (stepped (State.reset.withFetchWord 32 0x01000005)).map (fun t => (t.csmask, t.cp)) = some (0b0101, 1) := by
  decide

/-! ### The host (R268) -/

/-- The stream bytes of a word the host writes (R64, big-endian), the word read back, and nothing while a command stream is left. -/
theorem test_host_capbuf :
    (State.reset.hostWriteCapbuf 4095 0x01020304).map
      (fun t => ([16380, 16381, 16382, 16383].map t.dev.capbuf.read, t.hostReadCapbuf 4095 1)) =
      some ([0x01, 0x02, 0x03, 0x04], some [0x01020304]) ∧
    State.reset.hostWriteCapbuf 4096 0 = none ∧
    ({ ready 0 [] with prog := [0x0100000F] } : State).hostWriteCapbuf 0 1 = none := by
  decide

/-- A stream is supplied before the run, and neither during it, nor after its end, nor when the sequencer is halted. -/
theorem test_host_supply :
    (State.reset.supply [0x0100000F]).map (fun t => (t.prog, t.cp)) = some ([0x0100000F], 0) ∧
    ({ ready 0 [] with prog := [0x01000001, 0x01000002], cp := 1 } : State).supply [0x0100000F] = none ∧
    ({ ready 0 [] with prog := [0x01000001], cp := 1 } : State).supply [0x0100000F] = none ∧
    ({ ready 0 [] with prog := [0], faults := { halt := true, err := 3, errcp := 0, errop := 0 } } : State).supply [0x0100000F] = none := by
  decide

/-- R76: a rising BITSLIP bit the host writes slips its chip. -/
theorem test_host_ctrl1 :
    (State.reset.hostWriteCtrl1 0x80).map (fun t => (t.hostReadCtrl1, t.dev.chips[0].slip, t.port)) = some (some 0x80, 1, []) := by
  decide

/-! ### Witnesses: the premises of each statement, met together -/

theorem ready_params (n : Nat) (captures : List Capture) : (ready n captures).params.Wf := by
  show Params.default.Wf
  decide

theorem ready_noStaleFrame (n : Nat) (captures : List Capture) : (ready n captures).NoStaleFrame := by
  have h : ∀ c : Fin 4, Device.atPowerOn.chips[c].rxcnt ≠ 24 := by decide
  exact fun c _ => h c

theorem ready_device (n : Nat) (captures : List Capture) : (ready n captures).dev.Inv where
  memory := rfl
  inside := fun _ h => nomatch h
  counts := by
    show ∀ c : Fin 4, Device.atPowerOn.chips[c].rxcnt ≤ 25
    decide

/-- A command whose chips exist completes from the start state. -/
theorem ready_runs {i : Instr} (h : i.wellFormed = true) (captures : List Capture) :
    ∃ t, exec i (ready (maxOps i) captures) = .next t ∧ t.cp = (ready (maxOps i) captures).cp + 1 := by
  obtain ⟨m, -, h1, h2⟩ := exec_completes h (ready_completes (maxOps i) captures)
  exact ⟨_, h1, h2.cp⟩

/-- The start state with one command in the stream. -/
def loaded (w : Word) : State := { ready 0 [] with prog := [w] }

theorem witness_EncodeOfDecode : decode 0x01000005 = .ok (.setcs 0b0101) := by decide

/-- An unknown `op` on both sides of the known ones, a reserved bit, and the first unknown kind. -/
theorem witness_IllegalWordsRaise :
    (IllegalWord 0x00000000 ∧ IllegalWord 0x0B000000 ∧ IllegalWord 0x01000010 ∧ IllegalWord 0x03000006) ∧
    ∀ w ∈ [0x00000000#32, 0x0B000000#32, 0x01000010#32, 0x03000006#32],
      (loaded w).fetch = some w ∧ (loaded w).env.resetLine = false ∧ (loaded w).faults.halt = false ∧
      (loaded w).work.phase = .idle ∧ (loaded w).work.substep = 0 :=
  ⟨⟨.inl (by decide), .inl (by decide), .inr (.inl (by decide)), .inr (.inr (by decide))⟩, fun w _ => ⟨rfl, rfl, rfl, rfl, rfl⟩⟩

/-- The last known `op`, and the last known kind. -/
theorem witness_IllegalWordsRaise_legal : ¬ IllegalWord 0x0A002A70 ∧ ¬ IllegalWord 0x03000005 := by
  refine ⟨fun h => ?_, fun h => ?_⟩ <;> rcases h with h | h | h
  · exact absurd h (by decide)
  · exact absurd h (by decide)
  · exact absurd h (by decide)
  · exact absurd h (by decide)
  · exact absurd h (by decide)
  · exact absurd h (by decide)

theorem witness_OpcodeRowsFit :
    decode 0x0603061F = .ok (.dlytap 3 31 0b0110) ∧
    0x0603061F#32 &&& (Instr.dlytap 0 0 0).row.mask = (Instr.dlytap 0 0 0).row.pattern ∧
    0x0603061F#32 &&& (Instr.dlytap 3 31 6).row.mask = (Instr.dlytap 3 31 6).row.pattern := by decide

theorem witness_StepRunsTheDecodedCommand :
    (loaded 0x0A002A70).env.resetLine = false ∧ (loaded 0x0A002A70).faults.halt = false ∧
    (loaded 0x0A002A70).fetch = some 0x0A002A70 ∧ decode 0x0A002A70 = .ok (.cal 0x2A 0x70) := by decide

theorem witness_HaltedSequencerHasNoStep :
    let s : State := { loaded 0x0100000F with faults := { halt := true, err := 3, errcp := 0, errop := 0 } }
    s.env.resetLine = false ∧ s.faults.halt = true := by decide

/-- The end of the stream, and a place beyond it. -/
theorem witness_EndOfRunHasNoStep :
    (∀ n ∈ [1, 2], let s : State := { loaded 0x0100000F with cp := n }
      s.env.resetLine = false ∧ s.faults.halt = false ∧ s.prog.length ≤ s.cp) ∧ State.reset.prog.length ≤ State.reset.cp := by decide

theorem witness_AssertedResetComesFirst : (ready 0 []).assertReset.env.resetLine = true := rfl

theorem witness_PlacedWordRuns :
    State.reset.faults.halt = false ∧ decodeTableWord 32 0x0A002A70 = some (.cal 0x2A 0x70) := by decide

theorem witness_StepKeepsTheInvariant : (loaded 0x0100000F).Inv ∧ ∃ t, step (loaded 0x0100000F) = .next t :=
  ⟨{ params := ready_params 0 []
     device := ready_device 0 []
     phase := rfl
     substep := rfl
     fault := by decide
     port := fun _ h => nomatch h }, _, rfl⟩

/-- A step that completes, and one that ends in TransportFailure with the failing write landed or not. -/
theorem witness_WorldIsThePortReplayed :
    ∀ s ∈ [{ ready 3 [] with prog := [0x07010000] }, { thenAnswer 1 (.fails true) [] with prog := [0x07010000] },
        { thenAnswer 1 (.fails false) [] with prog := [0x07010000] }],
      s.params.Wf ∧ ∃ t, step s = .next t := by
  intro s hs
  fin_cases hs <;> exact ⟨ready_params 0 [], _, rfl⟩

/-- The three outcomes. -/
theorem witness_CommandOutcomes :
    (∃ t, exec (.setcs 0) (ready 0 []) = .next t ∧ t.cp = 1) ∧
    (∃ t, exec (.dlytap 4 0 0) (ready 0 []) = .next t ∧ t.faults.halt = true) ∧
    ∃ t, exec (.bitslip 1) (thenAnswer 0 .resetFirst []) = .next t ∧ t.AtReset :=
  ⟨⟨_, rfl, rfl⟩, ⟨_, rfl, rfl⟩, _, rfl, rfl, rfl, rfl, rfl, rfl, rfl, rfl, rfl⟩

/-- A word that is no command, a missing chip, and a failing write that landed or did not. -/
theorem witness_FaultsSetNoFlag :
    ∀ s ∈ [loaded 0x00000000, loaded 0x06050F07, { thenAnswer 1 (.fails true) [] with prog := [0x07010000] },
        { thenAnswer 1 (.fails false) [] with prog := [0x07010000] }],
      ∃ t, step s = .next t ∧ t.faults.halt = true := by
  intro s hs
  fin_cases hs <;> exact ⟨_, rfl, rfl⟩

/-- The first and the last identifier that does not exist, and the least set that names one; then a command that completes. -/
theorem witness_MissingChipIsRefused :
    (∀ chip ∈ [4#3, 7#3], 3 < chip.toNat) ∧ (∀ chips ∈ [0x10#8, 0x80#8, 0x1F#8], chips.extractLsb' 4 4 ≠ 0#4) ∧
    (ready 0 []).work.phase = .idle ∧ (ready 0 []).work.substep = 0 ∧
    (Instr.setcs 0).wellFormed = true ∧ (ready 0 []).NoFault ∧ ∃ t, exec (.setcs 0) (ready 0 []) = .next t :=
  ⟨by decide, by decide, rfl, rfl, rfl, ⟨rfl, rfl⟩, _, rfl⟩

theorem witness_DecodeComesBeforeTheChipCheck :
    (loaded 0x07100001).env.resetLine = false ∧ (loaded 0x07100001).faults.halt = false ∧
    (loaded 0x07100001).fetch = some 0x07100001 := by decide

/-- The first operation fails, the last one fails, and one fails that a WRREG no longer issues. -/
theorem witness_FailingOperationStopsTheCommand :
    (Instr.wrreg 0 0).wellFormed = true ∧
    ∀ k ∈ [0, 49, 50], (thenAnswer k (.fails true) []).params.Wf ∧ (thenAnswer k (.fails true) []).NoTransportFailure k ∧
      ∀ op, ∃ landed, (thenAnswer k (.fails true) []).answerAt k op = .fails landed :=
  ⟨rfl, fun k _ => ⟨ready_params 0 [], thenAnswer_completes k _ _, fun op => ⟨true, thenAnswer_last k _ _ op⟩⟩⟩

/-- Before the first operation, inside the fixed part, after it, inside the part whose length the captures decide, and after the end. -/
theorem witness_ResetAbandonsTheCommand :
    (Instr.wrreg 0 0).wellFormed = true ∧ (Instr.caltaps 3 0x2A).wellFormed = true ∧
    ∀ k ∈ [0, 49, 50, 230, 236], (thenAnswer k .resetFirst []).params.Wf ∧ (thenAnswer k .resetFirst []).NoTransportFailure k ∧
      ∀ op, (thenAnswer k .resetFirst []).answerAt k op = .resetFirst :=
  ⟨rfl, rfl, fun k _ => ⟨ready_params 0 [], thenAnswer_completes k _ _, fun op => thenAnswer_last k _ _ op⟩⟩

/-- A command of each constructor, chip operands at the edge of their range. -/
theorem witness_CommandsCompleteWithinTheirCounts :
    ∀ i ∈ [Instr.setcs 0, .wrreg 0 0, .setpatNone, .setpatRamp, .setpatDeskew, .setpatSync, .setpatCustom, .setpatDual,
        .setfmt true true, .snap 0x0F 65535, .dlytap 3 255 0, .bitslip 0x0F, .caltaps 3 0x80, .sync 0x0F 0x80, .sync 0 0,
        .cal 0xFF 0xFF],
      i.wellFormed = true ∧ (ready (maxOps i) []).NoTransportFailure (maxOps i) :=
  fun i hi => ⟨by revert i; decide, ready_completes _ _⟩

/-- The default layout, and one with every field at the other end of the word. -/
theorem witness_Ctrl0WordFields :
    Params.default.Ctrl0Wf ∧ { Params.default with sclkBit := 0, sdataBit := 27, csLsb := 28 : Params }.Ctrl0Wf := by decide

theorem witness_WrregTrace : (ready 50 []).NoTransportFailure 50 := ready_completes _ _

theorem witness_WrregWritesSelectedChips :
    (ready 50 []).params.Wf ∧ (ready 50 []).NoStaleFrame ∧ (ready 50 []).NoTransportFailure 50 :=
  ⟨ready_params _ _, ready_noStaleFrame _ _, ready_completes _ _⟩

/-- A complete frame left open in chip 0, with `n` operations that complete. -/
def staleFrame (n : Nat) : State :=
  { ready n [] with
    dev := { Device.atPowerOn with
      prev0 := 0x0000000E
      chips := Device.atPowerOn.chips.set 0 { Chip.atPowerOn with rxcnt := 24, rxsr := 0x251234 } } }

theorem staleFrame_completes (n : Nat) : (staleFrame n).NoTransportFailure n :=
  State.noTransportFailure_of_answers (rest := []) (by simp [staleFrame, ready])

theorem staleFrame_open (n : Nat) :
    selects (staleFrame n).params (staleFrame n).dev.prev0 0 = true ∧ (staleFrame n).dev.chips[(0 : Fin 4)].rxcnt = 24 := by
  show selects Params.default 0x0000000E 0 = true ∧
    (Device.atPowerOn.chips.set 0 { Chip.atPowerOn with rxcnt := 24, rxsr := 0x251234 })[(0 : Fin 4)].rxcnt = 24
  decide

theorem witness_WrregFromAnyReceiverState :
    (staleFrame 50).params.Wf ∧ (staleFrame 50).NoTransportFailure 50 ∧
    selects (staleFrame 50).params (staleFrame 50).dev.prev0 0 = true ∧ (staleFrame 50).dev.chips[(0 : Fin 4)].rxcnt = 24 :=
  ⟨ready_params 0 [], staleFrame_completes 50, staleFrame_open 50⟩

theorem witness_SetpatTrace : (ready 150 []).NoTransportFailure 150 := ready_completes _ _

/-- With no frame left open, and with one. -/
theorem witness_SetpatSelectsThePattern :
    ∀ s ∈ [ready 150 [], staleFrame 150], s.params.Wf ∧ s.NoTransportFailure 150 := by
  intro s hs
  fin_cases hs
  · exact ⟨ready_params _ _, ready_completes _ _⟩
  · exact ⟨ready_params 0 [], staleFrame_completes _⟩

theorem witness_SetfmtWritesTheFormat :
    ∀ s ∈ [ready 50 [], staleFrame 50], s.params.Wf ∧ s.NoTransportFailure 50 := by
  intro s hs
  fin_cases hs
  · exact ⟨ready_params _ _, ready_completes _ _⟩
  · exact ⟨ready_params 0 [], staleFrame_completes _⟩

theorem witness_SerialCommandsFrame :
    ∀ i ∈ [Instr.wrreg 0xFF 0xFFFF, .setpatNone, .setpatRamp, .setpatDeskew, .setpatSync, .setpatCustom, .setpatDual,
        .setfmt false true],
      isSerial i = true ∧ (ready (maxOps i) []).params.Wf ∧
      ∃ t, exec i (ready (maxOps i) []) = .next t ∧ t.cp = (ready (maxOps i) []).cp + 1 :=
  fun i hi => ⟨by revert i; decide, ready_params _ _, ready_runs (by revert i; decide) []⟩

/-- The default layout, and one with the fields in the opposite order. -/
theorem witness_Ctrl1WordFields :
    Params.default.Ctrl1Wf ∧
    { Params.default with rstLsb := 0, tapLsb := 16, bitslipLsb := 27, snapBit := 31 : Params }.Ctrl1Wf := by decide

theorem witness_DlytapLoadsItsLanes :
    (ready 3 []).params.Wf ∧ (3#3).toNat = (3 : Fin 4).val ∧ (0#3).toNat = (0 : Fin 4).val ∧ (ready 3 []).NoTransportFailure 3 :=
  ⟨ready_params _ _, rfl, rfl, ready_completes _ _⟩

theorem witness_BitslipPulsesItsChips :
    (ready 3 []).params.Wf ∧ 0x0F#8 = 0#4 ++ 0b1111#4 ∧ 0x00#8 = 0#4 ++ 0b0000#4 ∧ (ready 3 []).NoTransportFailure 3 :=
  ⟨ready_params _ _, by decide, by decide, ready_completes _ _⟩

theorem witness_PulseCommandsFrame :
    ∀ i ∈ [Instr.setcs 0b0101, .dlytap 3 255 0b1111, .bitslip 0x0F, .bitslip 0],
      isPulse i = true ∧ (ready (maxOps i) []).params.Wf ∧
      ∃ t, exec i (ready (maxOps i) []) = .next t ∧ t.cp = (ready (maxOps i) []).cp + 1 :=
  fun i hi => ⟨by revert i; decide, ready_params _ _, ready_runs (by revert i; decide) []⟩

/-- All four chips, and none. -/
theorem witness_SnapReadsTheCapture :
    (ready 7 []).params.Wf ∧ 0x0F#8 = 0#4 ++ 0b1111#4 ∧ (ready 7 []).NoTransportFailure (3 + (chipsIn 0b1111).length) ∧
    0x00#8 = 0#4 ++ 0b0000#4 ∧ (ready 3 []).NoTransportFailure (3 + (chipsIn 0b0000).length) :=
  ⟨ready_params _ _, by decide, ready_completes 7 _, by decide, ready_completes 3 _⟩

theorem witness_SnapCapturesEveryChip :
    (ready 4 [flat 0x2A2A80FF]).params.Wf ∧ 0x02#8 = 0#4 ++ 0b0010#4 ∧
    (ready 4 [flat 0x2A2A80FF]).NoTransportFailure (3 + (chipsIn 0b0010).length) ∧
    (ready 4 [flat 0x2A2A80FF]).env.captures = flat 0x2A2A80FF :: [] :=
  ⟨ready_params _ _, by decide, ready_completes 4 _, rfl⟩

theorem witness_SnapFrame :
    ∀ count ∈ [0#16, 65535#16],
      (ready 7 []).params.Wf ∧ (ready 7 []).dev.Inv ∧
      ∃ t, exec (.snap 0x0F count) (ready 7 []) = .next t ∧ t.cp = (ready 7 []).cp + 1 :=
  fun count _ => ⟨ready_params _ _, ready_device _ _, ready_runs (i := .snap 0x0F count) rfl []⟩

/-- Width 16 stays, width 17 is rotated, and so is a full list. -/
theorem witness_RotateRule :
    maxOf (tapsOf 0x00010001) - minOf (tapsOf 0x00010001) = 16 ∧ maxOf (tapsOf 0x00020001) - minOf (tapsOf 0x00020001) = 17 ∧
    maxOf (tapsOf 0xFFFFFFFF) - minOf (tapsOf 0xFFFFFFFF) = 31 := by decide

theorem witness_SelectedTapIsGood : tapsOf 0x80000000 ≠ [] ∧ tapsOf 0x00000001 ≠ [] := by decide

theorem witness_CaltapsSweepsAndSelects :
    (ready 236 []).params.Wf ∧ (3#3).toNat = (3 : Fin 4).val ∧ (ready 236 []).NoTransportFailure 236 :=
  ⟨ready_params _ _, rfl, ready_completes _ _⟩

/-- The start state with 32 equal captures to come. -/
def sweeping (w : Word) : State := ready 236 (List.replicate 32 (flat w))

theorem sweeping_captures (w : Word) (j : Fin 32) : (sweeping w).env.captures[j.val]? = some (flat w) := by
  show (List.replicate 32 (flat w))[j.val]? = _
  rw [List.getElem?_replicate, if_pos j.isLt]

theorem witness_CaltapsCountsItsCaptures :
    (sweeping 0x2A2A2A2A).params.Wf ∧ (3#3).toNat = (3 : Fin 4).val ∧ (sweeping 0x2A2A2A2A).NoTransportFailure 236 ∧
    ∀ j : Fin 32, (sweeping 0x2A2A2A2A).env.captures[j.val]? = some (flat 0x2A2A2A2A) :=
  ⟨ready_params _ _, rfl, ready_completes _ _, sweeping_captures _⟩

/-- V44 and V43: every byte as expected, and none. -/
theorem witness_CaltapsExtremes :
    ((sweeping 0x2A2A2A2A).params.Wf ∧ (0#3).toNat = (0 : Fin 4).val ∧ (sweeping 0x2A2A2A2A).NoTransportFailure 236 ∧
      (∀ j : Fin 32, (sweeping 0x2A2A2A2A).env.captures[j.val]? = some (flat 0x2A2A2A2A)) ∧
      ∀ i : Fin 1024, conv ((flat 0x2A2A2A2A).streamByte .big 0 i.val) = 0x2A) ∧
    ((sweeping 0x2A2A2A2A).params.Wf ∧ (2#3).toNat = (2 : Fin 4).val ∧ (sweeping 0x2A2A2A2A).NoTransportFailure 236 ∧
      ∀ lane : Fin 4, ∃ col : Fin 128, conv ((flat 0x2A2A2A2A).streamByte .big 2 (128 * lane.val + col.val)) ≠ 0x2B) :=
  ⟨⟨ready_params _ _, rfl, ready_completes _ _, sweeping_captures _, by decide +kernel⟩,
    ready_params _ _, rfl, ready_completes _ _, by decide +kernel⟩

theorem witness_CaltapsFrame :
    (ready 236 []).params.Wf ∧ (ready 236 []).dev.Inv ∧
    ∃ t, exec (.caltaps 3 0x2A) (ready 236 []) = .next t ∧ t.cp = (ready 236 []).cp + 1 :=
  ⟨ready_params _ _, ready_device _ _, ready_runs (i := .caltaps 3 0x2A) rfl []⟩

/-- Two chips, and none; the highest chip of the two. -/
theorem witness_SyncFollowsItsCaptures :
    (ready 240 (List.replicate 36 (flat 0x70707070))).params.Wf ∧ 0x0A#8 = 0#4 ++ 0b1010#4 ∧ 0x00#8 = 0#4 ++ 0b0000#4 ∧
    (ready 240 (List.replicate 36 (flat 0x70707070))).NoTransportFailure 240 ∧
    36 ≤ (ready 240 (List.replicate 36 (flat 0x70707070))).env.captures.length ∧ (chipsIn 0b1010).getLast? = some 3 :=
  ⟨ready_params _ _, by decide, by decide, ready_completes _ _, by simp [ready], by decide⟩

theorem witness_SyncTrace :
    (ready 240 []).params.Wf ∧ 0x0A#8 = 0#4 ++ 0b1010#4 ∧ (ready 240 []).NoTransportFailure 240 :=
  ⟨ready_params _ _, by decide, ready_completes _ _⟩

/-- All four chips, and none. -/
theorem witness_SyncFrame :
    ∀ chips ∈ [0x0F#8, 0x00#8], (ready (maxOps (.sync chips 0x70)) []).params.Wf ∧ (ready (maxOps (.sync chips 0x70)) []).dev.Inv ∧
      ∃ t, exec (.sync chips 0x70) (ready (maxOps (.sync chips 0x70)) []) = .next t ∧
        t.cp = (ready (maxOps (.sync chips 0x70)) []).cp + 1 :=
  fun chips h => ⟨ready_params _ _, ready_device _ _, ready_runs (i := .sync chips 0x70) (by revert chips; decide) []⟩

theorem witness_CalCalibratesEveryChip :
    ∀ s ∈ [ready 1484 [], staleFrame 1484], s.params.Wf ∧ s.NoTransportFailure 1484 := by
  intro s hs
  fin_cases hs
  · exact ⟨ready_params _ _, ready_completes _ _⟩
  · exact ⟨ready_params 0 [], staleFrame_completes _⟩

theorem witness_CalFrame :
    (ready 1484 []).params.Wf ∧ (ready 1484 []).dev.Inv ∧
    ∃ t, exec (.cal 0x2A 0x70) (ready 1484 []) = .next t ∧ t.cp = (ready 1484 []).cp + 1 :=
  ⟨ready_params _ _, ready_device _ _, ready_runs (i := .cal 0x2A 0x70) rfl []⟩

/-- The start state with the 164 captures a CAL takes at most. -/
def calibrating (w : Word) : State := ready 1484 (List.replicate 164 (flat w))

theorem calibrating_captures (w : Word) (c : Fin 4) (j : Fin 32) : (calibrating w).env.captures[32 * c.val + j.val]? = some (flat w) := by
  have hc := c.isLt
  have hj := j.isLt
  show (List.replicate 164 (flat w))[32 * c.val + j.val]? = _
  rw [List.getElem?_replicate, if_pos (by omega)]

/-- With captures given, and with none. -/
theorem witness_CalTrace :
    ((calibrating 0x2A2A2A2A).params.Wf ∧ (calibrating 0x2A2A2A2A).NoTransportFailure 1484 ∧
      ∀ (c : Fin 4) (j : Fin 32), (calibrating 0x2A2A2A2A).env.captures[32 * c.val + j.val]? = some (flat 0x2A2A2A2A)) ∧
    (ready 1484 []).params.Wf ∧ (ready 1484 []).NoTransportFailure 1484 :=
  ⟨⟨ready_params _ _, ready_completes _ _, calibrating_captures _⟩, ready_params _ _, ready_completes _ _⟩

theorem witness_CalFollowsItsCaptures :
    (calibrating 0x2A2A2A2A).params.Wf ∧ (calibrating 0x2A2A2A2A).NoTransportFailure 1484 ∧
    164 ≤ (calibrating 0x2A2A2A2A).env.captures.length ∧
    ∀ (c : Fin 4) (j : Fin 32), (calibrating 0x2A2A2A2A).env.captures[32 * c.val + j.val]? = some (flat 0x2A2A2A2A) :=
  ⟨ready_params _ _, ready_completes _ _,
    by show 164 ≤ (List.replicate 164 (flat 0x2A2A2A2A)).length; rw [List.length_replicate], calibrating_captures _⟩

/-- A run in progress; then a run that has ended, one that is halted, and one held in reset, at the first and the last word of CAPBUF. -/
theorem witness_HostReachesTheTransport :
    (loaded 0x0100000F).notRunning = false ∧
    (∀ s ∈ [State.reset, { loaded 0x0100000F with faults := { halt := true, err := 3, errcp := 0, errop := 0 } },
        (loaded 0x0100000F).assertReset], s.notRunning = true ∧ s.dev.capbuf.wf = true ∧ s.params.Wf ∧
      s.dev.triggered s.params 0 = false) ∧
    ∀ i ∈ [0, 4095], i < 4096 := by
  refine ⟨rfl, fun s hs => ?_, by decide⟩
  fin_cases hs <;> exact ⟨rfl, rfl, ready_params 0 [], rfl⟩

/-- The state at reset and its first command; a run in progress, one that is over and one that is halted; a step that completes, one that
faults and one that is a reset. -/
theorem witness_HostSuppliesTheStreamBeforeTheRun :
    (State.reset.AtReset ∧ [0x0A002A70#32].head? = some 0x0A002A70 ∧ decode 0x0A002A70 = .ok (.cal 0x2A 0x70) ∧
      State.reset.env.resetLine = false) ∧
    (∀ s ∈ [{ ready 0 [] with prog := [0x01000001, 0x01000002], cp := 1 }, { ready 0 [] with prog := [0x01000001], cp := 1 },
        { loaded 0x00000000 with faults := { halt := true, err := 3, errcp := 0, errop := 0 } }], s.cp ≠ 0 ∨ s.faults.halt = true) ∧
    ∀ s ∈ [loaded 0x0100000F, loaded 0x00000000, (loaded 0x0100000F).assertReset], ∃ t, step s = .next t := by
  refine ⟨⟨⟨rfl, rfl, rfl, rfl, rfl, rfl, rfl, rfl⟩, rfl, by decide, rfl⟩, fun s hs => ?_, fun s hs => ?_⟩
  · fin_cases hs
    · exact .inl (by decide)
    · exact .inl (by decide)
    · exact .inr rfl
  · fin_cases hs <;> exact ⟨_, rfl⟩

end Sys2Proof.Tests
end

section
/-! SUPPORT. The machine's invariant: everything a step that continues can do, and that each of its outcomes keeps `State.Inv`. -/

namespace Sys2Proof.Machine

/-! ### What a step can do -/

/-- Everything a step that continues can do: it takes an asserted reset (R260), or runs the command at `cp` (R21), or faults on a word
that is no command (R231). -/
theorem step_cases {s t : State} (h : step s = .next t) :
    (s.env.resetLine = true ∧ t = s.hostReset) ∨
    (s.env.resetLine = false ∧ s.faults.halt = false ∧ ∃ w, s.fetch = some w ∧
      ((∃ i, decode w = .ok i ∧ exec i s = .next t) ∨ (∃ e, decode w = .error e ∧ t = s.refuse .illegalCommand))) := by
  unfold step at h
  split at h
  case isTrue hr => exact .inl ⟨hr, (Host.Outcome.next.inj h).symm⟩
  case isFalse hr =>
    split at h
    case isTrue => cases h
    case isFalse hh =>
      refine .inr ⟨by simpa using hr, by simpa using hh, ?_⟩
      cases hf : s.fetch with
      | none => simp [fetchAndRun, hf] at h
      | some w =>
        cases hd : decode w with
        | ok i => exact ⟨w, rfl, .inl ⟨i, hd, by simpa [fetchAndRun, runWord, hf, hd] using h⟩⟩
        | error e =>
          have ht : s.refuse .illegalCommand = t := by simpa [fetchAndRun, runWord, hf, hd] using h
          exact ⟨w, rfl, .inr ⟨e, hd, ht.symm⟩⟩

/-! ### The history of the port -/

/-- Every operation issued so far was legal (R62, R63, R66, R100, R102). -/
def State.PortLegal (s : State) : Prop := ∀ op ∈ s.port, LegalOp s.params op

/-- A history extended by legal operations is legal. -/
theorem State.PortLegal.extend {s t : State} {ops : List TOp} (h : s.PortLegal) (hp : t.params = s.params)
    (hport : t.port = ops ++ s.port) (hops : ∀ op ∈ ops, LegalOp s.params op) : t.PortLegal := by
  intro op hop
  rw [hport] at hop
  rw [hp]
  exact (List.mem_append.mp hop).elim (hops op) (h op)

theorem PortGrew.portLegal {n : Nat} {s t : State} (g : PortGrew n s t) (hp : t.params = s.params) (h : s.PortLegal) :
    t.PortLegal := by
  obtain ⟨ops, -, hport, hops, -⟩ := g
  exact h.extend hp hport hops

theorem PortBroke.portLegal {n : Nat} {s t : State} (g : PortBroke n s t) (hp : t.params = s.params) (h : s.PortLegal) :
    t.PortLegal := by
  obtain ⟨op, ops, -, hport, hops, -⟩ := g
  exact h.extend hp hport hops

/-! ### The outcomes of a command -/

theorem Cause.code_ne_zero (cause : Cause) : cause.code ≠ 0 := by
  cases cause <;> decide

theorem FaultRegs.atReset_halt_iff : FaultRegs.atReset.halt = true ↔ FaultRegs.atReset.err ≠ 0 := by decide

/-- A fault before the first operation issues nothing and writes a cause into ERR together with HALT (R231, R232, R236). -/
theorem State.Inv.refuse {s : State} (h : s.Inv) (cause : Cause) : (s.refuse cause).Inv where
  params := h.params
  device := h.device
  phase := rfl
  substep := rfl
  fault := iff_of_true rfl cause.code_ne_zero
  port := h.port

theorem State.Inv.hostReset {s : State} (h : s.Inv) : s.hostReset.Inv where
  params := h.params
  device := h.device
  phase := rfl
  substep := rfl
  fault := FaultRegs.atReset_halt_iff
  port := h.port

/-- A command starts from a state that meets the invariant with no operation completed. -/
theorem State.Inv.beginCommand {s : State} (h : s.Inv) : s.beginCommand.Inv :=
  { h with substep := rfl }

theorem FailedAt.inv {n : Nat} {s t : State} (f : FailedAt n s t) (h : s.Inv) : t.Inv where
  params := by rw [f.params]; exact h.params
  device := f.device h.device
  phase := f.phase
  substep := f.substep
  fault := by rw [f.faults]; exact iff_of_true rfl Cause.transportFailure.code_ne_zero
  port := f.port.portLegal f.params h.port

theorem ResetAt.inv {n : Nat} {s t : State} (r : ResetAt n s t) (h : s.Inv) : t.Inv where
  params := by rw [r.params]; exact h.params
  device := r.device h.device
  phase := by rw [r.work]; rfl
  substep := by rw [r.work]; rfl
  fault := by rw [r.faults]; exact FaultRegs.atReset_halt_iff
  port := r.port.portLegal r.params h.port

theorem Abandoned.inv {n : Nat} {s t : State} (a : Abandoned n s t) (h : s.Inv) : t.Inv :=
  a.elim (·.inv h) (·.inv h)

/-- The end of a command sets SUBSTEP to 0; PHASE is IDLE if the body left it so (R26, R27). -/
theorem Ran.finish_inv {n : Nat} {s m : State} (r : Ran n s m) (h : s.Inv) (hm : PhaseIdle m) : (Flow.go m).finish.Inv where
  params := by rw [Flow.finish_params, r.params]; exact h.params
  device := r.device h.device
  phase := hm
  substep := rfl
  fault := by rw [Flow.finish_faults, r.faults]; exact h.fault
  port := r.port.portLegal r.params h.port

/-! ### Commands and steps -/

/-- SETCS issues no operation and writes only CSMASK (R131). -/
theorem execSetcs_inv {mask : BitVec 4} {s t : State} (h : s.Inv) (e : exec (.setcs mask) s = .next t) : t.Inv := by
  cases e
  exact { h with substep := rfl }

/-- Every command keeps the invariant, however it ends. -/
theorem exec_inv {i : Instr} {s t : State} (h : s.Inv) (e : exec i s = .next t) : t.Inv := by
  cases hw : i.wellFormed with
  | false =>
    cases (exec_illFormed hw s).symm.trans e
    exact h.refuse _
  | true =>
    by_cases hm : ∃ mask, i = .setcs mask
    · obtain ⟨mask, rfl⟩ := hm
      exact execSetcs_inv h e
    · obtain ⟨n, m, -, -, hbody, ran, hexec⟩ | ⟨n, m, -, -, abandoned, hexec⟩ :=
        exec_cases hw (fun mask hi => hm ⟨mask, hi⟩) s
      · cases hexec.symm.trans e
        exact ran.finish_inv h.beginCommand (bodyOf_phase i _ m h.beginCommand.phase hbody)
      · cases hexec.symm.trans e
        exact abandoned.inv h.beginCommand

/-- Settles O13: each of the three things a step can do keeps the invariant. -/
theorem stepKeepsTheInvariant : Obligations.StepKeepsTheInvariant := by
  intro s t h hstep
  obtain ⟨-, rfl⟩ | ⟨-, -, w, -, ⟨i, -, hexec⟩ | ⟨e, -, rfl⟩⟩ := step_cases hstep
  · exact h.hostReset
  · exact exec_inv h hexec
  · exact h.refuse _

/-! ### The state right after reset -/

theorem Params.default_wf : Params.default.Wf := by decide

/-- Settles O14: the parameters are R6's defaults, the device is at power-on and nothing has been issued. -/
theorem resetMeetsTheInvariant : Obligations.ResetMeetsTheInvariant where
  params := Params.default_wf
  device := Device.atPowerOn_inv
  phase := rfl
  substep := rfl
  fault := FaultRegs.atReset_halt_iff
  port := fun _ hop => nomatch hop

end Sys2Proof.Machine
end

section
/-! SUPPORT. The two functions of R10: the lane-bit reversal and the sign conversion. -/

namespace Sys2Proof.Machine

/-- R10's own form of the reversal: bit `lane` of `rev4 m` is bit `3 - lane` of `m`. -/
theorem getLsbD_rev4 (m : BitVec 4) (lane : Fin 4) : (rev4 m).getLsbD lane.val = m.getLsbD (3 - lane.val) := by
  have h := rev4_bit m lane.rev
  have hv : lane.rev.val = 3 - lane.val := by rw [Fin.val_rev]; omega
  have hl : 3 - (3 - lane.val) = lane.val := by omega
  rwa [hv, hl] at h

theorem rev4_rev4 (m : BitVec 4) : rev4 (rev4 m) = m := by
  apply BitVec.eq_of_getLsbD_eq
  intro i hi
  have hl : 3 - (3 - i) = i := by omega
  calc (rev4 (rev4 m)).getLsbD i
      = (rev4 m).getLsbD (3 - i) := getLsbD_rev4 (rev4 m) ⟨i, hi⟩
    _ = m.getLsbD (3 - (3 - i)) := getLsbD_rev4 m ⟨3 - i, by omega⟩
    _ = m.getLsbD i := by rw [hl]

/-- The formula of R10 lies in -128..127, so eight bits hold it. -/
theorem toInt_conv (b : Byte) : (conv b).toInt = ((b.toNat : Int) + 128) % 256 - 128 := by
  unfold conv
  rw [BitVec.toInt_ofInt]
  exact Int.bmod_eq_of_le (by omega) (by omega)

/-- Settles O32: the reversal bit by bit, then the two forms of the conversion from its formula. -/
theorem reversalAndConversion : Obligations.ReversalAndConversion := by
  refine ⟨getLsbD_rev4, rev4_rev4, fun b => ?_⟩
  have hb : b.toNat < 256 := b.isLt
  rw [toInt_conv]
  refine ⟨rfl, by omega, ?_⟩
  split <;> omega

end Sys2Proof.Machine
end

section
/-! SUPPORT. Fetching a command word, which words are commands, and how a step follows from the word at `cp`. -/

namespace Sys2Proof.Machine

/-! ### Fetching -/

/-- With reset not asserted and HALT 0 a step is the fetch and run of the word at `cp` (R21, R237). -/
theorem step_eq_fetchAndRun {s : State} (hr : s.env.resetLine = false) (hh : s.faults.halt = false) : step s = fetchAndRun s := by
  simp [step, hr, hh]

theorem step_of_fetch {s : State} {w : Word} (hr : s.env.resetLine = false) (hh : s.faults.halt = false)
    (hf : s.fetch = some w) : step s = runWord w s := by
  rw [step_eq_fetchAndRun hr hh, fetchAndRun, hf]

theorem runWord_of_ok {w : Word} {i : Instr} (h : decode w = .ok i) (s : State) : runWord w s = exec i s := by
  rw [runWord, h]

theorem runWord_of_error {w : Word} {e : DecodeError} (h : decode w = .error e) (s : State) :
    runWord w s = .next (s.refuse .illegalCommand) := by
  rw [runWord, h]

/-- Settles O7: the step fetches the word at `cp`, and a word that decodes runs its command. -/
theorem stepRunsTheDecodedCommand : Obligations.StepRunsTheDecodedCommand := by
  intro s w i hr hh hf hd
  rw [step_of_fetch hr hh hf, runWord_of_ok hd]

/-- Settles O9: there is no word at or beyond the end of the stream. -/
theorem endOfRunHasNoStep : Obligations.EndOfRunHasNoStep := by
  intro s hr hh hlen
  have hf : s.fetch = none := List.getElem?_eq_none hlen
  rw [step_eq_fetchAndRun hr hh, fetchAndRun, hf]

/-! ### Placing a word -/

/-- The word stands at the index it was placed at, however long the stream was. -/
theorem placeWord_getElem? (prog : List Word) (i : Nat) (w : Word) : (placeWord prog i w)[i]? = some w := by
  have hlen : (prog.take i ++ List.replicate (i - prog.length) (0 : Word)).length = i := by
    rw [List.length_append, List.length_take, List.length_replicate]
    omega
  unfold placeWord
  rw [List.getElem?_append_right (by omega), hlen, Nat.sub_self]
  rfl

theorem State.withFetchWord_fetch (s : State) (nbits w : Nat) :
    (s.withFetchWord nbits w).fetch = some (BitVec.ofNat 32 (w % 2 ^ nbits)) :=
  placeWord_getElem? s.prog s.cp _

theorem decode_of_decodeTableWord {nbits w : Nat} {i : Instr} (h : decodeTableWord nbits w = some i) :
    decode (BitVec.ofNat 32 (w % 2 ^ nbits)) = .ok i := by
  unfold decodeTableWord at h
  split at h
  case h_1 j hj => rw [hj, Option.some.inj h]
  case h_2 => cases h

/-- Settles O12: the placed word is the one at `cp`, and placing it takes the reset input back. -/
theorem placedWordRuns : Obligations.PlacedWordRuns := by
  intro s w i hh hd
  exact stepRunsTheDecodedCommand _ _ i rfl hh (s.withFetchWord_fetch 32 w) (decode_of_decodeTableWord hd)

/-! ### Which words are commands (R112) -/

/-- A format with a reserved field rejects exactly the words with a bit set there (R91). -/
theorem ifReservedZero_error_iff {n : Nat} {r : BitVec n} {i : Instr} : (∃ e, ifReservedZero r i = .error e) ↔ r ≠ 0#n := by
  unfold ifReservedZero
  by_cases h : r = 0#n <;> simp [h]

/-- Kinds 6 and 7 are the unknown ones (R95). -/
theorem decodeKind_error_iff (kind : BitVec 3) : (∃ e, decodeKind kind = .error e) ↔ 6 ≤ kind.toNat := by
  unfold decodeKind
  generalize kind.toNat = k
  split
  case h_7 => exact iff_of_true ⟨_, rfl⟩ (by grind)
  all_goals exact iff_of_false (fun ⟨e, he⟩ => nomatch he) (by decide)

/-- SETPAT rejects a reserved bit or an unknown kind (R95). -/
theorem decodeSetpat_error_iff (w : Word) :
    (∃ e, decodeSetpat w = .error e) ↔ w.extractLsb' 3 21 ≠ 0#21 ∨ 6 ≤ (w.extractLsb' 0 3).toNat := by
  unfold decodeSetpat
  by_cases h : w.extractLsb' 3 21 = 0#21
  · simp [h, decodeKind_error_iff]
  · simp [h]

/-- A format with one reserved field rejects exactly the words that meet the field's mask (R91). -/
theorem and_mask_iff_ifReservedZero_error {w m : Word} {s n : Nat} {i : Instr} (hn : s + n ≤ 32)
    (hm : ∀ j, j < 32 → m.getLsbD j = (decide (s ≤ j) && decide (j < s + n))) :
    w &&& m ≠ 0 ↔ ∃ e, ifReservedZero (w.extractLsb' s n) i = .error e := by
  rw [ifReservedZero_error_iff, Ne, and_field_zero w m s n hn hm]

/-- The same for a format with two reserved fields, whose masks are `a` and `b`. -/
theorem and_masks_iff_ifReservedZero_error {w : Word} (a b : Word) {s n s' n' : Nat} {i : Instr} (hn : s + n ≤ 32)
    (hn' : s' + n' ≤ 32) (ha : ∀ j, j < 32 → a.getLsbD j = (decide (s ≤ j) && decide (j < s + n)))
    (hb : ∀ j, j < 32 → b.getLsbD j = (decide (s' ≤ j) && decide (j < s' + n'))) :
    w &&& (a ||| b) ≠ 0 ↔ ∃ e, ifReservedZero (w.extractLsb' s n ++ w.extractLsb' s' n') i = .error e := by
  rw [ifReservedZero_error_iff, Ne, and_or_zero, and_field_zero w a s n hn ha, and_field_zero w b s' n' hn' hb]
  refine not_congr ⟨fun ⟨h, h'⟩ => ?_, append_eq_zero⟩
  rw [h, h', BitVec.zero_append_zero]

/-- `op` is none of R92's ten numbers. -/
theorem decode_unknownOp {w : Word} (h : ¬ (0x01 ≤ (w.extractLsb' 24 8).toNat ∧ (w.extractLsb' 24 8).toNat ≤ 0x0A)) :
    decode w = .error .unknownOp := by
  rw [decode_op]
  split
  case h_11 => rfl
  all_goals omega

/-- R112, format by format: the words the decoder rejects are the illegal ones. -/
theorem illegalWord_iff_decode_error (w : Word) : IllegalWord w ↔ ∃ e, decode w = .error e := by
  by_cases hop : 0x01 ≤ (w.extractLsb' 24 8).toNat ∧ (w.extractLsb' 24 8).toNat ≤ 0x0A
  case neg => exact iff_of_true (.inl hop) ⟨_, decode_unknownOp hop⟩
  rw [decode_op]
  unfold IllegalWord
  generalize (w.extractLsb' 24 8).toNat = op at hop
  have hreserved (h : op ≠ 0x03) (r : Prop) :
      (¬ (0x01 ≤ op ∧ op ≤ 0x0A) ∨ r ∨ op = 0x03 ∧ 6 ≤ (w.extractLsb' 0 3).toNat) ↔ r := by
    simp [hop, h]
  split
  case h_1 => exact (hreserved (by decide) _).trans (and_mask_iff_ifReservedZero_error (by decide) (by decide))
  case h_2 => exact iff_of_false (by simp [reservedBits]) (fun ⟨_, he⟩ => nomatch he)
  case h_3 =>
    rw [decodeSetpat_error_iff, Ne, Ne, ← and_field_zero w 0x00FFFFF8 3 21 (by decide) (by decide)]
    simp [reservedBits]
  case h_4 => exact (hreserved (by decide) _).trans (and_mask_iff_ifReservedZero_error (by decide) (by decide))
  case h_5 => exact iff_of_false (by simp [reservedBits]) (fun ⟨_, he⟩ => nomatch he)
  case h_6 =>
    exact (hreserved (by decide) _).trans
      (and_masks_iff_ifReservedZero_error 0x00F80000 0x0000F000 (by decide) (by decide) (by decide) (by decide))
  case h_7 => exact (hreserved (by decide) _).trans (and_mask_iff_ifReservedZero_error (by decide) (by decide))
  case h_8 =>
    exact (hreserved (by decide) _).trans
      (and_masks_iff_ifReservedZero_error 0x00F80000 0x0000FF00 (by decide) (by decide) (by decide) (by decide))
  case h_9 => exact (hreserved (by decide) _).trans (and_mask_iff_ifReservedZero_error (by decide) (by decide))
  case h_10 => exact (hreserved (by decide) _).trans (and_mask_iff_ifReservedZero_error (by decide) (by decide))
  case h_11 => grind

/-- Settles O3: the decoder rejects exactly the illegal words, and a rejected word is refused before anything else. -/
theorem illegalWordsRaise : Obligations.IllegalWordsRaise := by
  intro w
  refine ⟨(illegalWord_iff_decode_error w).mp, fun h => ?_, fun s h hf hr hh hp hs => ?_⟩
  · cases hd : decode w with
    | ok i => exact ⟨i, rfl⟩
    | error e => exact absurd ((illegalWord_iff_decode_error w).mpr ⟨e, hd⟩) h
  · obtain ⟨e, hd⟩ := (illegalWord_iff_decode_error w).mp h
    exact ⟨_, (step_of_fetch hr hh hf).trans (runWord_of_error hd s), State.refuse_refusedWith .illegalCommand hp hs⟩

end Sys2Proof.Machine
end

section
/-! SUPPORT. How a command can end, and what each ending says of the flags, CSMASK and the fault registers. -/

namespace Sys2Proof.Machine

/-! ### The endings of a command -/

/-- What a completed command leaves in CSMASK, SETCS alone writing it (R23, R131). -/
def maskAfter (i : Instr) (mask : BitVec 4) : BitVec 4 :=
  match i with
  | .setcs m => m
  | _ => mask

theorem maskAfter_of_ne {i : Instr} (h : ∀ m, i ≠ .setcs m) (mask : BitVec 4) : maskAfter i mask = mask := by
  cases i with
  | setcs m => exact absurd rfl (h m)
  | _ => rfl

theorem exec_setcs (mask : BitVec 4) (s : State) :
    exec (.setcs mask) s = .next (Flow.go (s.beginCommand.setCsmask mask)).finish := rfl

/-- The body of a completed command other than SETCS performed some number of operations. -/
theorem exec_completed_ran {i : Instr} {s t : State} (hm : ∀ m, i ≠ .setcs m) (h : exec i s = .next t) (hc : t.cp = s.cp + 1) :
    ∃ n m, bodyOf i s.beginCommand = .go m ∧ t = (Flow.go m).finish ∧ Ran n s.beginCommand m := by
  obtain ⟨-, m, hbody, ht⟩ := exec_completed h hc
  have hw := bodyOf_within i hm s.beginCommand
  rw [hbody] at hw
  obtain ⟨n, -, -, hran⟩ := hw.ran
  exact ⟨n, m, hbody, ht, hran⟩

/-- Everything a command can do (R21, R233, R236, R260): it completes, it is refused for a missing chip, an operation fails, or reset
comes first. -/
theorem exec_endings {i : Instr} {s t : State} (h : exec i s = .next t) :
    (Completed s t ∧ t.csmask = maskAfter i s.csmask) ∨
    (i.wellFormed = false ∧ t = s.refuse .invalidChipIdentifier) ∨
    (∃ n, FailedAt n s.beginCommand t ∧ NoNewFlag s t) ∨
    ∃ n, ResetAt n s.beginCommand t := by
  cases hw : i.wellFormed with
  | false =>
    cases (exec_illFormed hw s).symm.trans h
    exact .inr (.inl ⟨rfl, rfl⟩)
  | true =>
    by_cases hm : ∃ m, i = .setcs m
    · obtain ⟨m, rfl⟩ := hm
      cases (exec_setcs m s).symm.trans h
      exact .inl ⟨⟨rfl, rfl, rfl, rfl, rfl, rfl⟩, rfl⟩
    · have hm' : ∀ m, i ≠ .setcs m := fun m e => hm ⟨m, e⟩
      obtain ⟨n, m, -, -, -, ran, hexec⟩ | ⟨n, r, -, -, failed | reset, hexec⟩ := exec_cases hw hm' s
      · cases hexec.symm.trans h
        exact .inl ⟨completed_of_ran ran, ran.csmask.trans (maskAfter_of_ne hm' _).symm⟩
      · cases hexec.symm.trans h
        exact .inr (.inr (.inl ⟨n, failed, State.setsNoFlag_noNewFlag s r⟩))
      · cases hexec.symm.trans h
        exact .inr (.inr (.inr ⟨n, reset⟩))

/-- What every fault leaves behind, whatever its cause (R236; SUBSTEP: log 15). -/
structure FaultEnding (s t : State) : Prop where
  flags : NoNewFlag s t
  cp : t.cp = s.cp
  csmask : t.csmask = s.csmask
  halt : t.faults.halt = true
  err : t.faults.err ≠ 0
  errcp : t.faults.errcp = s.cp
  phase : t.work.phase = .idle
  substep : t.work.substep = 0
  params : t.params = s.params
  prog : t.prog = s.prog
  resetLine : t.env.resetLine = s.env.resetLine

theorem State.refuse_faultEnding (s : State) (cause : Cause) : FaultEnding s (s.refuse cause) :=
  ⟨State.setsNoFlag_noNewFlag s _, rfl, rfl, rfl, cause.code_ne_zero, rfl, rfl, rfl, rfl, rfl, rfl⟩

theorem FailedAt.faultEnding {n : Nat} {s t : State} (h : FailedAt n s.beginCommand t) (hf : NoNewFlag s t) : FaultEnding s t where
  flags := hf
  cp := h.cp
  csmask := h.csmask
  halt := by rw [h.faults]
  err := by rw [h.faults]; exact Cause.code_ne_zero .transportFailure
  errcp := by rw [h.faults]; rfl
  phase := h.phase
  substep := h.substep
  params := h.params
  prog := h.prog
  resetLine := h.resetLine

/-- Settles O16: the endings of a command, one by one. -/
theorem commandOutcomes : Obligations.CommandOutcomes := by
  intro i s t h
  have hfault (f : FaultEnding s t) : t.cp = s.cp ∧ t.csmask = s.csmask ∧ t.faults.halt = true ∧ t.faults.err ≠ 0 ∧
      t.faults.errcp = s.cp ∧ t.work.phase = .idle ∧ t.work.substep = 0 ∧ t.params = s.params ∧ t.prog = s.prog :=
    ⟨f.cp, f.csmask, f.halt, f.err, f.errcp, f.phase, f.substep, f.params, f.prog⟩
  obtain ⟨done, hmask⟩ | ⟨-, rfl⟩ | ⟨n, failed, flags⟩ | ⟨n, reset⟩ := exec_endings h
  · refine .inl ⟨done, ?_⟩
    cases i <;> exact hmask
  · exact .inr (.inl (hfault (s.refuse_faultEnding _)))
  · exact .inr (.inl (hfault (failed.faultEnding flags)))
  · obtain ⟨op, hop⟩ := reset.answer
    exact .inr (.inr ⟨atReset_of_resetAt reset, reset.params, reset.prog, n, op, hop⟩)

/-- Settles O18: a missing chip is refused before the body runs; no ending of a well-formed command writes that cause. -/
theorem missingChipIsRefused : Obligations.MissingChipIsRefused := by
  refine ⟨fun s chip chips tap expected lanes count hp hs => ?_, fun i s t hw hf h => ?_⟩
  · refine ⟨s.refuse .invalidChipIdentifier, State.refuse_refusedWith .invalidChipIdentifier hp hs, fun hc => ?_, fun hc => ?_⟩
    · have hi : decide (chipValid chip) = false := decide_eq_false (by omega)
      exact ⟨exec_illFormed (i := .dlytap chip tap lanes) hi s, exec_illFormed (i := .caltaps chip expected) hi s⟩
    · have hi : decide (chipsValid chips) = false := decide_eq_false hc
      exact ⟨exec_illFormed (i := .snap chips count) hi s, exec_illFormed (i := .bitslip chips) hi s,
        exec_illFormed (i := .sync chips expected) hi s⟩
  · obtain ⟨-, herr⟩ := hf
    obtain ⟨done, -⟩ | ⟨hi, -⟩ | ⟨n, failed, -⟩ | ⟨n, reset⟩ := exec_endings h
    · rw [done.faults, herr]
      decide
    · rw [hw] at hi
      cases hi
    · rw [failed.faults]
      exact (by decide : (2 : BitVec 2) ≠ 1)
    · rw [reset.faults]
      decide

/-! ### The endings of a step -/

theorem State.hostReset_atReset (s : State) : s.hostReset.AtReset := ⟨rfl, rfl, rfl, rfl, rfl, rfl, rfl, rfl⟩

/-- A step ends in a reset, in a completed command of an unhalted sequencer, or in a fault. -/
theorem step_endings {s t : State} (h : step s = .next t) :
    t.AtReset ∨ (s.faults.halt = false ∧ Completed s t) ∨ FaultEnding s t := by
  obtain ⟨-, rfl⟩ | ⟨-, hh, w, -, ⟨i, -, hexec⟩ | ⟨e, -, rfl⟩⟩ := step_cases h
  · exact .inl s.hostReset_atReset
  · obtain ⟨done, -⟩ | ⟨-, rfl⟩ | ⟨n, failed, flags⟩ | ⟨n, reset⟩ := exec_endings hexec
    · exact .inr (.inl ⟨hh, done⟩)
    · exact .inr (.inr (s.refuse_faultEnding _))
    · exact .inr (.inr (failed.faultEnding flags))
    · exact .inl (atReset_of_resetAt reset)
  · exact .inr (.inr (s.refuse_faultEnding _))

theorem State.AtReset.halt {s : State} (h : s.AtReset) : s.faults.halt = false := by
  obtain ⟨-, -, hf, -⟩ := h
  rw [hf]
  rfl

theorem State.AtReset.cp {s : State} (h : s.AtReset) : s.cp = 0 := by
  obtain ⟨-, hcp, -⟩ := h
  exact hcp

/-- Settles O54: a step whose next state is halted ended in a fault, since a reset and a completed command leave HALT 0. -/
theorem faultsSetNoFlag : Obligations.FaultsSetNoFlag := by
  intro s t hstep hhalt
  obtain hr | ⟨hh, done⟩ | f := step_endings hstep
  · rw [hr.halt] at hhalt
    cases hhalt
  · rw [done.faults, hh] at hhalt
    cases hhalt
  · exact ⟨f.flags, f.cp, f.csmask, f.err, f.errcp, f.phase, f.substep, f.params, f.prog, f.resetLine⟩

/-! ### The command stream -/

theorem State.Inv.withProg {s : State} (h : s.Inv) (prog : List Word) : { s with prog := prog }.Inv := { h with }

theorem State.supply_eq_none {s : State} (h : s.cp ≠ 0 ∨ s.faults.halt = true) (prog : List Word) : s.supply prog = none := by
  cases hs : s.supply prog with
  | none => rfl
  | some t =>
    obtain ⟨hcp, hh, -⟩ := State.supply_eq_some.mp hs
    rw [hh] at h
    exact (h.resolve_right (by decide) hcp).elim

/-- Settles O55: a stream can be supplied at `cp` 0 with HALT 0 only, and a completed or faulted command leaves neither. -/
theorem hostSuppliesTheStreamBeforeTheRun : Obligations.HostSuppliesTheStreamBeforeTheRun := by
  refine ⟨fun s prog hs => ?_, fun s => State.supply_eq_none, fun s t prog hstep => ?_⟩
  · refine ⟨_, State.supply_eq_some.mpr ⟨hs.cp, hs.halt, rfl⟩, rfl, fun h => h.withProg prog, fun w i hw hd hr => ?_⟩
    have hf : { s with prog := prog }.fetch = some w := by
      show prog[s.cp]? = some w
      rw [hs.cp, ← List.head?_eq_getElem?, hw]
    exact stepRunsTheDecodedCommand _ w i hr hs.halt hf hd
  · obtain hr | ⟨-, done⟩ | f := step_endings hstep
    · exact .inl hr
    · exact .inr (State.supply_eq_none (.inl (by rw [done.cp]; omega)) prog)
    · exact .inr (State.supply_eq_none (.inr f.halt) prog)

end Sys2Proof.Machine
end

section
/-! SUPPORT. The words written to CTRL1, field by field: what a word holds outside the fields it carries. -/

namespace Sys2Proof.Machine

theorem field4_outside {l i : Nat} (v : BitVec 4) (h : ¬ (l ≤ i ∧ i ≤ l + 3)) : (field4 v l).getLsbD i = false := by
  rw [getLsbD_field4]
  by_cases hl : l ≤ i
  · rw [getLsbD_four_ge (by omega), Bool.and_false]
  · simp [hl]

theorem trigWord_outside {p : Params} {i : Nat} (h : i ≠ p.snapBit) : (trigWord p).getLsbD i = false := by
  unfold trigWord
  rw [getLsbD_bitAt]
  simp [h]

theorem slipWord_outside {p : Params} {i : Nat} (set : BitVec 4) (h : ¬ (p.bitslipLsb ≤ i ∧ i ≤ p.bitslipLsb + 3)) :
    (slipWord p set).getLsbD i = false := field4_outside set h

theorem tapWord_outside {p : Params} {i : Nat} (t : BitVec 5) (h : ¬ (p.tapLsb ≤ i ∧ i ≤ p.tapLsb + 4)) :
    (tapWord p t).getLsbD i = false := by
  rw [getLsbD_tapWord]
  by_cases hl : p.tapLsb ≤ i
  · rw [getLsbD_five_ge (by omega), Bool.and_false]
  · simp [hl]

theorem tapResetWord_outside {p : Params} {i : Nat} (t : BitVec 5) (c : Fin 4) (m : BitVec 4)
    (ht : ¬ (p.tapLsb ≤ i ∧ i ≤ p.tapLsb + 4)) (hr : ¬ (p.rstLsb ≤ i ∧ i ≤ p.rstLsb + 15)) :
    (tapResetWord p t c m).getLsbD i = false := by
  unfold tapResetWord
  rw [BitVec.getLsbD_or, tapWord_outside t ht, field4_outside _ (by omega)]
  rfl

/-- A word with no bit in the tap field carries tap 0. -/
theorem tapField_eq_zero {p : Params} {w : Word} (h : ∀ i, i < 5 → w.getLsbD (p.tapLsb + i) = false) : tapField p w = 0 :=
  (extract_zero_iff w p.tapLsb 5).mpr h

section
variable {p : Params} (h : p.Ctrl1Wf)
include h

theorem tapField_trigWord : tapField p (trigWord p) = 0 :=
  tapField_eq_zero fun _ _ => trigWord_outside (by omega)

theorem tapField_slipWord (set : BitVec 4) : tapField p (slipWord p set) = 0 :=
  tapField_eq_zero fun _ _ => slipWord_outside set (by omega)

theorem tapField_tapWord (t : BitVec 5) : tapField p (tapWord p t) = t := by
  unfold tapField
  ext i hi
  rw [BitVec.getElem_extractLsb', getLsbD_tapWord, Nat.add_sub_cancel_left]
  have hlt : p.tapLsb + i < 32 := by omega
  simp [hlt, hi]

end

/-- Settles O33: each word carries its own fields and is 0 outside them. -/
theorem ctrl1WordFields : Obligations.Ctrl1WordFields := by
  intro p set lanes tap c h
  refine ⟨trigWord_snap h, slipWord_snap h set, tapWord_snap h tap, tapResetWord_snap h lanes tap c, tapField_trigWord h,
    tapField_slipWord h set, tapField_tapWord h tap, tapField_tapResetWord h lanes tap c, fun c' lane => ?_⟩
  refine ⟨trigWord_slip h c', slipWord_slip h set c', tapWord_slip h tap c', tapResetWord_slip h lanes tap c c',
    trigWord_strobe h c' lane, slipWord_strobe h set c' lane, tapWord_strobe h tap c' lane,
    tapResetWord_strobe h lanes tap c lane c', fun j hsnap hslip htap hrst => ?_⟩
  exact ⟨trigWord_outside hsnap, slipWord_outside set hslip, tapWord_outside tap htap, tapResetWord_outside tap c lanes htap hrst⟩

end Sys2Proof.Machine
end

section
/-! SUPPORT. The state after a completed SNAP, its samples, the capture it takes, and its frame (R160 to R166). -/

namespace Sys2Proof.Machine

/-! ### Parameters and sets of chips -/

/-- The CTRL1 part of R6's constraints. -/
theorem ctrl1Wf_of_wf {p : Params} (h : p.Wf) : p.Ctrl1Wf := by
  obtain ⟨-, -, -, h1, -⟩ := h
  exact h1

/-- A set whose upper half is 0 names only chips that exist, and its lower half is the chip mask (R111). -/
theorem chips_fields {chips : BitVec 8} {set : BitVec 4} (h : chips = 0#4 ++ set) :
    chips.extractLsb' 4 4 = 0#4 ∧ chips.extractLsb' 0 4 = set := by
  subst h
  refine ⟨?_, ?_⟩
  · rw [extract_high _ _ 4 4 (by decide), Nat.sub_self, extract_all]
  · rw [extract_low _ _ 0 4 (by decide), extract_all]

/-- Saturation into 1..1024, in the order of the rule (R9, R110, R161). -/
theorem clampCount_eq (count : BitVec 16) : clampCount count = max 1 (min count.toNat 1024) := by
  unfold clampCount clamp
  split
  · omega
  · split <;> omega

/-! ### The state after SNAP -/

/-- The state after a completed SNAP of the chips `set` with `n` columns. -/
def State.snapDone (set : BitVec 4) (n : Nat) (s : State) : State := (Flow.go (s.beginCommand.snapped set n)).finish

theorem maxOps_snap (chips : BitVec 8) (count : BitVec 16) :
    maxOps (.snap chips count) = 3 + (chipsIn (chips.extractLsb' 0 4)).length := rfl

/-- With no failing operation SNAP ends there. -/
theorem exec_snap {s : State} {chips : BitVec 8} {set : BitVec 4} (count : BitVec 16) (hw : s.params.Ctrl1Wf)
    (hset : chips = 0#4 ++ set) (hs : s.NoTransportFailure (3 + (chipsIn set).length)) :
    exec (.snap chips count) s = .next (s.snapDone set (clampCount count)) ∧ Completed s (s.snapDone set (clampCount count)) := by
  obtain ⟨hvalid, hlow⟩ := chips_fields hset
  have hs' : s.NoTransportFailure (maxOps (.snap chips count)) := by rwa [maxOps_snap, hlow]
  obtain ⟨m, hbody, hexec, done⟩ := exec_completes (i := .snap chips count) (decide_eq_true hvalid) hs'
  obtain rfl : m = s.beginCommand.snapped (chips.extractLsb' 0 4) (clampCount count) := snapshot_eq_go hw hbody
  rw [hlow] at hexec done
  exact ⟨hexec, done⟩

/-- A completed SNAP ended there. -/
theorem exec_snap_completed {s t : State} {chips : BitVec 8} {count : BitVec 16} (hw : s.params.Ctrl1Wf)
    (h : exec (.snap chips count) s = .next t) (hc : t.cp = s.cp + 1) :
    t = s.snapDone (chips.extractLsb' 0 4) (clampCount count) := by
  obtain ⟨-, m, hbody, rfl⟩ := exec_completed h hc
  obtain rfl : m = s.beginCommand.snapped (chips.extractLsb' 0 4) (clampCount count) := snapshot_eq_go hw hbody
  rfl

section
variable (set : BitVec 4) (n : Nat) (s : State)

theorem State.snapDone_dev : (s.snapDone set n).dev = s.beginCommand.capturedDev := rfl
theorem State.snapDone_captures : (s.snapDone set n).env.captures = s.env.captures.tail := rfl
theorem State.snapDone_port : (s.snapDone set n).port = (snapTrace s.params set n).reverse ++ s.port :=
  s.beginCommand.snapped_port set n

end

/-- The number of columns fits SAMPLE_LEN (R31). -/
theorem toNat_sampleLen {n : Nat} (h : n ≤ stride) : (BitVec.ofNat 11 n).toNat = n := by
  rw [BitVec.toNat_ofNat]
  unfold stride at h
  omega

/-- A lane's sequence has SAMPLE_LEN entries (R30). -/
theorem Results.sampleSeq_length (r : Results) (c lane : Fin 4) (h : r.sampleLen.toNat ≤ 1024) :
    (r.sampleSeq c lane).length = r.sampleLen.toNat := by
  unfold Results.sampleSeq
  rw [List.length_take, Vector.length_toList]
  omega

/-- Settles O37: the state after SNAP, its trace and its samples by the bytes of CAPBUF. -/
theorem snapReadsTheCapture : Obligations.SnapReadsTheCapture := by
  intro s chips count set hp hset hs n
  obtain ⟨hexec, done⟩ := exec_snap count (ctrl1Wf_of_wf hp) hset hs
  have hn : clampCount count = n := clampCount_eq count
  have hle : n ≤ stride := hn ▸ (clampCount_bounds count).2
  rw [hn] at hexec done
  have hlen : (s.snapDone set n).res.sampleLen.toNat = n := toNat_sampleLen hle
  refine ⟨_, hexec, done, s.snapDone_port set n, hlen, rfl, fun c lane => ?_, fun c lane k hc hk => ?_⟩
  · rw [Results.sampleSeq_length _ c lane (by rw [hlen]; exact hle), hlen]
  · exact State.snapped_samples_capbuf hc lane k hk

/-! ### The capture -/

theorem State.nextCapture_of_cons {s : State} {k : Capture} {ks : List Capture} (h : s.env.captures = k :: ks) :
    s.nextCapture = k.word := by
  unfold State.nextCapture
  rw [h]

/-- Byte `j` of a word in the stream, as a field of the word (R64). -/
theorem ByteOrder.byteOf_eq_field (o : ByteOrder) (w : Word) (j : Nat) :
    o.byteOf w j = w.extractLsb' (if o = .big then 8 * (3 - j) else 8 * j) 8 := by
  cases o <;> rfl

/-- Every byte of every chip's part of CAPBUF after a capture (R42, R75). -/
theorem Device.capture_read_word (p : Params) (oracle : Fin 4 → Nat → Word) (d : Device) (c : Fin 4) (i : Fin 1024) (j : Fin 4) :
    (d.capture p oracle).capbuf.read (4 * (c.val * 1024 + i.val) + j.val) = p.byteOrder.byteOf (oracle c i.val) j.val := by
  have ha : 4 * (c.val * 1024 + i.val) + j.val = 4 * (c.val * stride) + (4 * i.val + j.val) := by
    unfold stride
    omega
  have hi : (4 * i.val + j.val) / 4 = i.val := by omega
  have hj : (4 * i.val + j.val) % 4 = j.val := by omega
  rw [ha, Device.capture_read p oracle d c _ (by unfold stride; omega), hi, hj]

/-- Settles O38: the capture's bytes by the byte order, and nothing beyond CAPBUF. -/
theorem snapCapturesEveryChip : Obligations.SnapCapturesEveryChip := by
  intro s chips count set first later hp hset hs hcap
  obtain ⟨hexec, done⟩ := exec_snap count (ctrl1Wf_of_wf hp) hset hs
  have hfirst : s.beginCommand.nextCapture = first.word := State.nextCapture_of_cons hcap
  refine ⟨_, hexec, done, ?_, rfl, captureMemory_wf _ _, fun c i j => ?_, fun a ha => ?_⟩
  · rw [State.snapDone_captures, hcap]
    rfl
  · rw [State.snapDone_dev, State.capturedDev, Device.capture_read_word, hfirst, ByteOrder.byteOf_eq_field]
    rfl
  · exact Memory.read_outside (captureMemory_inside _ _) ha

/-! ### The frame -/

/-- Two devices that meet the invariant hold the same bytes outside CAPBUF (R42). -/
theorem Device.Inv.read_outside {d e : Device} (hd : d.Inv) (he : e.Inv) {a : Nat} (ha : 16384 ≤ a) :
    e.capbuf.read a = d.capbuf.read a := by
  rw [Memory.read_outside hd.inside ha, Memory.read_outside he.inside ha]

/-- A completed command other than SETCS keeps CSMASK and the device's invariant. -/
theorem exec_completed_keeps {i : Instr} {s t : State} (hm : ∀ m, i ≠ .setcs m) (h : exec i s = .next t) (hc : t.cp = s.cp + 1) :
    Completed s t ∧ t.csmask = s.csmask ∧ (s.dev.Inv → t.dev.Inv) := by
  obtain ⟨n, m, -, rfl, ran⟩ := exec_completed_ran hm h hc
  exact ⟨completed_of_ran ran, ran.csmask, ran.device⟩

/-- Settles O39: a capture writes CAPBUF, CTRL1 and the sample registers. -/
theorem snapFrame : Obligations.SnapFrame := by
  intro s t chips count hp hd h hc
  obtain ⟨done, hmask, hdev⟩ := exec_completed_keeps (fun _ => Instr.noConfusion) h hc
  have hout (a : Nat) (ha : 16384 ≤ a) := hd.read_outside (hdev hd) ha
  obtain rfl := exec_snap_completed (ctrl1Wf_of_wf hp) h hc
  exact ⟨done, hmask, ⟨rfl, rfl, fun _ => rfl, fun _ => rfl, fun _ => rfl⟩, rfl, rfl, rfl, rfl, hout, fun _ => ⟨rfl, rfl⟩, rfl, rfl⟩

end Sys2Proof.Machine
end

section
/-! SUPPORT. The state after a completed CALTAPS, its counts, and its frame (R186 to R196). -/

namespace Sys2Proof.Machine

/-- The state after a completed CALTAPS of chip `c`. -/
def State.calDone (c : Fin 4) (e : Sample) (s : State) : State := (Flow.go (s.beginCommand.calibrated c e)).finish

/-- With no failing operation CALTAPS ends there. -/
theorem exec_caltaps {s : State} {chip : BitVec 3} {c : Fin 4} (expected : BitVec 8) (hw : s.params.Ctrl1Wf)
    (hc : chip.toNat = c.val) (hs : s.NoTransportFailure 236) :
    exec (.caltaps chip expected) s = .next (s.calDone c expected) ∧ Completed s (s.calDone c expected) := by
  have hvalid : chipValid chip := by omega
  obtain ⟨m, hbody, hexec, done⟩ := exec_completes (i := .caltaps chip expected) (decide_eq_true hvalid) hs
  obtain rfl : m = s.beginCommand.calibrated (Fin.ofNat 4 chip.toNat) expected := calibrateTaps_eq_go hw hbody
  rw [show Fin.ofNat 4 chip.toNat = c from Option.some.inj ((chipOf_valid hvalid).symm.trans (chipOf_eq hc))] at hexec done
  exact ⟨hexec, done⟩

section
variable (c : Fin 4) (e : Sample) (s : State)

theorem State.calDone_port : (s.calDone c e).port =
    (sweepTrace s.params c ++ selectTrace s.params c (s.calDone c e).res.good).reverse ++ s.port :=
  s.beginCommand.calibrated_port c e

theorem State.calDone_captures : (s.calDone c e).env.captures = s.env.captures.drop 32 := by
  obtain ⟨-, h, -⟩ := s.beginCommand.calibrated_keeps c e
  exact h

/-- The registers that say what was calibrated (R34, R166, R186). -/
theorem State.calDone_flags :
    (s.calDone c e).res.calValid = true ∧ (s.calDone c e).res.calChip = c ∧ (s.calDone c e).res.sampleLen = 256 ∧
    (s.calDone c e).res.sampleValid = oneOf c := by
  obtain ⟨-, -, -, -, h1, h2, h3, h4, -⟩ := s.beginCommand.calibrated_keeps c e
  exact ⟨h1, h2, h3, h4⟩

/-- Each count is a number of mismatches, which eight bits hold (R189). -/
theorem State.calDone_errcnt (lane : Fin 4) (j : Fin 32) :
    (s.calDone c e).res.errcnt[lane][j].1.toNat = s.beginCommand.calErrors c e j lane.val ∧
    (s.calDone c e).res.errcnt[lane][j].2.toNat = s.beginCommand.calErrors c e j (lane.val + 4) := by
  have h : (s.calDone c e).res.errcnt[lane][j] = _ := s.beginCommand.calibrated_errcnt c e lane j
  have fits (r : Nat) : (BitVec.ofNat 8 (s.beginCommand.calErrors c e j r)).toNat = s.beginCommand.calErrors c e j r := by
    have hle := s.beginCommand.calErrors_le c e j r
    rw [BitVec.toNat_ofNat]
    omega
  rw [h]
  exact ⟨fits _, fits _⟩

/-- A tap is good exactly when no row of the lane has a mismatch (R190). -/
theorem State.calDone_good (lane : Fin 4) (j : Fin 32) :
    (s.calDone c e).res.good[lane].getLsbD j.val = true ↔
      s.beginCommand.calErrors c e j lane.val = 0 ∧ s.beginCommand.calErrors c e j (lane.val + 4) = 0 := by
  have h : (s.calDone c e).res.good[lane].getLsbD j.val = _ := s.beginCommand.calibrated_good c e lane j j.isLt
  rw [h, Bool.and_eq_true, decide_eq_true_eq, decide_eq_true_eq]

theorem State.calDone_tap (c' lane : Fin 4) :
    (s.calDone c e).dev.chips[c'].tap[lane] =
      if c' = c then
        if tapsOf (s.calDone c e).res.good[lane] = [] then 31 else selectTap (tapsOf (s.calDone c e).res.good[lane])
      else s.dev.chips[c'].tap[lane] :=
  s.beginCommand.calibrated_tap c e c' lane

end

/-- A pair of counts is zero exactly when both numbers are. -/
theorem counts_eq_zero_iff (x : BitVec 8 × BitVec 8) : x = (0, 0) ↔ x.1.toNat = 0 ∧ x.2.toNat = 0 := by
  obtain ⟨a, b⟩ := x
  rw [Prod.mk.injEq, ← BitVec.toNat_inj, ← BitVec.toNat_inj]
  rfl

/-- Settles O42: the state after CALTAPS, its trace, and the tap of every lane by its map of good taps. -/
theorem caltapsSweepsAndSelects : Obligations.CaltapsSweepsAndSelects := by
  intro s chip expected c hp hc hs
  obtain ⟨hexec, done⟩ := exec_caltaps expected (ctrl1Wf_of_wf hp) hc hs
  obtain ⟨hvalid, hchip, hlen, hset⟩ := s.calDone_flags c expected
  refine ⟨_, hexec, done, s.calDone_port c expected, hvalid, hchip, hlen, hset, fun lane j => ?_, s.calDone_tap c expected⟩
  obtain ⟨heven, hodd⟩ := s.calDone_errcnt c expected lane j
  rw [counts_eq_zero_iff, s.calDone_good, heven, hodd]
  exact ⟨Iff.rfl, s.beginCommand.calErrors_le c expected _ _, s.beginCommand.calErrors_le c expected _ _⟩

/-- Settles O43: every tap's mismatches counted on the capture taken there. -/
theorem caltapsCountsItsCaptures : Obligations.CaltapsCountsItsCaptures := by
  intro s chip expected c taken hp hc hs htaken
  obtain ⟨hexec, done⟩ := exec_caltaps expected (ctrl1Wf_of_wf hp) hc hs
  obtain ⟨-, -, hlen, hset⟩ := s.calDone_flags c expected
  refine ⟨_, hexec, done, s.calDone_captures c expected, fun lane j => ?_, hlen, hset, fun lane k hk => ?_⟩
  · have hcount (r : Nat) : s.beginCommand.calErrors c expected j r = (taken j).rowErrors s.params.byteOrder c r expected :=
      s.beginCommand.calErrors_capture c expected j.val j.isLt.le r (htaken j)
    obtain ⟨heven, hodd⟩ := s.calDone_errcnt c expected lane j
    rw [s.calDone_good, heven, hodd, hcount, hcount]
    exact ⟨rfl, rfl, Iff.rfl⟩
  · exact s.beginCommand.calibrated_samples c expected (htaken 31) lane k hk

/-! ### The frame -/

/-- The working registers that CALTAPS does not use (log 15). -/
def Work.serialAndSync (w : Work) : Phase × BitVec 24 × BitVec 5 × BitVec 4 := (w.phase, w.sr, w.bitidx, w.attempt)

theorem calibrateTaps_serialAndSync (c : Fin 4) (e : Sample) :
    KeepsGo (fun s => s.work.serialAndSync) (calibrateTaps c e) :=
  calibrateTaps_work Work.serialAndSync (fun _ _ => rfl) (fun _ _ => rfl) (fun _ _ => rfl) (fun _ _ _ => rfl) (fun _ _ _ => rfl) c e

/-- The device after the calibration of one chip, but for memory and the chip's own taps (R48, R184, R196). -/
theorem State.calibrated_sameSerial (c : Fin 4) (e : Sample) (s : State) : SameSerial s.dev (s.calibrated c e).dev := by
  obtain ⟨-, -, -, -, -, -, -, -, hctrl0, hprev0, -⟩ := s.calibrated_keeps c e
  have hchip (x : Fin 4) := s.calibrated_chip c e x
  choose hadcreg hslip hrxsr hrxcnt using hchip
  exact ⟨hctrl0, hprev0, hadcreg, hrxsr, hrxcnt⟩

/-- Settles O45: the sweep and the selection write CTRL1, CAPBUF, the calibration results and the chip's own taps. -/
theorem caltapsFrame : Obligations.CaltapsFrame := by
  intro s t chip expected hp hd h hc
  obtain ⟨done, hmask, hdev⟩ := exec_completed_keeps (fun _ => Instr.noConfusion) h hc
  have hout (a : Nat) (ha : 16384 ≤ a) := hd.read_outside (hdev hd) ha
  obtain ⟨hvalid, m, hbody, rfl⟩ := exec_completed h hc
  have hchip : chip.toNat ≤ 3 := of_decide_eq_true hvalid
  have hwork := calibrateTaps_serialAndSync _ _ _ _ hbody
  obtain ⟨hphase, hsr, hbitidx, hattempt⟩ : m.work.phase = s.work.phase ∧ m.work.sr = s.work.sr ∧
      m.work.bitidx = s.work.bitidx ∧ m.work.attempt = s.work.attempt := by simpa [Work.serialAndSync] using hwork
  obtain rfl : m = s.beginCommand.calibrated (Fin.ofNat 4 chip.toNat) expected := calibrateTaps_eq_go (ctrl1Wf_of_wf hp) hbody
  obtain ⟨-, hcaps, hsyncok, hsyncValid, -, -, -, -, -, -, hctrl1, hprev1, hcount⟩ :=
    s.beginCommand.calibrated_keeps (Fin.ofNat 4 chip.toNat) expected
  refine ⟨done, hmask, hsyncok, hsyncValid, s.beginCommand.calibrated_sameSerial _ _, hctrl1, hprev1, hcount, hcaps, hout,
    fun x => ?_, fun x lane hx => ?_, hphase, hsr, hbitidx, hattempt⟩
  · obtain ⟨-, hslip, -⟩ := s.beginCommand.calibrated_chip (Fin.ofNat 4 chip.toNat) expected x
    exact hslip
  · have hne : x ≠ Fin.ofNat 4 chip.toNat := by
      rintro rfl
      exact hx (Nat.mod_eq_of_lt (by omega))
    exact (s.beginCommand.calibrated_tap _ _ x lane).trans (if_neg hne)

end Sys2Proof.Machine
end

section
/-! SUPPORT. The state after a completed SYNC, on given captures and whatever they are, and its frame (R213 to R217). -/

namespace Sys2Proof.Machine

/-- The state after a completed SYNC of the chips `set`. -/
def State.syncDone (set : BitVec 4) (e : Sample) (s : State) : State :=
  (Flow.go (((s.beginCommand.forSync e).syncedAll (chipsIn set)).endSync set)).finish

theorem chipsIn_length_le (set : BitVec 4) : (chipsIn set).length ≤ 4 := List.length_filter_le _ (List.finRange 4)

theorem maxOps_sync (chips expected : BitVec 8) :
    maxOps (.sync chips expected) = 60 * (chipsIn (chips.extractLsb' 0 4)).length := rfl

/-- With no failing operation SYNC ends there. -/
theorem exec_sync {s : State} {chips : BitVec 8} {set : BitVec 4} (expected : BitVec 8) (hw : s.params.Ctrl1Wf)
    (hset : chips = 0#4 ++ set) (hs : s.NoTransportFailure 240) :
    exec (.sync chips expected) s = .next (s.syncDone set expected) ∧ Completed s (s.syncDone set expected) := by
  obtain ⟨hvalid, hlow⟩ := chips_fields hset
  have hs' : s.NoTransportFailure (maxOps (.sync chips expected)) := by
    have hle := chipsIn_length_le set
    rw [maxOps_sync, hlow]
    exact hs.mono (by omega)
  obtain ⟨m, hbody, hexec, done⟩ := exec_completes (i := .sync chips expected) (decide_eq_true hvalid) hs'
  obtain rfl := synchronize_eq_go (s := s.beginCommand) (t := m) hw hbody
  rw [hlow] at hexec done
  exact ⟨hexec, done⟩

section
variable (set : BitVec 4) (e : Sample) (s : State)

theorem State.syncDone_dev :
    (s.syncDone set e).dev = ((s.beginCommand.forSync e).syncedAll (chipsIn set)).dev := rfl
theorem State.syncDone_port :
    (s.syncDone set e).port = ((s.beginCommand.forSync e).syncedAll (chipsIn set)).port := rfl

/-- SYNCOK of a chip of the set is its own verdict (R216). -/
theorem State.syncDone_syncok {c : Fin 4} (hc : c ∈ chipsIn set) :
    (s.syncDone set e).res.syncok[c] = ((s.beginCommand.forSync e).syncedAll (chipsIn set)).res.syncok[c] :=
  State.endSync_syncok (mem_chipsIn.mp hc)

/-- What the highest chip of the set leaves in the registers that every capture writes (R166, R216). -/
theorem State.syncDone_last {c : Fin 4} (hc : (chipsIn set).getLast? = some c) :
    (s.syncDone set e).res.sampleLen = 1 ∧ (s.syncDone set e).res.sampleValid = oneOf c ∧
    (s.syncDone set e).dev.ctrl1 = 0 ∧ (s.syncDone set e).dev.prev1 = 0 :=
  State.syncedAll_last (chipsIn set) (s.beginCommand.forSync e) c hc

end

/-- Settles O46: the loop of R214 chip by chip on the captures given, and the samples of the last one. -/
theorem syncFollowsItsCaptures : Obligations.SyncFollowsItsCaptures := by
  intro s chips set expected hp hset hs hcaps outcome
  obtain ⟨hexec, done⟩ := exec_sync expected (ctrl1Wf_of_wf hp) hset hs
  have hlen := chipsIn_length_le set
  have hcaps' : 9 * (chipsIn set).length ≤ (s.beginCommand.forSync expected).env.captures.length := by
    show 9 * (chipsIn set).length ≤ s.env.captures.length
    omega
  obtain ⟨hport, hchips, hscript⟩ :=
    State.syncedAll_script (chipsIn set) (nodup_chipsIn set) (s.beginCommand.forSync expected) hcaps'
  obtain ⟨hused, -, hle, hsamples⟩ := State.syncedAll_samples (chipsIn set) (s.beginCommand.forSync expected) hcaps'
  refine ⟨_, hexec, done, rfl, hport, hchips, fun c pulses ok hmem => ?_, hused, hle, fun c lane last hc hlast => ?_⟩
  · obtain ⟨hpulses, hslip, hok⟩ := hscript c pulses ok hmem
    have hc : c ∈ chipsIn set := hchips ▸ List.mem_map_of_mem hmem
    exact ⟨hpulses, hslip, (s.syncDone_syncok set expected hc).trans hok⟩
  · obtain ⟨hsampleLen, hsampleValid, -⟩ := s.syncDone_last set expected hc
    exact ⟨hsampleLen, hsampleValid, hsamples c lane last hc hlast⟩

/-! ### The frame -/

/-- A set that names only chips that exist is its chip mask with 0 above it (R111). -/
theorem chips_eq_of_valid {chips : BitVec 8} (h : chipsValid chips) : chips = 0#4 ++ chips.extractLsb' 0 4 := by
  have hjoin := extract_join chips 0 4 4
  rw [Nat.zero_add, h, extract_all] at hjoin
  exact hjoin.symm

theorem getLsbD_chips (chips : BitVec 8) (c : Fin 4) : chips.getLsbD c.val = (chips.extractLsb' 0 4).getLsbD c.val := by
  simp

/-- The working registers that SYNC does not use (log 15). -/
def Work.serialAndSweep (w : Work) :
    Phase × BitVec 24 × BitVec 5 × BitVec 5 × Vector (BitVec 8) 4 × Vector (BitVec 8) 4 :=
  (w.phase, w.sr, w.bitidx, w.tapidx, w.evcnt, w.odcnt)

theorem synchronize_serialAndSweep (set : BitVec 4) (e : Sample) :
    KeepsGo (fun s => s.work.serialAndSweep) (synchronize set e) :=
  synchronize_work Work.serialAndSweep (fun _ _ => rfl) (fun _ _ => rfl) (fun _ _ => rfl) (fun _ _ _ => rfl) (fun _ _ => rfl) set e

section
variable (cs : List (Fin 4)) (s : State)

/-- Synchronising chips writes nothing of the device's CTRL0 side (R48, R214). -/
theorem State.syncedAll_sameSerial : SameSerial s.dev (s.syncedAll cs).dev := by
  obtain ⟨-, -, hctrl0, hprev0, -⟩ := s.syncedAll_keeps cs
  have hchip (c : Fin 4) := s.syncedAll_chip cs c
  choose hadcreg htap hrxsr hrxcnt hslip using hchip
  exact ⟨hctrl0, hprev0, hadcreg, hrxsr, hrxcnt⟩

/-- Only the chips synchronised are slipped, each at most eight times (R214, R217). -/
theorem State.syncedAll_slip_le (hd : cs.Nodup) (c : Fin 4) :
    s.dev.chips[c].slip ≤ (s.syncedAll cs).dev.chips[c].slip ∧
    (s.syncedAll cs).dev.chips[c].slip ≤ s.dev.chips[c].slip + if c ∈ cs then 8 else 0 := by
  by_cases hc : c ∈ cs
  · rw [if_pos hc]
    exact s.syncedAll_slip cs hd c
  · obtain ⟨-, -, -, -, hslip⟩ := s.syncedAll_chip cs c
    rw [if_neg hc, hslip hc]
    exact ⟨Nat.le_refl _, Nat.le_refl _⟩

end

/-- Settles O48: SYNC writes CTRL1, CAPBUF, SLIP of its chips and the synchronisation results, and with the empty set issues nothing. -/
theorem syncFrame : Obligations.SyncFrame := by
  intro s t chips expected hp hd h hc
  obtain ⟨done, hmask, hdev⟩ := exec_completed_keeps (fun _ => Instr.noConfusion) h hc
  have hout (a : Nat) (ha : 16384 ≤ a) := hd.read_outside (hdev hd) ha
  obtain ⟨hvalid, m, hbody, ht⟩ := exec_completed h hc
  have hchips := chips_eq_of_valid (of_decide_eq_true hvalid)
  have hwork := synchronize_serialAndSweep _ _ _ _ hbody
  have hunused : m.work.phase = s.work.phase ∧ m.work.sr = s.work.sr ∧ m.work.bitidx = s.work.bitidx ∧
      m.work.tapidx = s.work.tapidx ∧ m.work.evcnt = s.work.evcnt ∧ m.work.odcnt = s.work.odcnt := by
    simpa [Work.serialAndSweep] using hwork
  obtain rfl := synchronize_eq_go (s := s.beginCommand) (t := m) (ctrl1Wf_of_wf hp) hbody
  obtain rfl : t = s.syncDone (chips.extractLsb' 0 4) expected := ht
  have hbit (c : Fin 4) := getLsbD_chips chips c
  generalize chips.extractLsb' 0 4 = set at *
  obtain ⟨-, -, -, -, herrcnt, hgood, hcalValid, hcalChip, -⟩ :=
    State.syncedAll_keeps (chipsIn set) (s.beginCommand.forSync expected)
  refine ⟨done, hmask, rfl, herrcnt, hgood, hcalValid, hcalChip,
    State.syncedAll_sameSerial (chipsIn set) (s.beginCommand.forSync expected), fun c => ?_, hout, fun h0 => ?_, fun h0 => ?_,
    hunused⟩
  · obtain ⟨-, htap, -⟩ := State.syncedAll_chip (chipsIn set) (s.beginCommand.forSync expected) c
    have hslip := State.syncedAll_slip_le (chipsIn set) (s.beginCommand.forSync expected) (nodup_chipsIn set) c
    simp only [mem_chipsIn] at hslip
    rw [hbit c]
    exact ⟨htap, hslip⟩
  · obtain ⟨-, rfl⟩ := append_eq_zero (hchips.symm.trans h0)
    have hnone : chipsIn 0#4 = [] := by decide
    rw [State.syncDone_dev, State.syncDone_port, hnone]
    exact ⟨rfl, rfl⟩
  · have hne : set ≠ 0 := by
      rintro rfl
      exact h0 (hchips.trans BitVec.zero_append_zero)
    obtain ⟨c, hlast, hin, hmax⟩ := chipsIn_getLast set hne
    obtain ⟨hlen, hset, hctrl1, hprev1⟩ := s.syncDone_last set expected hlast
    exact ⟨hlen, ⟨c, (hbit c).trans hin, hset, fun c' hc' => hmax c' ((hbit c').symm.trans hc')⟩, hctrl1, hprev1⟩

end Sys2Proof.Machine
end

section
/-! SUPPORT. The operations a step issues, oldest first, and the world behind the port as their replay (R70, R80, R233). -/

namespace Sys2Proof.Machine

/-! ### The port and the world -/

/-- The two control words are different words (R6). -/
theorem idxSer_ne_idxCap_of_wf {p : Params} (h : p.Wf) : p.idxSer ≠ p.idxCap := by
  obtain ⟨-, hidx, -⟩ := h
  exact hidx

/-- The operations `ops`, all legal, were issued between `s` and `t`, oldest first. -/
def Issued (ops : List TOp) (s t : State) : Prop :=
  t.port = ops.reverse ++ s.port ∧ ∀ op ∈ ops, LegalOp s.params op

theorem Issued.none {s t : State} (h : t.port = s.port) : Issued [] s t := ⟨h, fun _ hop => nomatch hop⟩

theorem Issued.of_newest_first {ops : List TOp} {s t : State} (hport : t.port = ops ++ s.port)
    (hlegal : ∀ op ∈ ops, LegalOp s.params op) : Issued ops.reverse s t :=
  ⟨by rw [hport, List.reverse_reverse], fun op hop => hlegal op (List.mem_reverse.mp hop)⟩

theorem PortGrew.issued {n : Nat} {s t : State} (g : PortGrew n s t) (hp : s.params.Wf) :
    ∃ ops, ops.length = n ∧ Issued ops s t ∧ t.world = s.world.replay s.params ops := by
  obtain ⟨ops, hlen, hport, hlegal, hworld⟩ := g
  exact ⟨ops.reverse, by rw [List.length_reverse, hlen], .of_newest_first hport hlegal, hworld (idxSer_ne_idxCap_of_wf hp)⟩

/-- A failed operation is the last one issued, and the only one that may not have taken effect (R80). -/
theorem PortBroke.issued {n : Nat} {s t : State} (g : PortBroke n s t) (hp : s.params.Wf) :
    ∃ ops, ops.length = n + 1 ∧ Issued ops s t ∧
      (t.world = s.world.replay s.params ops ∨ t.world = s.world.replay s.params ops.dropLast) := by
  obtain ⟨op, ops, hlen, hport, hlegal, hworld⟩ := g
  refine ⟨(op :: ops).reverse, by rw [List.length_reverse, List.length_cons, hlen], .of_newest_first hport hlegal, ?_⟩
  rw [List.reverse_cons, List.dropLast_concat, ← List.reverse_cons]
  exact (hworld (idxSer_ne_idxCap_of_wf hp)).symm

/-! ### Every step -/

/-- The operations issued between `s` and `t` have been replayed on the world, but perhaps for the last one of a TransportFailure. -/
def PortReplayed (s t : State) : Prop :=
  ∃ ops, Issued ops s t ∧
    (t.world = s.world.replay s.params ops ∨
      (t.faults.halt = true ∧ t.faults.err = 2 ∧ ops ≠ [] ∧ t.world = s.world.replay s.params ops.dropLast))

/-- Without an operation nothing happens to the world. -/
theorem PortReplayed.none {s t : State} (hport : t.port = s.port) (hworld : t.world = s.world) : PortReplayed s t :=
  ⟨[], .none hport, .inl hworld⟩

theorem PortGrew.portReplayed {n : Nat} {s t : State} (g : PortGrew n s t) (hp : s.params.Wf) : PortReplayed s t := by
  obtain ⟨ops, -, issued, hworld⟩ := g.issued hp
  exact ⟨ops, issued, .inl hworld⟩

theorem FailedAt.portReplayed {n : Nat} {s t : State} (f : FailedAt n s t) (hp : s.params.Wf) : PortReplayed s t := by
  obtain ⟨ops, hlen, issued, hall | hbut⟩ := f.port.issued hp
  · exact ⟨ops, issued, .inl hall⟩
  · refine ⟨ops, issued, .inr ⟨by rw [f.faults], by rw [f.faults], ?_, hbut⟩⟩
    rintro rfl
    exact absurd hlen (Nat.succ_ne_zero n).symm

theorem Abandoned.portReplayed {n : Nat} {s t : State} (a : Abandoned n s t) (hp : s.params.Wf) : PortReplayed s t :=
  a.elim (·.portReplayed hp) (·.port.portReplayed hp)

/-- Every command, however it ends, issues its operations in order on the world. -/
theorem exec_portReplayed {i : Instr} {s t : State} (hp : s.params.Wf) (h : exec i s = .next t) : PortReplayed s t := by
  cases hw : i.wellFormed with
  | false =>
    cases (exec_illFormed hw s).symm.trans h
    exact .none rfl rfl
  | true =>
    by_cases hm : ∃ mask, i = .setcs mask
    · obtain ⟨mask, rfl⟩ := hm
      cases (exec_setcs mask s).symm.trans h
      exact .none rfl rfl
    · obtain ⟨n, m, -, -, -, ran, hexec⟩ | ⟨n, m, -, -, abandoned, hexec⟩ := exec_cases hw (fun mask e => hm ⟨mask, e⟩) s
      · cases hexec.symm.trans h
        exact ran.port.portReplayed (s := s.beginCommand) hp
      · cases hexec.symm.trans h
        exact abandoned.portReplayed (s := s.beginCommand) hp

/-- Settles O15: a reset and an illegal word issue nothing, and a command issues its operations in order. -/
theorem worldIsThePortReplayed : Obligations.WorldIsThePortReplayed := by
  intro s t hp hstep
  have hreplayed : PortReplayed s t := by
    obtain ⟨-, rfl⟩ | ⟨-, -, w, -, ⟨i, -, hexec⟩ | ⟨e, -, rfl⟩⟩ := step_cases hstep
    · exact .none rfl rfl
    · exact exec_portReplayed hp hexec
    · exact .none rfl rfl
  obtain ⟨ops, ⟨hport, hlegal⟩, hworld⟩ := hreplayed
  exact ⟨ops, hport, hlegal, hworld⟩

/-! ### The first operation that does not complete -/

/-- Operations that completed come before the first one that cannot. -/
theorem State.completed_le {s : State} {k n : Nat} (hk : ∀ op, s.answerAt k op ≠ .completes)
    (hn : ∀ j, j < n → ∃ op, s.answerAt j op = .completes) : n ≤ k := by
  by_contra hlt
  obtain ⟨op, hop⟩ := hn k (by omega)
  exact hk op hop

/-- A command is abandoned at the first operation that does not complete. -/
theorem State.abandoned_index {s : State} {k n : Nat} (hs : s.NoTransportFailure k) (hk : ∀ op, s.answerAt k op ≠ .completes)
    (hn : ∀ j, j < n → ∃ op, s.answerAt j op = .completes) (hstop : ∃ op, s.answerAt n op ≠ .completes) : n = k := by
  obtain ⟨op, hop⟩ := hstop
  have hle := State.completed_le hk hn
  have hge : ¬ n < k := fun hlt => hop (hs n hlt op)
  omega

/-- Settles O20: a completed command has no operation k, an abandoned one stopped at operation k, and it failed there. -/
theorem failingOperationStopsTheCommand : Obligations.FailingOperationStopsTheCommand := by
  intro i s k hp hw hs hfails
  have hk (op : TOp) : s.answerAt k op ≠ .completes := by
    obtain ⟨landed, hop⟩ := hfails op
    rw [hop]
    exact PortAnswer.noConfusion
  by_cases hm : ∃ mask, i = .setcs mask
  · obtain ⟨mask, rfl⟩ := hm
    exact ⟨_, [], exec_setcs mask s, rfl, .inl ⟨Nat.zero_le k, Nat.zero_le k, ⟨rfl, rfl, rfl, rfl, rfl, rfl⟩⟩⟩
  obtain ⟨n, m, hmin, -, -, ran, hexec⟩ | ⟨n, m, -, -, failed | reset, hexec⟩ := exec_cases hw (fun mask e => hm ⟨mask, e⟩) s
  · have hle : n ≤ k := State.completed_le hk ran.answered
    obtain ⟨ops, hlen, ⟨hport, -⟩, -⟩ := ran.port.issued (s := s.beginCommand) hp
    exact ⟨_, ops, hexec, hport, .inl ⟨by omega, by omega, completed_of_ran ran⟩⟩
  · obtain ⟨op, b, hop⟩ := failed.answer
    obtain rfl : n = k := State.abandoned_index hs hk failed.answered ⟨op, fun h => nomatch hop.symm.trans h⟩
    obtain ⟨ops, hlen, ⟨hport, -⟩, hworld⟩ := failed.port.issued (s := s.beginCommand) hp
    exact ⟨_, ops, hexec, hport, .inr ⟨faultedAt_of_failedAt failed, hlen, failed.resetLine, hworld⟩⟩
  · obtain ⟨op, hop⟩ := reset.answer
    obtain rfl : n = k := State.abandoned_index hs hk reset.answered ⟨op, fun h => nomatch hop.symm.trans h⟩
    obtain ⟨landed, hlanded⟩ := hfails op
    exact nomatch hop.symm.trans hlanded

end Sys2Proof.Machine
end

section
/-! SUPPORT. Writing a control word that already stands there (R68), and the host's own access to the transport (R268). -/

namespace Sys2Proof.Machine

/-! ### A word written again -/

/-- No bit of a word rises when the same word is written again (R72). -/
@[simp] theorem rises_self (w : Word) (i : Nat) : rises w w i = false := Bool.not_and_self _

/-- The receiver ignores a word written again: no select changes and no clock rises (R73). -/
theorem Chip.receive_self (p : Params) (w : Word) (c : Fin 4) (ch : Chip) : ch.receive p w w c = ch := by
  unfold Chip.receive
  rw [rises_self]
  cases selects p w c
  · exact Chip.clocked_off ch false _
  · exact Chip.clocked_hold ch _

/-- No slip and no tap load without a rising bit (R76, R77). -/
theorem Chip.slipAndLoad_self (p : Params) (w : Word) (c : Fin 4) (ch : Chip) : ch.slipAndLoad p w w c = ch := by
  unfold Chip.slipAndLoad
  simp only [rises_self, Bool.false_eq_true, if_false]
  congr 1
  exact Vector.ext fun lane hlane => Vector.getElem_ofFn hlane

/-- Rebuilding the chips with a function that changes none of them. -/
theorem ofFn_chips_eq (chips : Vector Chip 4) {f : Fin 4 → Chip → Chip} (hf : ∀ c ch, f c ch = ch) :
    (Vector.ofFn fun c : Fin 4 => f c chips[c]) = chips := by
  simp only [hf]
  exact Vector.ext fun c hc => Vector.getElem_ofFn hc

/-- A device that holds `w` in CTRL0 is not changed by writing `w` there. -/
theorem Device.onCtrl0_held {p : Params} {w : Word} {d : Device} (hc : d.ctrl0 = w) (hp : d.prev0 = w) : d.onCtrl0 p w = d := by
  have hchips := ofFn_chips_eq d.chips (Chip.receive_self p w)
  unfold Device.onCtrl0
  rw [hp, hchips]
  subst hc
  cases d
  cases hp
  rfl

/-- A device that holds `w` in CTRL1 is not changed by writing `w` there: no capture is triggered (R75). -/
theorem Device.onCtrl1_held {p : Params} {w : Word} {oracle : Fin 4 → Nat → Word} {d : Device} (hc : d.ctrl1 = w) (hp : d.prev1 = w) :
    d.onCtrl1 p w oracle = d := by
  have hchips := ofFn_chips_eq d.chips (Chip.slipAndLoad_self p w)
  have htrig : ¬ d.triggered p w = true := by
    unfold Device.triggered
    rw [hp, rises_self]
    exact Bool.false_ne_true
  unfold Device.onCtrl1
  rw [if_neg htrig, hp, hchips]
  subst hc
  cases d
  cases hp
  rfl

/-- Settles O17: after the first write the control word and its previous word both hold the word. -/
theorem repeatedWriteChangesNothing : Obligations.RepeatedWriteChangesNothing :=
  fun _ _ _ => ⟨Device.onCtrl0_held rfl rfl, fun _ _ => Device.onCtrl1_held rfl rfl⟩

/-! ### The host's writes to the control words -/

section
variable (w : Word) (s : State)

@[simp] theorem State.ctrl0Lands_notRunning : (s.ctrl0Lands w).notRunning = s.notRunning := rfl

@[simp] theorem State.ctrl1Lands_notRunning : (s.ctrl1Lands w).notRunning = s.notRunning := by
  simp [State.notRunning]

end

theorem State.Inv.ctrl0Lands {s : State} (h : s.Inv) (w : Word) : (s.ctrl0Lands w).Inv :=
  { h with device := h.device.onCtrl0 }

theorem State.Inv.ctrl1Lands {s : State} (h : s.Inv) (w : Word) : (s.ctrl1Lands w).Inv where
  params := by rw [State.ctrl1Lands_params]; exact h.params
  device := h.device.onCtrl1
  phase := by rw [State.ctrl1Lands_work]; exact h.phase
  substep := by rw [State.ctrl1Lands_work]; exact h.substep
  fault := by rw [State.ctrl1Lands_faults]; exact h.fault
  port := by rw [State.ctrl1Lands_port, State.ctrl1Lands_params]; exact h.port

/-! ### The host's access to CAPBUF -/

/-- The state after the host has written word `index` of CAPBUF. -/
def State.capbufWritten (index : Nat) (w : Word) (s : State) : State :=
  s.setDev { s.dev with capbuf := s.dev.capbuf.writeWord s.params.byteOrder index w }

theorem State.Inv.capbufWritten {s : State} (h : s.Inv) {i : Nat} (hi : i < capbufWords) (w : Word) : (s.capbufWritten i w).Inv :=
  { h with
    device :=
      { h.device with
        memory := Memory.wf_writeWord s.params.byteOrder i w h.device.memory
        inside := Memory.writeWord_lt s.params.byteOrder w hi h.device.inside } }

/-- Reading one word of a canonical memory puts its four bytes together (R61, R64). -/
theorem Device.readBlock_one {d : Device} (h : d.capbuf.wf = true) (p : Params) (i : Nat) :
    d.readBlock p i 1 = [p.byteOrder.wordOf (d.capbuf.read (4 * i)) (d.capbuf.read (4 * i + 1)) (d.capbuf.read (4 * i + 2))
      (d.capbuf.read (4 * i + 3))] := by
  unfold Device.readBlock
  rw [Memory.readBelow_eq h (by omega), show 4 * i + 4 * 1 - 4 * 1 = 4 * i by omega]
  rfl

/-- The word written is read back (R62, R67). -/
theorem State.capbufWritten_readBlock_same {s : State} (h : s.dev.capbuf.wf = true) (i : Nat) (w : Word) :
    (s.capbufWritten i w).dev.readBlock s.params i 1 = [w] := by
  have hbyte (j : Nat) (hj : j < 4) :
      (s.capbufWritten i w).dev.capbuf.read (4 * i + j) = s.params.byteOrder.byteOf w j := by
    have hdiv : (4 * i + j) / 4 = i := by omega
    have hmod : (4 * i + j) % 4 = j := by omega
    exact (Memory.read_writeWord s.params.byteOrder i w h _).trans (by rw [if_pos hdiv, hmod])
  rw [Device.readBlock_one (Memory.wf_writeWord s.params.byteOrder i w h), hbyte 1 (by omega), hbyte 2 (by omega),
    hbyte 3 (by omega)]
  exact congrArg (· :: []) ((congrArg (s.params.byteOrder.wordOf · _ _ _) (hbyte 0 (by omega))).trans
    (ByteOrder.wordOf_byteOf s.params.byteOrder w))

/-- No other word changes (R67). -/
theorem State.capbufWritten_readBlock_other {s : State} (h : s.dev.capbuf.wf = true) {i k : Nat} (hk : k ≠ i) (w : Word) :
    (s.capbufWritten i w).dev.readBlock s.params k 1 = s.dev.readBlock s.params k 1 := by
  have hbyte (j : Nat) (hj : j < 4) : (s.capbufWritten i w).dev.capbuf.read (4 * k + j) = s.dev.capbuf.read (4 * k + j) :=
    (Memory.read_writeWord s.params.byteOrder i w h _).trans (if_neg (by omega))
  have hbyte0 : (s.capbufWritten i w).dev.capbuf.read (4 * k) = s.dev.capbuf.read (4 * k) := hbyte 0 (by omega)
  rw [Device.readBlock_one (Memory.wf_writeWord s.params.byteOrder i w h), Device.readBlock_one h, hbyte0, hbyte 1 (by omega),
    hbyte 2 (by omega), hbyte 3 (by omega)]

section
variable {s : State}

theorem State.hostReadCapbuf_of_notRunning (h : s.notRunning = true) {offset length : Nat} (hlen : offset + length ≤ capbufWords) :
    s.hostReadCapbuf offset length = some (s.dev.readBlock s.params offset length) := if_pos ⟨h, hlen⟩

theorem State.hostWriteCapbuf_of_notRunning (h : s.notRunning = true) {i : Nat} (hi : i < capbufWords) (w : Word) :
    s.hostWriteCapbuf i w = some (s.capbufWritten i w) := if_pos ⟨h, hi⟩

/-- Words from 4096 up do not exist (R62). -/
theorem State.hostCapbuf_outside {i : Nat} (hi : capbufWords ≤ i) (w : Word) :
    s.hostReadCapbuf i 1 = none ∧ s.hostWriteCapbuf i w = none := by
  refine ⟨if_neg fun h => ?_, if_neg fun h => ?_⟩
  · obtain ⟨-, hle⟩ := h
    omega
  · obtain ⟨-, hlt⟩ := h
    omega

/-- While the sequencer runs the host reaches nothing of the transport (R81, R268). -/
theorem State.host_refused (h : s.notRunning = false) :
    s.hostReadCtrl0 = none ∧ s.hostReadCtrl1 = none ∧ (∀ w, s.hostWriteCtrl0 w = none ∧ s.hostWriteCtrl1 w = none) ∧
      ∀ i n w, s.hostReadCapbuf i n = none ∧ s.hostWriteCapbuf i w = none := by
  have hr : ¬ s.notRunning = true := by rw [h]; exact Bool.false_ne_true
  exact ⟨if_neg hr, if_neg hr, fun w => ⟨if_neg hr, if_neg hr⟩, fun i n w => ⟨if_neg fun g => hr g.1, if_neg fun g => hr g.1⟩⟩

end

/-- Settles O53: each access in turn, refused while the sequencer runs, else a write as the device takes any write. -/
theorem hostReachesTheTransport : Obligations.HostReachesTheTransport := by
  refine fun s => ⟨State.host_refused, fun hr => ⟨if_pos hr, if_pos hr, fun i w hi => State.hostCapbuf_outside hi w,
    fun w => ?_, fun w => ?_, fun i w hi hm => ?_⟩⟩
  · have hr' : (s.ctrl0Lands w).notRunning = true := hr
    refine ⟨s.ctrl0Lands w, if_pos hr, if_pos hr', ?_, fun _ => rfl, rfl, fun h => h.ctrl0Lands w, fun hp => ?_⟩
    · exact (if_pos hr').trans (if_pos hr).symm
    · exact performs_ctrl0 s.params w (idxSer_ne_idxCap_of_wf hp) s rfl
  · have hr' : (s.ctrl1Lands w).notRunning = true := by rw [State.ctrl1Lands_notRunning, hr]
    refine ⟨s.ctrl1Lands w, if_pos hr, if_pos hr', ?_, fun htrig a => ?_, s.ctrl1Lands_port w, fun h => h.ctrl1Lands w,
      fun hp => ?_⟩
    · have hctrl0 : (s.ctrl1Lands w).dev.ctrl0 = s.dev.ctrl0 := Device.onCtrl1_ctrl0 _ _ _ _
      exact (if_pos hr').trans ((congrArg some hctrl0).trans (if_pos hr).symm)
    · rw [State.ctrl1Lands_dev, Device.onCtrl1_capbuf, htrig]
      rfl
    · exact performs_ctrl1 s.params w (idxSer_ne_idxCap_of_wf hp) s rfl
  · have hr' : (s.capbufWritten i w).notRunning = true := hr
    refine ⟨s.capbufWritten i w, State.hostWriteCapbuf_of_notRunning hr hi w, ?_, fun k hk hne => ?_, rfl,
      fun h => h.capbufWritten hi w⟩
    · exact (State.hostReadCapbuf_of_notRunning hr' hi).trans (congrArg some (State.capbufWritten_readBlock_same hm i w))
    · rw [State.hostReadCapbuf_of_notRunning hr hk, State.hostReadCapbuf_of_notRunning hr' hk]
      exact congrArg some (State.capbufWritten_readBlock_other hm hne w)

end Sys2Proof.Machine
end

section
/-! SUPPORT. The serial commands as sequences of cycles: what WRREG, SETPAT and SETFMT leave in the chips' registers, and their frame
(R133 to R139, R150 to R153). -/

namespace Sys2Proof.Machine

/-- The CTRL0 part of R6's constraints. -/
theorem ctrl0Wf_of_wf {p : Params} (h : p.Wf) : p.Ctrl0Wf := by
  obtain ⟨-, -, h0, -⟩ := h
  exact h0

/-- The two pattern registers are different registers (R6). -/
theorem patRegA_ne_patRegB_of_wf {p : Params} (h : p.Wf) : p.patRegA ≠ p.patRegB := by
  obtain ⟨-, -, -, -, hne⟩ := h
  exact hne

/-! ### Commands as cycles -/

/-- The (address, value) pairs a serial command writes, in order (R132, R150, R153). -/
def cyclesOf (p : Params) : Instr → List (BitVec 8 × BitVec 16)
  | .wrreg addr value => [(addr, value)]
  | .setpatNone => patternWrites p .none
  | .setpatRamp => patternWrites p .ramp
  | .setpatDeskew => patternWrites p .deskew
  | .setpatSync => patternWrites p .sync
  | .setpatCustom => patternWrites p .custom
  | .setpatDual => patternWrites p .dual
  | .setfmt invertMsb msbFirst => [(p.fmtReg, formatValue invertMsb msbFirst)]
  | _ => []

theorem cyclesOf_pattern (p : Params) (kind : PatKind) : cyclesOf p kind.instr = patternWrites p kind := by
  cases kind <;> rfl

theorem serialWrites_singleton (addr : BitVec 8) (value : BitVec 16) (s : State) :
    serialWrites [(addr, value)] s = serialWrite addr value s := by
  show (serialWrite addr value s).andThen (fun s => .go s) = _
  cases serialWrite addr value s <;> rfl

/-- The body of a serial command writes its cycles. -/
theorem bodyOf_serial {i : Instr} (h : isSerial i = true) (s : State) : bodyOf i s = serialWrites (cyclesOf s.params i) s := by
  cases i with
  | wrreg addr value => exact (serialWrites_singleton addr value s).symm
  | setfmt invertMsb msbFirst => exact (serialWrites_singleton _ _ s).symm
  | setcs | snap | dlytap | bitslip | caltaps | sync | cal => cases h
  | _ => rfl

theorem cyclesOf_ne_nil {i : Instr} (h : isSerial i = true) (p : Params) : cyclesOf p i ≠ [] := by
  cases i with
  | setcs | snap | dlytap | bitslip | caltaps | sync | cal => cases h
  | _ => exact List.cons_ne_nil _ _

theorem wellFormed_of_isSerial {i : Instr} (h : isSerial i = true) : i.wellFormed = true := by
  cases i with
  | setcs | snap | dlytap | bitslip | caltaps | sync | cal => cases h
  | _ => rfl

theorem ne_setcs_of_isSerial {i : Instr} (h : isSerial i = true) (mask : BitVec 4) : i ≠ .setcs mask := by
  rintro rfl
  cases h

/-! ### The trace -/

/-- The operations of completed serial writes are the closed forms of their cycles (R133). -/
theorem serialWrites_port {ws : List (BitVec 8 × BitVec 16)} {s t : State} (h : serialWrites ws s = .go t) :
    t.port = (ws.flatMap fun av => serialTrace s.params s.csmask av.1 av.2).reverse ++ s.port := by
  have hport : t.port =
      ((ws.flatMap fun av => cycleWords s.params s.csmask av.1 av.2).map (ctrl0Op s.params)).reverse ++ s.port :=
    congrArg State.port (serialWrites_eq_go h)
  rw [hport, List.map_flatMap]
  simp only [serialTrace_eq]
  rfl

/-! ### The registers -/

/-- Register `x` of chip `c` after the cycles `ws` of a command, `r` being what stood there: on a chip of the mask the last value
written to a register wins, and other registers keep what they held (R137). -/
def regAfter (mask : BitVec 4) (c : Fin 4) (x : BitVec 8) (ws : List (BitVec 8 × BitVec 16)) (r : BitVec 16) : BitVec 16 :=
  ws.foldl (fun r av => if mask.getLsbD c.val = true ∧ x = av.1 then av.2 else r) r

theorem regAfter_singleton (mask : BitVec 4) (c : Fin 4) (x addr : BitVec 8) (value r : BitVec 16) :
    regAfter mask c x [(addr, value)] r = if mask.getLsbD c.val = true ∧ x = addr then value else r := rfl

/-- The two clearing cycles and the setting cycle leave R151's values in the pattern registers. -/
theorem regAfter_patternWrites {p : Params} (hne : p.patRegA ≠ p.patRegB) (kind : PatKind) (mask : BitVec 4) (c : Fin 4) (x : BitVec 8)
    (r : BitVec 16) :
    regAfter mask c x (patternWrites p kind) r =
      if mask.getLsbD c.val = true ∧ x = p.patRegA then kind.valueA
      else if mask.getLsbD c.val = true ∧ x = p.patRegB then kind.valueB
      else r := by
  unfold regAfter patternWrites
  cases mask.getLsbD c.val with
  | false => cases kind <;> simp [patternWrite]
  | true =>
    by_cases ha : x = p.patRegA
    · subst ha
      cases kind <;> simp [patternWrite, PatKind.valueA, hne]
    · by_cases hb : x = p.patRegB
      · subst hb
        cases kind <;> simp [patternWrite, PatKind.valueB, ha]
      · cases kind <;> simp [patternWrite, ha, hb]

/-- With no failing operation a serial command completes, whatever the receivers held: its trace is its cycles, and its registers are
those of its cycles over a frame left open (R74, R137, R139). -/
theorem exec_serial {i : Instr} (hi : isSerial i = true) {s : State} (hp : s.params.Wf) (hs : s.NoTransportFailure (maxOps i)) :
    ∃ t, exec i s = .next t ∧ Completed s t ∧
      t.port = ((cyclesOf s.params i).flatMap fun av => serialTrace s.params s.csmask av.1 av.2).reverse ++ s.port ∧
      ∀ (c : Fin 4) (x : BitVec 8),
        t.dev.chips[c].adcreg[x.toNat] = regAfter s.csmask c x (cyclesOf s.params i) (s.dev.closedReg s.params c x) := by
  obtain ⟨m, hbody, hexec, done⟩ := exec_completes (wellFormed_of_isSerial hi) hs
  rw [bodyOf_serial hi] at hbody
  refine ⟨_, hexec, done, serialWrites_port (s := s.beginCommand) (t := m) hbody, fun c x => ?_⟩
  have hdev : m.dev = s.dev.afterCycles s.params s.csmask (cyclesOf s.params i) := serialWrites_dev (s := s.beginCommand) hbody
  rw [Flow.finish_dev, hdev]
  exact Device.afterCycles_adcreg_closed (ctrl0Wf_of_wf hp) s.csmask c x (cyclesOf_ne_nil hi s.params) s.dev

/-! ### WRREG -/

/-- Settles O27: WRREG is one cycle, over what the leading idle word leaves of an open frame. -/
theorem wrregFromAnyReceiverState : Obligations.WrregFromAnyReceiverState := by
  intro s addr value hp hs
  obtain ⟨t, hexec, done, -, hreg⟩ := exec_serial (i := .wrreg addr value) rfl hp hs
  exact ⟨t, hexec, done, hreg⟩

/-- Without a stale frame the leading idle word changes no register (R74). -/
theorem State.NoStaleFrame.closedReg {s : State} (h : s.NoStaleFrame) (c : Fin 4) (x : BitVec 8) :
    s.dev.closedReg s.params c x = s.dev.chips[c].adcreg[x.toNat] :=
  if_neg fun ⟨hsel, hcnt, _⟩ => h c hsel hcnt

/-- Settles O26: the premise leaves no frame that could be latched first. -/
theorem wrregWritesSelectedChips : Obligations.WrregWritesSelectedChips := by
  intro s addr value hp hstale hs
  obtain ⟨t, hexec, done, -, hreg⟩ := exec_serial (i := .wrreg addr value) rfl hp hs
  refine ⟨t, hexec, done, fun c x => ?_⟩
  rw [hreg c x, hstale.closedReg]
  rfl

/-! ### SETPAT and SETFMT -/

theorem isSerial_pattern (kind : PatKind) : isSerial kind.instr = true := by
  cases kind <;> rfl

theorem maxOps_pattern_le (kind : PatKind) : maxOps kind.instr ≤ 150 := by
  cases kind <;> decide

/-- Settles O29: the cycles of SETPAT leave the table's values in the two pattern registers. -/
theorem setpatSelectsThePattern : Obligations.SetpatSelectsThePattern := by
  intro s kind hp hs
  obtain ⟨t, hexec, done, -, hreg⟩ := exec_serial (isSerial_pattern kind) hp (hs.mono (maxOps_pattern_le kind))
  refine ⟨t, hexec, done, fun c x => ?_⟩
  rw [hreg c x, cyclesOf_pattern, regAfter_patternWrites (patRegA_ne_patRegB_of_wf hp)]

/-- Settles O30: SETFMT is one cycle that writes the value of the two bits. -/
theorem setfmtWritesTheFormat : Obligations.SetfmtWritesTheFormat := by
  intro s invertMsb msbFirst hp hs value
  have hvalue : formatValue invertMsb msbFirst = value := by
    cases invertMsb <;> cases msbFirst <;> rfl
  obtain ⟨t, hexec, done, hport, hreg⟩ := exec_serial (i := .setfmt invertMsb msbFirst) rfl hp hs
  have hcycles : cyclesOf s.params (.setfmt invertMsb msbFirst) = [(s.params.fmtReg, value)] := by rw [← hvalue]; rfl
  rw [hcycles] at hport hreg
  refine ⟨t, hexec, done, ?_, fun c x => ?_⟩
  · rw [hport, List.flatMap_singleton]
  · rw [hreg c x, regAfter_singleton]

/-! ### The frame -/

/-- Cycles on CTRL0 touch nothing of the device's CTRL1 side (R73, R74). -/
theorem Device.afterCycles_sameCapture {p : Params} (hw : p.Ctrl0Wf) (mask : BitVec 4) {ws : List (BitVec 8 × BitVec 16)}
    (hne : ws ≠ []) (d : Device) : SameCapture d (d.afterCycles p mask ws) := by
  obtain ⟨hcapbuf, hctrl1, hprev1, hcaptures⟩ :=
    Device.foldl_onCtrl0_rest p d (ws.flatMap fun av => cycleWords p mask av.1 av.2)
  have hchip (c : Fin 4) := Device.afterCycles_chip hw mask c hne d
  choose htap hslip _ _ using hchip
  exact ⟨hctrl1, hprev1, fun a => congrArg (Memory.read · a) hcapbuf, hcaptures, htap, hslip⟩

/-- Settles O31: a serial command writes CTRL0, the chips' receivers and registers, and the bit-banger's registers. -/
theorem serialCommandsFrame : Obligations.SerialCommandsFrame := by
  intro i s t hi hp h hc
  obtain ⟨done, hmask, -⟩ := exec_completed_keeps (ne_setcs_of_isSerial hi) h hc
  obtain ⟨-, m, hbody, rfl⟩ := exec_completed h hc
  rw [bodyOf_serial hi] at hbody
  have hne : cyclesOf s.params i ≠ [] := cyclesOf_ne_nil hi s.params
  have hm := serialWrites_eq_go hbody
  have hres : m.res = s.res := by rw [hm]; rfl
  have hcaptures : m.env.captures = s.env.captures := by rw [hm]; rfl
  have hwork := serialWrites_work hne hbody
  have hdev : m.dev = s.dev.afterCycles s.params s.csmask (cyclesOf s.params i) := serialWrites_dev (s := s.beginCommand) hbody
  obtain ⟨hctrl0, hprev0⟩ := Device.afterCycles_ctrl0 s.params s.csmask hne s.dev
  have hsame := Device.afterCycles_sameCapture (ctrl0Wf_of_wf hp) s.csmask hne s.dev
  rw [← hdev] at hctrl0 hprev0 hsame
  refine ⟨done, hmask, hres, hsame, hcaptures, ?_, hctrl0, hprev0, fun c => ?_⟩
  · rw [Flow.finish_work, hwork]
    rfl
  · obtain ⟨-, -, hrxcnt, hadcreg⟩ := Device.afterCycles_chip (ctrl0Wf_of_wf hp) s.csmask c hne s.dev
    rw [Flow.finish_dev, hdev]
    exact ⟨hrxcnt, hadcreg⟩

end Sys2Proof.Machine
end

section
/-! SUPPORT. What a completed CAL leaves, part by part, and its frame (R219 to R222). -/

namespace Sys2Proof.Machine

/-! ### The calibration of one chip -/

/-- GOOD and ERRCNT agree after a sweep: a tap is good exactly when both its counts are 0 (R189, R190). -/
theorem State.calibrated_good_iff (c : Fin 4) (e : Sample) (s : State) (lane : Fin 4) (j : Fin 32) :
    (s.calibrated c e).res.good[lane].getLsbD j.val = true ↔ (s.calibrated c e).res.errcnt[lane][j] = (0, 0) := by
  have hfits (r : Nat) : (BitVec.ofNat 8 (s.calErrors c e j r)).toNat = s.calErrors c e j r := by
    have hle := s.calErrors_le c e j r
    rw [BitVec.toNat_ofNat]
    omega
  rw [s.calibrated_good c e lane j j.isLt, s.calibrated_errcnt, counts_eq_zero_iff, hfits, hfits, Bool.and_eq_true,
    decide_eq_true_eq, decide_eq_true_eq]

/-! ### All four chips -/

section
variable (e : Sample) (s : State)

/-- Calibrating the chips touches no serial receiver, no register and no slip (R48, R184). -/
theorem State.calibratedAll_chip (c : Fin 4) :
    (s.calibratedAll e).dev.chips[c].adcreg = s.dev.chips[c].adcreg ∧ (s.calibratedAll e).dev.chips[c].slip = s.dev.chips[c].slip := by
  obtain ⟨hadcreg, hslip, -⟩ := (s.calStart e 3).calibrated_chip 3 e c
  obtain ⟨-, -, -, hchips⟩ := s.calStart_keeps e 3
  obtain ⟨hadcreg', hslip'⟩ := hchips c
  exact ⟨hadcreg.trans hadcreg', hslip.trans hslip'⟩

theorem State.calibratedAll_prev0 : (s.calibratedAll e).dev.prev0 = s.dev.prev0 := by
  obtain ⟨-, -, -, -, -, -, -, -, -, hprev0, -⟩ := (s.calStart e 3).calibrated_keeps 3 e
  obtain ⟨-, -, hprev0', -⟩ := s.calStart_keeps e 3
  exact hprev0.trans hprev0'

end

/-! ### The parts of CAL -/

/-- Once CTRL0 has ended at the idle word, no frame is open and a register is what it is (R74). -/
theorem Device.closedReg_of_idle {p : Params} (hw : p.Ctrl0Wf) {d : Device} (hd : d.prev0 = idleWord p) (c : Fin 4) (x : BitVec 8) :
    d.closedReg p c x = d.chips[c].adcreg[x.toNat] :=
  if_neg fun ⟨hsel, _⟩ => Bool.false_ne_true ((selects_idleWord hw c).symm.trans (hd ▸ hsel))

/-- The registers after a completed SETPAT (R151). -/
theorem setPattern_adcreg {kind : PatKind} {s t : State} (hp : s.params.Wf) (h : setPattern kind s = .go t) (c : Fin 4) (x : BitVec 8) :
    t.dev.chips[c].adcreg[x.toNat] =
      if s.csmask.getLsbD c.val = true ∧ x = s.params.patRegA then kind.valueA
      else if s.csmask.getLsbD c.val = true ∧ x = s.params.patRegB then kind.valueB
      else s.dev.closedReg s.params c x := by
  obtain ⟨-, -, -, -, -, hdev, -⟩ := setPattern_keeps h
  rw [hdev, Device.afterCycles_adcreg_closed (ctrl0Wf_of_wf hp) s.csmask c x (patternWrites_ne_nil s.params kind)]
  exact regAfter_patternWrites (patRegA_ne_patRegB_of_wf hp) kind s.csmask c x _

/-- A completed SETPAT ends CTRL0 at the idle word, with no bit of a frame received in the selected chips, and leaves a chip outside
the mask its registers if it had no complete frame open (R74, R135). -/
theorem setPattern_serial {kind : PatKind} {s t : State} (hp : s.params.Wf) (h : setPattern kind s = .go t) :
    t.dev.ctrl0 = idleWord s.params ∧ t.dev.prev0 = idleWord s.params ∧
    ∀ c : Fin 4, (s.csmask.getLsbD c.val = true → t.dev.chips[c].rxcnt = 0) ∧
      (s.csmask.getLsbD c.val = false → (selects s.params s.dev.prev0 c = true → s.dev.chips[c].rxcnt ≠ 24) →
        t.dev.chips[c].adcreg = s.dev.chips[c].adcreg) := by
  obtain ⟨-, -, -, -, -, hdev, -⟩ := setPattern_keeps h
  obtain ⟨hctrl0, hprev0⟩ := Device.afterCycles_ctrl0 s.params s.csmask (patternWrites_ne_nil s.params kind) s.dev
  rw [hdev]
  refine ⟨hctrl0, hprev0, fun c => ?_⟩
  obtain ⟨-, -, hrest⟩ := Device.afterCycles_chip (ctrl0Wf_of_wf hp) s.csmask c (patternWrites_ne_nil s.params kind) s.dev
  exact hrest

/-! ### The whole of CAL -/

/-- What CAL leaves in the registers that describe it (R195, R216, R220). -/
structure CalResults (r : Results) : Prop where
  calValid : r.calValid = true
  calChip : r.calChip = 3
  syncValid : r.syncValid = 0b1111
  sampleLen : r.sampleLen = 1
  sampleValid : r.sampleValid = 0b1000
  good : ∀ (lane : Fin 4) (j : Fin 32), r.good[lane].getLsbD j.val = true ↔ r.errcnt[lane][j] = (0, 0)

section
variable {d e : Sample} {s t : State} (hp : s.params.Wf) (h : calibrate d e s = .go t)
include hp h

/-- The calibration results are those of chip 3, the last one calibrated, and the sample registers those of its last capture. -/
theorem calibrate_results : CalResults t.res := by
  obtain ⟨m1, m3, -, h3, rfl, -⟩ := calibrate_eq_go (ctrl1Wf_of_wf hp) h
  obtain ⟨-, -, hres, -⟩ := setPattern_keeps h3
  obtain ⟨-, -, -, -, herrcnt, hgood, hcalValid, hcalChip, -⟩ := State.syncedAll_keeps (chipsIn 0b1111) (m3.forSync e)
  obtain ⟨hsampleLen, hsampleValid, -⟩ := State.syncedAll_last (chipsIn 0b1111) (m3.forSync e) 3 (by decide)
  obtain ⟨-, -, -, -, hvalid, hchip, -⟩ := (m1.calStart d 3).calibrated_keeps 3 d
  have hres' : (m3.forSync e).res = ((m1.calStart d 3).calibrated 3 d).res := hres
  rw [hres'] at herrcnt hgood hcalValid hcalChip
  exact
    { calValid := by rw [State.endSync_calValid, hcalValid, hvalid]
      calChip := by rw [State.endSync_calChip, hcalChip, hchip]
      syncValid := rfl
      sampleLen := hsampleLen
      sampleValid := hsampleValid
      good := fun lane j => by
        rw [State.endSync_good, State.endSync_errcnt, hgood, herrcnt]
        exact (m1.calStart d 3).calibrated_good_iff 3 d lane j }

/-- The taps of chip 3 are those that its maps of good taps select (R191, R195). -/
theorem calibrate_tap (lane : Fin 4) :
    t.dev.chips[(3 : Fin 4)].tap[lane] = if tapsOf t.res.good[lane] = [] then 31 else selectTap (tapsOf t.res.good[lane]) := by
  obtain ⟨m1, m3, -, h3, rfl, hparams, -⟩ := calibrate_eq_go (ctrl1Wf_of_wf hp) h
  obtain ⟨-, -, hres, -, -, -, hchips⟩ := setPattern_keeps h3
  obtain ⟨-, -, -, -, -, hgood, -⟩ := State.syncedAll_keeps (chipsIn 0b1111) (m3.forSync e)
  obtain ⟨-, htap, -⟩ := State.syncedAll_chip (chipsIn 0b1111) (m3.forSync e) 3
  obtain ⟨htap', -⟩ := hchips (by rw [hparams]; exact ctrl0Wf_of_wf hp) 3
  have hgood' : ((m3.forSync e).syncedAll (chipsIn 0b1111)).res.good = m1.calGood d 3 := hgood.trans (congrArg Results.good hres)
  rw [State.endSync_dev, State.endSync_good, htap, hgood']
  exact (congrArg (·[lane]) htap').trans (m1.calibratedAll_tap d 3 lane)

/-- The sync pattern stays on in the selected chips, and every other register is what the first idle word left (R74, R139, R151). -/
theorem calibrate_adcreg (c : Fin 4) (x : BitVec 8) :
    t.dev.chips[c].adcreg[x.toNat] =
      if s.csmask.getLsbD c.val = true ∧ x = s.params.patRegA then 0x0000
      else if s.csmask.getLsbD c.val = true ∧ x = s.params.patRegB then 0x0002
      else s.dev.closedReg s.params c x := by
  obtain ⟨m1, m3, h1, h3, rfl, hparams, hmask, -⟩ := calibrate_eq_go (ctrl1Wf_of_wf hp) h
  obtain ⟨hadcreg, -⟩ := State.syncedAll_chip (chipsIn 0b1111) (m3.forSync e) c
  obtain ⟨-, hprev0, -⟩ := setPattern_serial hp h1
  have hp3 : (m1.calibratedAll d).params.Wf := by rw [hparams]; exact hp
  have hclosed : (m1.calibratedAll d).dev.closedReg s.params c x = m1.dev.chips[c].adcreg[x.toNat] := by
    obtain ⟨hadcreg', -⟩ := m1.calibratedAll_chip d c
    rw [Device.closedReg_of_idle (ctrl0Wf_of_wf hp) ((m1.calibratedAll_prev0 d).trans hprev0), hadcreg']
  have hfirst := setPattern_adcreg hp h1 c x
  have hsecond := setPattern_adcreg hp3 h3 c x
  rw [hparams, hmask, hclosed, hfirst] at hsecond
  rw [State.endSync_dev, hadcreg]
  refine hsecond.trans ?_
  split
  · rfl
  · split <;> rfl

/-- CAL slips each chip at most eight times, in its last part (R214, R217). -/
theorem calibrate_slip (c : Fin 4) : s.dev.chips[c].slip ≤ t.dev.chips[c].slip ∧ t.dev.chips[c].slip ≤ s.dev.chips[c].slip + 8 := by
  obtain ⟨m1, m3, h1, h3, rfl, hparams, -⟩ := calibrate_eq_go (ctrl1Wf_of_wf hp) h
  obtain ⟨-, -, -, -, -, -, hchips1⟩ := setPattern_keeps h1
  obtain ⟨-, -, -, -, -, -, hchips3⟩ := setPattern_keeps h3
  obtain ⟨-, hslip1⟩ := hchips1 (ctrl0Wf_of_wf hp) c
  obtain ⟨-, hslip2⟩ := m1.calibratedAll_chip d c
  obtain ⟨-, hslip3⟩ := hchips3 (by rw [hparams]; exact ctrl0Wf_of_wf hp) c
  have hslip := State.syncedAll_slip (chipsIn 0b1111) (nodup_chipsIn _) (m3.forSync e) c
  have hstart : (m3.forSync e).dev.chips[c].slip = s.dev.chips[c].slip := hslip3.trans (hslip2.trans hslip1)
  rw [hstart] at hslip
  exact hslip

/-- What CAL leaves of the control words, and of the receivers and registers of each chip (R74, R219). -/
theorem calibrate_serial :
    t.dev.ctrl0 = idleWord s.params ∧ t.dev.prev0 = idleWord s.params ∧ t.dev.ctrl1 = 0 ∧ t.dev.prev1 = 0 ∧
    ∀ c : Fin 4, (s.csmask.getLsbD c.val = true → t.dev.chips[c].rxcnt = 0) ∧
      (s.csmask.getLsbD c.val = false → (selects s.params s.dev.prev0 c = true → s.dev.chips[c].rxcnt ≠ 24) →
        t.dev.chips[c].adcreg = s.dev.chips[c].adcreg) := by
  obtain ⟨m1, m3, h1, h3, rfl, hparams, hmask, -⟩ := calibrate_eq_go (ctrl1Wf_of_wf hp) h
  have hp3 : (m1.calibratedAll d).params.Wf := by rw [hparams]; exact hp
  obtain ⟨-, -, hctrl0, hprev0, -⟩ := State.syncedAll_keeps (chipsIn 0b1111) (m3.forSync e)
  obtain ⟨-, -, hctrl1, hprev1⟩ := State.syncedAll_last (chipsIn 0b1111) (m3.forSync e) 3 (by decide)
  obtain ⟨-, hidle1, hchips1⟩ := setPattern_serial hp h1
  obtain ⟨hidle3, hidle3', hchips3⟩ := setPattern_serial hp3 h3
  rw [hparams] at hidle3 hidle3'
  refine ⟨hctrl0.trans hidle3, hprev0.trans hidle3', hctrl1, hprev1, fun c => ?_⟩
  obtain ⟨hadcreg, -, -, hrxcnt, -⟩ := State.syncedAll_chip (chipsIn 0b1111) (m3.forSync e) c
  obtain ⟨-, hoff1⟩ := hchips1 c
  obtain ⟨hon3, hoff3⟩ := hchips3 c
  obtain ⟨hadcreg2, -⟩ := m1.calibratedAll_chip d c
  rw [hmask] at hon3 hoff3
  refine ⟨fun hc => hrxcnt.trans (hon3 hc), fun hc hs => hadcreg.trans ((hoff3 hc fun hsel => ?_).trans (hadcreg2.trans (hoff1 hc hs)))⟩
  rw [hparams, m1.calibratedAll_prev0, hidle1, selects_idleWord (ctrl0Wf_of_wf hp)] at hsel
  cases hsel

end

/-! ### The command -/

/-- With no failing operation a command other than SETCS completes, within its counts (R130). -/
theorem exec_completes_ran {i : Instr} (hm : ∀ mask, i ≠ .setcs mask) (hw : i.wellFormed = true) {s : State}
    (hs : s.NoTransportFailure (maxOps i)) :
    ∃ n m, minOps i ≤ n ∧ n ≤ maxOps i ∧ bodyOf i s.beginCommand = .go m ∧ Ran n s.beginCommand m ∧
      exec i s = .next (Flow.go m).finish := by
  obtain ⟨m, hbody, hexec, -⟩ := exec_completes hw hs
  have hwithin := bodyOf_within i hm s.beginCommand
  rw [hbody] at hwithin
  obtain ⟨n, hmin, hmax, ran⟩ := hwithin.ran
  exact ⟨n, m, hmin, hmax, hbody, ran, hexec⟩

/-- Settles O49: the parts of CAL one after another. -/
theorem calCalibratesEveryChip : Obligations.CalCalibratesEveryChip := by
  intro s deskewExpected syncExpected hp hs
  obtain ⟨n, m, hmin, hmax, hbody, ran, hexec⟩ :=
    exec_completes_ran (i := .cal deskewExpected syncExpected) (fun _ => Instr.noConfusion) rfl hs
  obtain ⟨ops, hlen, ⟨hport, -⟩, -⟩ := ran.port.issued (s := s.beginCommand) hp
  have hcal : calibrate deskewExpected syncExpected s.beginCommand = .go m := hbody
  have results := calibrate_results (s := s.beginCommand) hp hcal
  have htap := calibrate_tap (s := s.beginCommand) hp hcal
  have hadcreg := calibrate_adcreg (s := s.beginCommand) hp hcal
  have hslip := calibrate_slip (s := s.beginCommand) hp hcal
  subst hlen
  exact ⟨_, ops, hexec, completed_of_ran ran, hport, hmin, hmax, results.calValid, results.calChip, results.syncValid,
    results.sampleLen, results.sampleValid, ran.csmask, results.good, htap, hadcreg, hslip⟩

/-- Settles O50: CAL ends with both control words at rest and has written no memory outside CAPBUF. -/
theorem calFrame : Obligations.CalFrame := by
  intro s t deskewExpected syncExpected hp hd h hc
  obtain ⟨done, hmask, hdev⟩ := exec_completed_keeps (fun _ => Instr.noConfusion) h hc
  have hout (a : Nat) (ha : 16384 ≤ a) := hd.read_outside (hdev hd) ha
  obtain ⟨-, m, hbody, rfl⟩ := exec_completed h hc
  obtain ⟨hctrl0, hprev0, hctrl1, hprev1, hchips⟩ := calibrate_serial (s := s.beginCommand) hp hbody
  exact ⟨done, hmask, hctrl0, hprev0, hctrl1, hprev1, hout, hchips⟩

end Sys2Proof.Machine
end

section
/-! SUPPORT. A command word taken apart into the fields of R93 to R99: the decoder reads them, the encoder writes them, and a word has
the fields of one row of the opcode table. The words of the assembler (R118, R119), and the words written to CTRL0 (R100). -/

namespace Sys2Proof

/-! ### Fields of a word put together from fields -/

/-- What `extract_join` puts together, taken apart again. -/
theorem extract_eq_append_iff {n a b : Nat} (w : BitVec n) (s : Nat) (x : BitVec a) (y : BitVec b) :
    w.extractLsb' s (a + b) = x ++ y ↔ w.extractLsb' (s + b) a = x ∧ w.extractLsb' s b = y := by
  rw [← extract_join w s b a]
  constructor
  · intro h
    have hhigh := congrArg (fun v => v.extractLsb' b a) h
    have hlow := congrArg (fun v => v.extractLsb' 0 b) h
    simp only [extract_high _ _ b a (Nat.le_refl b), Nat.sub_self, extract_all] at hhigh
    simp only [extract_low _ _ 0 b (Nat.le_of_eq (Nat.zero_add b)), extract_all] at hlow
    exact ⟨hhigh, hlow⟩
  · rintro ⟨rfl, rfl⟩
    rfl

theorem extract_eq_append3_iff {n a b c : Nat} (w : BitVec n) (s : Nat) (x : BitVec a) (y : BitVec b) (z : BitVec c) :
    w.extractLsb' s (a + b + c) = x ++ y ++ z ↔
      w.extractLsb' (s + c + b) a = x ∧ w.extractLsb' (s + c) b = y ∧ w.extractLsb' s c = z := by
  rw [extract_eq_append_iff, extract_eq_append_iff, and_assoc]

theorem extract_eq_append4_iff {n a b c d : Nat} (w : BitVec n) (s : Nat) (x : BitVec a) (y : BitVec b) (z : BitVec c) (u : BitVec d) :
    w.extractLsb' s (a + b + c + d) = x ++ y ++ z ++ u ↔
      w.extractLsb' (s + d + c + b) a = x ∧ w.extractLsb' (s + d + c) b = y ∧ w.extractLsb' (s + d) c = z ∧
        w.extractLsb' s d = u := by
  rw [extract_eq_append_iff, extract_eq_append3_iff, and_assoc, and_assoc]

/-- A field of one bit. -/
theorem extract_eq_ofBool_iff {n : Nat} (w : BitVec n) (s : Nat) (b : Bool) : w.extractLsb' s 1 = BitVec.ofBool b ↔ w.getLsbD s = b := by
  rw [BitVec.eq_of_getLsbD_eq_iff]
  simp

/-! ### The fields of a command word -/

/-- The fields a command's word has (R93 to R99), the most significant first, reserved fields 0 (R91). -/
def Instr.FieldsIn (w : Word) : Instr → Prop
  | .setcs mask => w.extractLsb' 24 8 = 0x01#8 ∧ w.extractLsb' 4 20 = 0#20 ∧ w.extractLsb' 0 4 = mask
  | .wrreg addr value => w.extractLsb' 24 8 = 0x02#8 ∧ w.extractLsb' 16 8 = addr ∧ w.extractLsb' 0 16 = value
  | .setpatNone => w.extractLsb' 24 8 = 0x03#8 ∧ w.extractLsb' 3 21 = 0#21 ∧ w.extractLsb' 0 3 = 0#3
  | .setpatRamp => w.extractLsb' 24 8 = 0x03#8 ∧ w.extractLsb' 3 21 = 0#21 ∧ w.extractLsb' 0 3 = 1#3
  | .setpatDeskew => w.extractLsb' 24 8 = 0x03#8 ∧ w.extractLsb' 3 21 = 0#21 ∧ w.extractLsb' 0 3 = 2#3
  | .setpatSync => w.extractLsb' 24 8 = 0x03#8 ∧ w.extractLsb' 3 21 = 0#21 ∧ w.extractLsb' 0 3 = 3#3
  | .setpatCustom => w.extractLsb' 24 8 = 0x03#8 ∧ w.extractLsb' 3 21 = 0#21 ∧ w.extractLsb' 0 3 = 4#3
  | .setpatDual => w.extractLsb' 24 8 = 0x03#8 ∧ w.extractLsb' 3 21 = 0#21 ∧ w.extractLsb' 0 3 = 5#3
  | .setfmt invertMsb msbFirst =>
    w.extractLsb' 24 8 = 0x04#8 ∧ w.extractLsb' 2 22 = 0#22 ∧ w.extractLsb' 1 1 = BitVec.ofBool msbFirst ∧
      w.extractLsb' 0 1 = BitVec.ofBool invertMsb
  | .snap chips count => w.extractLsb' 24 8 = 0x05#8 ∧ w.extractLsb' 16 8 = chips ∧ w.extractLsb' 0 16 = count
  | .dlytap chip tap lanes =>
    (w.extractLsb' 24 8 = 0x06#8 ∧ w.extractLsb' 19 5 = 0#5 ∧ w.extractLsb' 16 3 = chip) ∧
      w.extractLsb' 12 4 = 0#4 ∧ w.extractLsb' 8 4 = lanes ∧ w.extractLsb' 0 8 = tap
  | .bitslip chips => w.extractLsb' 24 8 = 0x07#8 ∧ w.extractLsb' 16 8 = chips ∧ w.extractLsb' 0 16 = 0#16
  | .caltaps chip expected =>
    (w.extractLsb' 24 8 = 0x08#8 ∧ w.extractLsb' 19 5 = 0#5 ∧ w.extractLsb' 16 3 = chip) ∧
      w.extractLsb' 8 8 = 0#8 ∧ w.extractLsb' 0 8 = expected
  | .sync chips expected =>
    w.extractLsb' 24 8 = 0x09#8 ∧ w.extractLsb' 16 8 = chips ∧ w.extractLsb' 8 8 = 0#8 ∧ w.extractLsb' 0 8 = expected
  | .cal deskewExpected syncExpected =>
    w.extractLsb' 24 8 = 0x0A#8 ∧ w.extractLsb' 16 8 = 0#8 ∧ w.extractLsb' 8 8 = deskewExpected ∧ w.extractLsb' 0 8 = syncExpected

/-- The encoder writes the command's fields, and no other word has them. -/
theorem eq_encode_iff_fieldsIn (w : Word) (i : Instr) : w = encode i ↔ i.FieldsIn w := by
  have hall : w = encode i ↔ w.extractLsb' 0 32 = encode i := by rw [extract_all]
  rw [hall]
  cases i with
  | setcs mask => exact extract_eq_append3_iff w 0 0x01#8 0#20 mask
  | wrreg addr value => exact extract_eq_append3_iff w 0 0x02#8 addr value
  | setpatNone => exact extract_eq_append3_iff w 0 0x03#8 0#21 0#3
  | setpatRamp => exact extract_eq_append3_iff w 0 0x03#8 0#21 1#3
  | setpatDeskew => exact extract_eq_append3_iff w 0 0x03#8 0#21 2#3
  | setpatSync => exact extract_eq_append3_iff w 0 0x03#8 0#21 3#3
  | setpatCustom => exact extract_eq_append3_iff w 0 0x03#8 0#21 4#3
  | setpatDual => exact extract_eq_append3_iff w 0 0x03#8 0#21 5#3
  | setfmt invertMsb msbFirst => exact extract_eq_append4_iff w 0 0x04#8 0#22 (BitVec.ofBool msbFirst) (BitVec.ofBool invertMsb)
  | snap chips count => exact extract_eq_append3_iff w 0 0x05#8 chips count
  | dlytap chip tap lanes =>
    exact (extract_eq_append4_iff w 0 (0x06#8 ++ 0#5 ++ chip) 0#4 lanes tap).trans
      (and_congr_left' (extract_eq_append3_iff w 16 0x06#8 0#5 chip))
  | bitslip chips => exact extract_eq_append3_iff w 0 0x07#8 chips 0#16
  | caltaps chip expected =>
    exact (extract_eq_append3_iff w 0 (0x08#8 ++ 0#5 ++ chip) 0#8 expected).trans
      (and_congr_left' (extract_eq_append3_iff w 16 0x08#8 0#5 chip))
  | sync chips expected => exact extract_eq_append4_iff w 0 0x09#8 chips 0#8 expected
  | cal deskewExpected syncExpected => exact extract_eq_append4_iff w 0 0x0A#8 0#8 deskewExpected syncExpected

theorem ifReservedZero_eq_ok {n : Nat} {r : BitVec n} (i : Instr) (h : r = 0#n) : ifReservedZero r i = .ok i := if_pos h

theorem decodeSetpat_eq_decodeKind {w : Word} (h : w.extractLsb' 3 21 = 0#21) :
    decodeSetpat w = decodeKind (w.extractLsb' 0 3) := if_pos h

/-- Format by format: `op` selects the format, whose reserved fields are 0 (R91, R92). -/
theorem decode_of_fieldsIn {w : Word} {i : Instr} (h : i.FieldsIn w) : decode w = .ok i := by
  rw [decode_op]
  cases i with
  | setcs mask =>
    obtain ⟨hop, hreserved, rfl⟩ := h
    rw [hop]
    exact ifReservedZero_eq_ok _ hreserved
  | wrreg | snap =>
    obtain ⟨hop, rfl, rfl⟩ := h
    rw [hop]
    rfl
  | setpatNone | setpatRamp | setpatDeskew | setpatSync | setpatCustom | setpatDual =>
    obtain ⟨hop, hreserved, hkind⟩ := h
    rw [hop]
    refine (decodeSetpat_eq_decodeKind hreserved).trans ?_
    rw [hkind]
    rfl
  | setfmt invertMsb msbFirst =>
    obtain ⟨hop, hreserved, hmsb, hinvert⟩ := h
    rw [extract_eq_ofBool_iff] at hmsb hinvert
    rw [hop, hmsb, hinvert]
    exact ifReservedZero_eq_ok _ hreserved
  | dlytap chip tap lanes =>
    obtain ⟨⟨hop, hhigh, rfl⟩, hlow, rfl, rfl⟩ := h
    rw [hop]
    exact ifReservedZero_eq_ok _ (by rw [hhigh, hlow]; rfl)
  | bitslip chips =>
    obtain ⟨hop, rfl, hreserved⟩ := h
    rw [hop]
    exact ifReservedZero_eq_ok _ hreserved
  | caltaps chip expected =>
    obtain ⟨⟨hop, hhigh, rfl⟩, hlow, rfl⟩ := h
    rw [hop]
    exact ifReservedZero_eq_ok _ (by rw [hhigh, hlow]; rfl)
  | sync chips expected =>
    obtain ⟨hop, rfl, hreserved, rfl⟩ := h
    rw [hop]
    exact ifReservedZero_eq_ok _ hreserved
  | cal deskewExpected syncExpected =>
    obtain ⟨hop, hreserved, rfl, rfl⟩ := h
    rw [hop]
    exact ifReservedZero_eq_ok _ hreserved

/-- SETPAT's kinds (R95), for a word whose other fields are known. -/
theorem fieldsIn_of_decodeSetpat {w : Word} {i : Instr} (hop : w.extractLsb' 24 8 = 0x03#8) (h : decodeSetpat w = .ok i) :
    i.FieldsIn w := by
  unfold decodeSetpat at h
  split at h
  case isFalse => cases h
  case isTrue hreserved =>
    unfold decodeKind at h
    split at h
    case h_7 => cases h
    all_goals
      rename_i hkind
      cases h
      exact ⟨hop, hreserved, eq_of_number hkind⟩

/-- What the decoder reads has stood in the word, and what it skips was 0 (R91). -/
theorem fieldsIn_of_decode {w : Word} {i : Instr} (h : decode w = .ok i) : i.FieldsIn w := by
  rw [decode_op] at h
  split at h
  case h_1 hop =>
    obtain ⟨hreserved, rfl⟩ := ifReservedZero_ok h
    exact ⟨eq_of_number hop, hreserved, rfl⟩
  case h_2 hop | h_5 hop =>
    cases h
    exact ⟨eq_of_number hop, rfl, rfl⟩
  case h_3 hop => exact fieldsIn_of_decodeSetpat (eq_of_number hop) h
  case h_4 hop =>
    obtain ⟨hreserved, rfl⟩ := ifReservedZero_ok h
    exact ⟨eq_of_number hop, hreserved, (extract_eq_ofBool_iff w 1 _).mpr rfl, (extract_eq_ofBool_iff w 0 _).mpr rfl⟩
  case h_6 hop =>
    obtain ⟨hreserved, rfl⟩ := ifReservedZero_ok h
    obtain ⟨hhigh, hlow⟩ := append_eq_zero hreserved
    exact ⟨⟨eq_of_number hop, hhigh, rfl⟩, hlow, rfl, rfl⟩
  case h_7 hop =>
    obtain ⟨hreserved, rfl⟩ := ifReservedZero_ok h
    exact ⟨eq_of_number hop, rfl, hreserved⟩
  case h_8 hop =>
    obtain ⟨hreserved, rfl⟩ := ifReservedZero_ok h
    obtain ⟨hhigh, hlow⟩ := append_eq_zero hreserved
    exact ⟨⟨eq_of_number hop, hhigh, rfl⟩, hlow, rfl⟩
  case h_9 hop =>
    obtain ⟨hreserved, rfl⟩ := ifReservedZero_ok h
    exact ⟨eq_of_number hop, rfl, hreserved, rfl⟩
  case h_10 hop =>
    obtain ⟨hreserved, rfl⟩ := ifReservedZero_ok h
    exact ⟨eq_of_number hop, hreserved, rfl, rfl⟩
  case h_11 => cases h

/-- Settles O1: the word of a command has the command's fields, and the decoder reads them. -/
theorem decodeOfEncode : Obligations.DecodeOfEncode := fun i =>
  decode_of_fieldsIn ((eq_encode_iff_fieldsIn (encode i) i).mp rfl)

/-- Settles O2: a word the decoder accepts has the fields of the command read, and only the command's word has them. -/
theorem encodeOfDecode : Obligations.EncodeOfDecode := fun w i h =>
  ((eq_encode_iff_fieldsIn w i).mpr (fieldsIn_of_decode h)).symm

/-! ### The rows of the opcode table -/

theorem encode_fitsRow (i : Instr) : Laws.EncodeFitsRow.Statement i := by
  cases i with
  | setcs mask => exact Laws.EncodeFitsRow.setcs mask
  | wrreg addr value => exact Laws.EncodeFitsRow.wrreg addr value
  | setpatNone => exact Laws.EncodeFitsRow.setpatNone
  | setpatRamp => exact Laws.EncodeFitsRow.setpatRamp
  | setpatDeskew => exact Laws.EncodeFitsRow.setpatDeskew
  | setpatSync => exact Laws.EncodeFitsRow.setpatSync
  | setpatCustom => exact Laws.EncodeFitsRow.setpatCustom
  | setpatDual => exact Laws.EncodeFitsRow.setpatDual
  | setfmt invertMsb msbFirst => exact Laws.EncodeFitsRow.setfmt invertMsb msbFirst
  | snap chips count => exact Laws.EncodeFitsRow.snap chips count
  | dlytap chip tap lanes => exact Laws.EncodeFitsRow.dlytap chip tap lanes
  | bitslip chips => exact Laws.EncodeFitsRow.bitslip chips
  | caltaps chip expected => exact Laws.EncodeFitsRow.caltaps chip expected
  | sync chips expected => exact Laws.EncodeFitsRow.sync chips expected
  | cal deskewExpected syncExpected => exact Laws.EncodeFitsRow.cal deskewExpected syncExpected

theorem Instr.row_mem_opcodeTable (i : Instr) : i.row ∈ opcodeTable := by
  cases i <;> simp [opcodeTable, Instr.row]

/-- Two rows that agree on the bits both fix are one row. -/
theorem opcodeTable_apart :
    ∀ r ∈ opcodeTable, ∀ r' ∈ opcodeTable, r.pattern &&& r'.mask = r'.pattern &&& r.mask → r = r' := by decide

/-- Settles O5: the word of a command fits its row, and two rows that one word fits agree on the bits both fix. -/
theorem opcodeRowsFit : Obligations.OpcodeRowsFit := by
  refine ⟨fun w i h => ?_, fun w i j hi hj => ?_⟩
  · rw [← encodeOfDecode w i h]
    exact encode_fitsRow i
  · refine opcodeTable_apart _ i.row_mem_opcodeTable _ j.row_mem_opcodeTable ?_
    rw [← hi, ← hj, BitVec.and_assoc, BitVec.and_comm i.row.mask, ← BitVec.and_assoc]

/-! ### The assembler's words -/

/-- Settles O6: the words without an operand by evaluation, SELCHIP and SNAP1 for each of the four chips. -/
theorem assemblerWords : Obligations.AssemblerWords :=
  ⟨rfl, rfl, by decide, by decide, rfl, rfl, rfl⟩

end Sys2Proof

namespace Sys2Proof.Machine

/-! ### The words written to CTRL0 -/

theorem selects_eq_iff {p : Params} {w : Word} {c : Fin 4} {b : Bool} : selects p w c = b ↔ w.getLsbD (p.csLsb + c.val) = !b := by
  unfold selects
  cases b <;> simp

theorem idleWord_outside {p : Params} {i : Nat} (h : ¬ (p.csLsb ≤ i ∧ i ≤ p.csLsb + 3)) : (idleWord p).getLsbD i = false :=
  field4_outside _ h

theorem loWord_outside {p : Params} (m : BitVec 4) (b : Bool) {i : Nat} (hdata : i ≠ p.sdataBit)
    (hcs : ¬ (p.csLsb ≤ i ∧ i ≤ p.csLsb + 3)) : (loWord p m b).getLsbD i = false := by
  unfold loWord
  rw [BitVec.getLsbD_or, getLsbD_bitAt, field4_outside _ hcs]
  simp [hdata]

/-- Settles O24: each word selects its chips by the complement of its select field, and is 0 outside the fields it carries. -/
theorem ctrl0WordFields : Obligations.Ctrl0WordFields := by
  intro p mask b h
  refine ⟨fun c => ?_, loWord_sdata h mask b, hiWord_sdata h mask b, idleWord_sdata h, loWord_sclk h mask b, hiWord_sclk h mask b,
    idleWord_sclk h, fun j => ⟨hiWord_other mask b, fun _ hdata hcs => ⟨loWord_outside mask b hdata hcs, idleWord_outside hcs⟩⟩⟩
  exact ⟨selects_eq_iff.mp (selects_loWord h mask b c), selects_eq_iff.mp (selects_hiWord h mask b c),
    selects_eq_iff.mp (selects_idleWord h c)⟩

end Sys2Proof.Machine
end

section
/-! SUPPORT. The operation counts of completed commands (R130), the mask and the serial trace (R131, R133), and the frame of the commands
of at most one pulse on CTRL1 (R131, R182, R211). -/

namespace Sys2Proof.Machine

/-! ### SETCS -/

/-- SETCS has no operation that could fail (R131). -/
theorem completed_setcs (mask : BitVec 4) (s : State) : Completed s (Flow.go (s.beginCommand.setCsmask mask)).finish :=
  ⟨rfl, rfl, rfl, rfl, rfl, rfl⟩

/-- Settles O23: SETCS ends in one state, where only CSMASK has been written. -/
theorem setcsWritesTheMask : Obligations.SetcsWritesTheMask :=
  fun s mask => ⟨_, exec_setcs mask s, completed_setcs mask s, rfl, rfl, rfl, rfl⟩

/-! ### The counts -/

/-- What the port grew by, oldest first. -/
theorem PortGrew.port_eq_reverse_append {n : Nat} {s t : State} (g : PortGrew n s t) :
    ∃ ops : List TOp, ops.length = n ∧ t.port = ops.reverse ++ s.port := by
  obtain ⟨ops, hlen, hport, -⟩ := g
  exact ⟨ops.reverse, by rw [List.length_reverse, hlen], by rw [hport, List.reverse_reverse]⟩

/-- Settles O22: SETCS has no operation, and every other body runs to its end within its counts. -/
theorem commandsCompleteWithinTheirCounts : Obligations.CommandsCompleteWithinTheirCounts := by
  intro i s hw hs
  by_cases hm : ∃ mask, i = .setcs mask
  · obtain ⟨mask, rfl⟩ := hm
    exact ⟨_, [], exec_setcs mask s, completed_setcs mask s, rfl, Nat.le_refl 0, Nat.le_refl 0⟩
  · obtain ⟨n, m, hmin, hmax, -, ran, hexec⟩ := exec_completes_ran (fun mask hi => hm ⟨mask, hi⟩) hw hs
    obtain ⟨ops, rfl, hport⟩ := ran.port.port_eq_reverse_append
    exact ⟨_, ops, hexec, completed_of_ran ran, hport, hmin, hmax⟩

/-! ### The trace of WRREG -/

/-- Settles O25: WRREG is a run of serial writes with one cycle. -/
theorem wrregTrace : Obligations.WrregTrace := by
  intro s addr value hs
  obtain ⟨m, hbody, hexec, done⟩ := exec_completes (i := .wrreg addr value) rfl hs
  have hcycle : serialWrites [(addr, value)] s.beginCommand = .go m := (serialWrites_singleton addr value _).trans hbody
  have hport := serialWrites_port hcycle
  rw [List.flatMap_singleton] at hport
  exact ⟨_, hexec, done, hport⟩

/-! ### One pulse on CTRL1 -/

/-- The state after a completed command of one pulse on CTRL1 that triggers no capture and leaves the chips as `chips`. -/
def State.pulseDone (w0 w1 w2 : Word) (chips : Vector Chip 4) (s : State) : State :=
  (Flow.go (s.beginCommand.pulsed w0 w1 w2 { s.dev.zeroed with chips := chips } s.env.captures)).finish

/-- A completed DLYTAP ended with its lanes loaded (R182, R184). -/
theorem exec_dlytap_completed {s t : State} {chip : BitVec 3} {tap : BitVec 8} {lanes : BitVec 4} (hw : s.params.Ctrl1Wf)
    (h : exec (.dlytap chip tap lanes) s = .next t) (hc : t.cp = s.cp + 1) :
    t = s.pulseDone (tapWord s.params (clampTap tap)) (tapResetWord s.params (clampTap tap) (Fin.ofNat 4 chip.toNat) lanes) zeroWord
      (tapChips (Fin.ofNat 4 chip.toNat) (clampTap tap) lanes s.dev.chips) := by
  obtain ⟨-, m, hbody, rfl⟩ := exec_completed h hc
  obtain rfl := delayWrite_eq_go (s := s.beginCommand) (t := m) hw hbody
  rfl

/-- A completed BITSLIP ended with its chips slipped (R211). -/
theorem exec_bitslip_completed {s t : State} {chips : BitVec 8} (hw : s.params.Ctrl1Wf)
    (h : exec (.bitslip chips) s = .next t) (hc : t.cp = s.cp + 1) :
    t = s.pulseDone zeroWord (slipWord s.params (chips.extractLsb' 0 4)) zeroWord (slipChips (chips.extractLsb' 0 4) s.dev.chips) := by
  obtain ⟨-, m, hbody, rfl⟩ := exec_completed h hc
  obtain rfl := slipPulse_eq_go (s := s.beginCommand) (t := m) hw hbody
  rfl

/-- A pulse keeps the CTRL0 side of the device if it leaves every chip's registers and receiver alone (R48). -/
theorem State.pulseDone_sameSerial {w0 w1 w2 : Word} {chips : Vector Chip 4} {s : State}
    (h : ∀ c : Fin 4, chips[c].adcreg = s.dev.chips[c].adcreg ∧ chips[c].rxsr = s.dev.chips[c].rxsr ∧
      chips[c].rxcnt = s.dev.chips[c].rxcnt) :
    SameSerial s.dev (s.pulseDone w0 w1 w2 chips).dev := by
  choose hadcreg hrxsr hrxcnt using h
  exact ⟨rfl, rfl, hadcreg, hrxsr, hrxcnt⟩

/-- Settles O36: SETCS reaches no device, and a pulse writes CTRL1 and the taps or the slips. -/
theorem pulseCommandsFrame : Obligations.PulseCommandsFrame := by
  intro i s t hi hp h hc
  cases i with
  | setcs mask =>
    cases (exec_setcs mask s).symm.trans h
    exact ⟨completed_setcs mask s, rfl, rfl, ⟨rfl, rfl, fun _ => rfl, fun _ => rfl, fun _ => rfl⟩, fun _ => rfl, rfl, rfl, rfl, rfl⟩
  | dlytap chip tap lanes =>
    obtain ⟨done, hmask, -⟩ := exec_completed_keeps (fun _ => Instr.noConfusion) h hc
    obtain rfl := exec_dlytap_completed (ctrl1Wf_of_wf hp) h hc
    have hchip (c : Fin 4) := tapChips_rest (Fin.ofNat 4 chip.toNat) (clampTap tap) lanes s.dev.chips c
    choose hadcreg hslip hrx using hchip
    exact ⟨done, rfl, rfl, State.pulseDone_sameSerial fun c => ⟨hadcreg c, hrx c⟩, fun _ => rfl, rfl, rfl, hmask, rfl, rfl, hslip⟩
  | bitslip chips =>
    obtain ⟨done, hmask, -⟩ := exec_completed_keeps (fun _ => Instr.noConfusion) h hc
    obtain rfl := exec_bitslip_completed (ctrl1Wf_of_wf hp) h hc
    have hchip (c : Fin 4) := slipChips_rest (chips.extractLsb' 0 4) s.dev.chips c
    choose hadcreg htap hrx using hchip
    exact ⟨done, rfl, rfl, State.pulseDone_sameSerial fun c => ⟨hadcreg c, hrx c⟩, fun _ => rfl, rfl, rfl, hmask, rfl, rfl, htap⟩
  | _ => cases hi

end Sys2Proof.Machine
end

section
/-! SUPPORT. The trace of SETPAT (R150). -/

namespace Sys2Proof.Machine

/-- With no failing operation a serial command completes and issues its cycles in order, whatever the parameters (R132, R133). -/
theorem exec_serial_port {i : Instr} (hi : isSerial i = true) {s : State} (hs : s.NoTransportFailure (maxOps i)) :
    ∃ t, exec i s = .next t ∧ Completed s t ∧
      t.port = ((cyclesOf s.params i).flatMap fun av => serialTrace s.params s.csmask av.1 av.2).reverse ++ s.port := by
  obtain ⟨m, hbody, hexec, done⟩ := exec_completes (wellFormed_of_isSerial hi) hs
  rw [bodyOf_serial hi] at hbody
  exact ⟨_, hexec, done, serialWrites_port (s := s.beginCommand) (t := m) hbody⟩

/-- The trace of SETPAT is its two clearing cycles, then the cycle of its setting write if the kind has one. -/
theorem patternTrace_eq_clears_append (p : Params) (csmask : BitVec 4) (kind : PatKind) :
    patternTrace p csmask kind =
      (serialTrace p csmask p.patRegA 0x0000 ++ serialTrace p csmask p.patRegB 0x0000) ++
        (patternWrite p kind).flatMap fun av => serialTrace p csmask av.1 av.2 := by
  rw [patternTrace, patternWrites, List.flatMap_cons, List.flatMap_cons, List.append_assoc]

/-- Settles O28: SETPAT is a serial command whose cycles are its pattern writes, and each kind's setting write is the table's. -/
theorem setpatTrace : Obligations.SetpatTrace := by
  intro s kind hs cycle clears
  obtain ⟨t, hexec, done, hport⟩ := exec_serial_port (isSerial_pattern kind) (hs.mono (maxOps_pattern_le kind))
  refine ⟨t, hexec, done, ?_⟩
  have htrace : t.port = (clears ++ (patternWrite s.params kind).flatMap fun av => cycle av.1 av.2).reverse ++ s.port := by
    rw [hport, cyclesOf_pattern]
    exact congrArg (·.reverse ++ s.port) (patternTrace_eq_clears_append s.params s.csmask kind)
  rw [htrace]
  cases kind with
  | none => rw [patternWrite, List.flatMap_nil, List.append_nil]
  | ramp | deskew | sync | custom | dual => rw [patternWrite, List.flatMap_singleton]

end Sys2Proof.Machine
end

section
/-! SUPPORT. CAL on given captures (R219): the sweeps take the first 128, the synchronisation the rest. -/

namespace Sys2Proof.Machine

/-- The end of a command takes no capture. -/
theorem Flow.finish_captures (m : State) : (Flow.go m).finish.env.captures = m.env.captures := rfl

/-! ### The sweeps -/

/-- With the capture at a tap given, both counts of ERRCNT are the mismatches in its rows (R188, R189). -/
theorem State.calibrated_errcnt_capture (c : Fin 4) (e : Sample) (s : State) (lane : Fin 4) (j : Fin 32) {k : Capture}
    (hk : s.env.captures[j.val]? = some k) :
    (s.calibrated c e).res.errcnt[lane][j].1.toNat = k.rowErrors s.params.byteOrder c lane.val e ∧
    (s.calibrated c e).res.errcnt[lane][j].2.toNat = k.rowErrors s.params.byteOrder c (lane.val + 4) e := by
  have hcount (r : Nat) : (BitVec.ofNat 8 (s.calErrors c e j r)).toNat = k.rowErrors s.params.byteOrder c r e := by
    have hle := s.calErrors_le c e j r
    rw [BitVec.toNat_ofNat, Nat.mod_eq_of_lt (by omega), s.calErrors_capture c e j.val j.isLt.le r hk]
  rw [s.calibrated_errcnt]
  exact ⟨hcount _, hcount _⟩

/-- After all four chips ERRCNT counts the mismatches of chip 3's captures (R189, R219). -/
theorem State.calibratedAll_errcnt_capture (e : Sample) (s : State) (lane : Fin 4) (j : Fin 32) {k : Capture}
    (hk : s.env.captures[96 + j.val]? = some k) :
    (s.calibratedAll e).res.errcnt[lane][j].1.toNat = k.rowErrors s.params.byteOrder 3 lane.val e ∧
    (s.calibratedAll e).res.errcnt[lane][j].2.toNat = k.rowErrors s.params.byteOrder 3 (lane.val + 4) e := by
  obtain ⟨hparams, hcaps, -⟩ := s.calStart_keeps e 3
  have hk' : (s.calStart e 3).env.captures[j.val]? = some k := by
    rw [hcaps, List.getElem?_drop]
    exact hk
  have hcount := (s.calStart e 3).calibrated_errcnt_capture 3 e lane j hk'
  rw [hparams] at hcount
  exact hcount

/-! ### The two halves of CAL -/

/-- The state after the last part of CAL, the synchronisation of all four chips (R219). -/
def State.syncedFour (s : State) : State := (s.syncedAll (List.finRange 4)).endSync 0b1111

/-- SYNCOK of every chip is its own verdict (R216). -/
theorem State.syncedFour_syncok (s : State) (c : Fin 4) :
    s.syncedFour.res.syncok[c] = (s.syncedAll (List.finRange 4)).res.syncok[c] :=
  State.endSync_syncok (by revert c; decide)

/-- What a CAL from `s` with the bytes `d` and `e` leaves where its sweeps start, at `m`, and where its synchronisation starts, at
`q` (R219). -/
structure CalHalves (d e : Sample) (s m q : State) : Prop where
  sweepParams : m.params = s.params
  sweepCaptures : m.env.captures = s.env.captures
  syncParams : q.params = s.params
  syncCaptures : q.env.captures = s.env.captures.drop 128
  expect : q.work.expect = e
  res : q.res = (m.calibratedAll d).res
  tap : ∀ c : Fin 4, q.dev.chips[c].tap = (m.calibratedAll d).dev.chips[c].tap
  slip : ∀ c : Fin 4, q.dev.chips[c].slip = s.dev.chips[c].slip

/-- A completed CAL is its sweeps, then the synchronisation of the four chips. -/
theorem calibrate_halves {d e : Sample} {s t : State} (hp : s.params.Wf) (h : calibrate d e s = .go t) :
    ∃ m q, CalHalves d e s m q ∧ t = q.syncedFour := by
  obtain ⟨m, m3, h1, h3, rfl, hparams, -, hcaps⟩ := calibrate_eq_go (ctrl1Wf_of_wf hp) h
  have hw : s.params.Ctrl0Wf := ctrl0Wf_of_wf hp
  obtain ⟨hparams1, -, -, hcaps1, -, -, hchips1⟩ := setPattern_keeps h1
  obtain ⟨hparams3, -, hres3, hcaps3, -, -, hchips3⟩ := setPattern_keeps h3
  rw [hparams] at hparams3 hchips3
  refine ⟨m, m3.forSync e, ?_, by rw [State.syncedFour, show chipsIn 0b1111 = List.finRange 4 by decide]⟩
  exact
    { sweepParams := hparams1
      sweepCaptures := hcaps1
      syncParams := hparams3
      syncCaptures := hcaps3.trans hcaps
      expect := rfl
      res := hres3
      tap := fun c => (hchips3 hw c).1
      slip := fun c => (hchips3 hw c).2.trans ((m.calibratedAll_chip d c).2.trans (hchips1 hw c).2) }

section
variable {d e : Sample} {s m q : State} (hv : CalHalves d e s m q)
include hv

/-- Tap `j` of chip `c` is judged on capture 32 `c` + `j` (R188 to R190). -/
theorem CalHalves.good_iff (c lane : Fin 4) (j : Fin 32) {k : Capture} (hk : s.env.captures[32 * c.val + j.val]? = some k) :
    (m.calGood d c)[lane].getLsbD j.val = true ↔ k.GoodAt s.params.byteOrder c lane d := by
  rw [← hv.sweepParams]
  exact m.calGood_capture d c lane j (hv.sweepCaptures ▸ hk)

/-- The synchronisation keeps the tap that each lane's own sweep selects (R191, R195). -/
theorem CalHalves.syncedFour_tap (c lane : Fin 4) :
    q.syncedFour.dev.chips[c].tap[lane] =
      if tapsOf (m.calGood d c)[lane] = [] then 31 else selectTap (tapsOf (m.calGood d c)[lane]) := by
  obtain ⟨-, htap, -⟩ := q.syncedAll_chip (List.finRange 4) c
  rw [State.syncedFour, State.endSync_dev, htap, hv.tap c]
  exact m.calibratedAll_tap d c lane

/-- The synchronisation keeps chip 3's maps (R34, R219). -/
theorem CalHalves.syncedFour_good : q.syncedFour.res.good = m.calGood d 3 := by
  obtain ⟨-, -, -, -, -, hgood, -⟩ := q.syncedAll_keeps (List.finRange 4)
  rw [State.syncedFour, State.endSync_good, hgood, hv.res]
  rfl

/-- The synchronisation keeps the counts of chip 3's sweep, those of captures 96 to 127 (R189, R219). -/
theorem CalHalves.syncedFour_errcnt (lane : Fin 4) (j : Fin 32) {k : Capture} (hk : s.env.captures[96 + j.val]? = some k) :
    q.syncedFour.res.errcnt[lane][j].1.toNat = k.rowErrors s.params.byteOrder 3 lane.val d ∧
    q.syncedFour.res.errcnt[lane][j].2.toNat = k.rowErrors s.params.byteOrder 3 (lane.val + 4) d := by
  obtain ⟨-, -, -, -, herrcnt, -⟩ := q.syncedAll_keeps (List.finRange 4)
  rw [State.syncedFour, State.endSync_errcnt, herrcnt, hv.res, ← hv.sweepParams]
  exact m.calibratedAll_errcnt_capture d lane j (hv.sweepCaptures ▸ hk)

end

/-! ### The command -/

/-- Settles O52: the sweeps on the first 128 captures, then the loop of R214 chip by chip on the rest. -/
theorem calFollowsItsCaptures : Obligations.CalFollowsItsCaptures := by
  intro s deskewExpected syncExpected taken hp hs hlen htaken order outcome
  obtain ⟨t, hbody, hexec, done⟩ := exec_completes (i := .cal deskewExpected syncExpected) rfl hs
  obtain ⟨m, q, hv, rfl⟩ := calibrate_halves (s := s.beginCommand) (t := t) hp hbody
  have hcaps : q.env.captures = s.env.captures.drop 128 := hv.syncCaptures
  have hq : 9 * (List.finRange 4).length ≤ q.env.captures.length := by
    rw [hcaps, List.length_drop, List.length_finRange]
    omega
  have houtcome : syncOutcome q.params.byteOrder q.work.expect (List.finRange 4) q.env.captures = outcome := by
    rw [hv.syncParams, hv.expect, hcaps]
    rfl
  obtain ⟨-, hchips, hscript⟩ := q.syncedAll_script (List.finRange 4) (List.nodup_finRange 4) hq
  obtain ⟨hused, hmin, hmax, hsamples⟩ := q.syncedAll_samples (List.finRange 4) hq
  rw [houtcome] at hchips hscript hused hmin hmax hsamples
  refine ⟨_, m.calGood deskewExpected, hexec, done, fun c lane j => hv.good_iff c lane j (htaken c j), hv.syncedFour_tap,
    hv.syncedFour_good, fun lane j => hv.syncedFour_errcnt lane j (htaken 3 j), hchips, fun c pulses ok hmem => ?_, ?_, hmax,
    fun lane last hlast => ?_⟩
  · obtain ⟨hpulses, hslip, hok⟩ := hscript c pulses ok hmem
    exact ⟨hpulses, hslip.trans (congrArg (· + pulses) (hv.slip c)), (q.syncedFour_syncok c).trans hok⟩
  · rw [Flow.finish_captures, State.syncedFour, State.endSync_env, hused, hcaps, List.drop_drop]
  · have hpos : 2 * 4 ≤ outcomeCaptures outcome := hmin
    have hk : q.env.captures[outcomeCaptures outcome - 1]? = some last := by
      rw [hcaps, List.getElem?_drop, ← Nat.add_sub_assoc (by omega), hlast]
    have hsample := hsamples 3 lane last (by decide) hk
    rw [hv.syncParams] at hsample
    exact hsample

end Sys2Proof.Machine
end

section
/-! SUPPORT. The tap selection: what `tapsOf` lists, what `Rotate` does to a list of taps, and which tap is selected (R190 to R193). -/

namespace Sys2Proof.Machine

/-- The good-tap list holds the set bits of its map (R34, R190). -/
theorem mem_tapsOf {good : BitVec 32} {t : Nat} : t ∈ tapsOf good ↔ t < 32 ∧ good.getLsbD t = true := by
  rw [tapsOf, List.mem_filter, List.mem_range]

/-- Where `Rotate` moves one tap of a list that it rotates (R192). -/
def rotateTap (t : Nat) : Nat := if t < 16 then t + 32 else t

theorem rotateTap_mod {t : Nat} (ht : t < 32) : rotateTap t % 32 = t := by
  unfold rotateTap
  split <;> omega

theorem rotateTap_bounds {t : Nat} (ht : t < 32) : 16 ≤ rotateTap t ∧ rotateTap t ≤ 47 := by
  unfold rotateTap
  split <;> omega

theorem rotate_narrow {g : List Nat} (h : maxOf g - minOf g ≤ 16) : rotate g = g := if_neg (Nat.not_lt.mpr h)

theorem rotate_wide {g : List Nat} (h : 16 < maxOf g - minOf g) : rotate g = (g.map rotateTap).insertionSort (· ≤ ·) := if_pos h

theorem rotate_wide_perm {g : List Nat} (h : 16 < maxOf g - minOf g) : (rotate g).Perm (g.map rotateTap) := by
  rw [rotate_wide h]
  exact List.perm_insertionSort _ _

/-- Rotated or not, a list has the same taps mod 32 (R192). -/
theorem rotate_mod_perm {g : List Nat} (hg : ∀ t ∈ g, t < 32) : ((rotate g).map (· % 32)).Perm g := by
  have hid (f : Nat → Nat) (hf : ∀ t ∈ g, f t = t) : g.map f = g := (List.map_congr_left hf).trans (List.map_id g)
  by_cases h : maxOf g - minOf g ≤ 16
  · rw [rotate_narrow h, hid _ fun t ht => Nat.mod_eq_of_lt (hg t ht)]
  · have hmod : (g.map rotateTap).map (· % 32) = g := List.map_map.trans (hid _ fun t ht => rotateTap_mod (hg t ht))
    exact ((rotate_wide_perm (Nat.not_le.mp h)).map (· % 32)).trans (.of_eq hmod)

/-- The selected tap is an element of the list it is selected from (R193). -/
theorem selectTap_mem {g : List Nat} (hg : ∀ t ∈ g, t < 32) (hne : g ≠ []) : (selectTap g).toNat ∈ g := by
  have hperm := rotate_mod_perm hg
  have hmid : (rotate g).length / 2 < (rotate g).length := by
    have hlen := hperm.length_eq
    have hpos := List.length_pos_iff.mpr hne
    rw [List.length_map] at hlen
    omega
  have hsel : (selectTap g).toNat = (rotate g)[(rotate g).length / 2] % 32 := by
    rw [selectTap, List.getD_eq_getElem _ _ hmid, BitVec.toNat_ofNat]
    exact Nat.mod_mod _ 32
  rw [hsel]
  exact hperm.subset (List.mem_map_of_mem (List.getElem_mem hmid))

/-- Settles O40: only a wide list is sorted anew, with every tap moved into 16..47. -/
theorem rotateRule : Obligations.RotateRule := by
  intro good g
  refine ⟨rotate_narrow, fun h => ⟨rotate_wide_perm h, ?_, fun t ht => ?_⟩⟩
  · rw [rotate_wide h]
    exact List.pairwise_insertionSort _ _
  · obtain ⟨t', ht', rfl⟩ := List.mem_map.mp ((rotate_wide_perm h).subset ht)
    exact rotateTap_bounds (mem_tapsOf.mp ht').1

/-- Settles O41: the selected tap is an element of the good-tap list. -/
theorem selectedTapIsGood : Obligations.SelectedTapIsGood :=
  fun _ hne => (mem_tapsOf.mp (selectTap_mem (fun _ ht => (mem_tapsOf.mp ht).1) hne)).2

end Sys2Proof.Machine
end

section
/-! SUPPORT. DLYTAP from start to end (R180, R182, R184). -/

namespace Sys2Proof.Machine

/-- The clamped tap is the smaller of the operand and 31 (R110). -/
theorem clampTap_eq_min (tap : BitVec 8) : clampTap tap = BitVec.ofNat 5 (min tap.toNat 31) := by
  unfold clampTap clamp
  congr 1
  rw [if_neg (Nat.not_lt_zero _)]
  split <;> omega

/-- Settles O34: the pulse that a completed DLYTAP has issued loads the lanes of its strobes. -/
theorem dlytapLoadsItsLanes : Obligations.DlytapLoadsItsLanes := by
  intro s chip tap lanes c hp hc hs tap'
  have hvalid : chipValid chip := by omega
  obtain ⟨m, -, hexec, done⟩ := exec_completes (i := .dlytap chip tap lanes) (decide_eq_true hvalid) hs
  have ht := exec_dlytap_completed (ctrl1Wf_of_wf hp) hexec done.cp
  rw [show Fin.ofNat 4 chip.toNat = c from Option.some.inj ((chipOf_valid hvalid).symm.trans (chipOf_eq hc)),
    show clampTap tap = tap' from clampTap_eq_min tap] at ht
  refine ⟨_, hexec, done, ?_⟩
  rw [ht]
  exact ⟨rfl, tapChips_tap c tap' lanes s.dev.chips⟩

end Sys2Proof.Machine
end

section
/-! SUPPORT. CALTAPS on captures that are all as expected, or all wrong (R197). -/

namespace Sys2Proof.Machine

/-- A row has no mismatch exactly when each of its 128 columns shows the expected byte (R189). -/
theorem Capture.rowErrors_eq_zero_iff (k : Capture) (o : ByteOrder) (c : Fin 4) (r : Nat) (e : Sample) :
    k.rowErrors o c r e = 0 ↔ ∀ col < 128, conv (k.streamByte o c (128 * r + col)) = e := by
  simp [Capture.rowErrors, List.countP_eq_zero]

/-- With the capture at tap `j` given, that tap is good by the capture alone (R188 to R190). -/
theorem State.calDone_good_capture (c : Fin 4) (e : Sample) (s : State) (lane : Fin 4) (j : Fin 32) {k : Capture}
    (hk : s.env.captures[j.val]? = some k) :
    (s.calDone c e).res.good[lane].getLsbD j.val = true ↔ k.GoodAt s.params.byteOrder c lane e := by
  have hcount (r : Nat) : s.beginCommand.calErrors c e j r = k.rowErrors s.params.byteOrder c r e :=
    s.beginCommand.calErrors_capture c e j.val j.isLt.le r hk
  rw [s.calDone_good, hcount, hcount]
  exact Iff.rfl

/-- The tap of the calibrated chip's lane, once its map is known (R193, R195). -/
theorem State.calDone_tap_of_good {c : Fin 4} {e : Sample} {s : State} {lane : Fin 4} {g : BitVec 32}
    (hg : (s.calDone c e).res.good[lane] = g) :
    (s.calDone c e).dev.chips[c].tap[lane] = if tapsOf g = [] then 31 else selectTap (tapsOf g) := by
  rw [s.calDone_tap, if_pos rfl, hg]

/-- Every tap good selects tap 0, and no tap good selects none (R197 (a), (h)). -/
theorem selectTap_tapsOf_allOnes : tapsOf 0xFFFFFFFF#32 ≠ [] ∧ selectTap (tapsOf 0xFFFFFFFF#32) = 0 := by decide

theorem tapsOf_zero : tapsOf 0 = [] := by decide

/-- Settles O44: the maps are all ones or all zeros, and the selection follows from the map. -/
theorem caltapsExtremes : Obligations.CaltapsExtremes := by
  intro s chip expected c taken hp hc hs htaken
  obtain ⟨hexec, done⟩ := exec_caltaps expected (ctrl1Wf_of_wf hp) hc hs
  have hbit (lane : Fin 4) (j : Fin 32) := s.calDone_good_capture c expected lane j (htaken j)
  refine ⟨fun hright => ⟨_, hexec, done, fun lane => ?_⟩, fun hwrong => ⟨_, hexec, done, fun lane => ?_⟩⟩
  · have hrow (j : Fin 32) (r : Nat) (hr : r < 8) : (taken j).rowErrors s.params.byteOrder c r expected = 0 :=
      ((taken j).rowErrors_eq_zero_iff _ c r expected).mpr fun col hcol => hright j ⟨128 * r + col, by omega⟩
    have hgood : (s.calDone c expected).res.good[lane] = BitVec.allOnes 32 := by
      refine BitVec.eq_of_getLsbD_eq fun j hj => ?_
      rw [BitVec.getLsbD_allOnes, decide_eq_true hj]
      exact (hbit lane ⟨j, hj⟩).mpr ⟨hrow ⟨j, hj⟩ _ (by omega), hrow ⟨j, hj⟩ _ (by omega)⟩
    obtain ⟨hne, hsel⟩ := selectTap_tapsOf_allOnes
    exact ⟨hgood, (State.calDone_tap_of_good hgood).trans ((if_neg hne).trans hsel)⟩
  · have hbad (j : Fin 32) : ¬ (taken j).GoodAt s.params.byteOrder c lane expected := fun ⟨heven, _⟩ => by
      obtain ⟨col, hcol⟩ := hwrong j lane
      exact hcol (((taken j).rowErrors_eq_zero_iff _ c lane expected).mp heven col col.isLt)
    have hgood : (s.calDone c expected).res.good[lane] = 0 := by
      refine BitVec.eq_of_getLsbD_eq fun j hj => ?_
      rw [BitVec.ofNat_eq_ofNat, BitVec.getLsbD_zero, Bool.eq_false_iff]
      exact fun h => hbad ⟨j, hj⟩ ((hbit lane ⟨j, hj⟩).mp h)
    exact ⟨hgood, (State.calDone_tap_of_good hgood).trans (if_pos tapsOf_zero)⟩

end Sys2Proof.Machine
end

section
/-! SUPPORT. The operations of CAL, whatever its captures (R219). -/

namespace Sys2Proof.Machine

/-- The operations of CAL up to its synchronisation: the deskew pattern, the sweep and the selection of each chip by its own maps,
the sync pattern (R219). -/
def calTraceToSync (p : Params) (csmask : BitVec 4) (good : Fin 4 → Vector (BitVec 32) 4) : List TOp :=
  patternTrace p csmask .deskew ++ (List.finRange 4).flatMap (fun c => sweepTrace p c ++ selectTrace p c (good c)) ++
    patternTrace p csmask .sync

/-- The two patterns of CAL frame its sweeps (R219). -/
theorem calHalves_of_setPatterns {d e : Sample} {s m m3 : State} (hp : s.params.Wf) (h1 : setPattern .deskew s = .go m)
    (h3 : setPattern .sync (m.calibratedAll d) = .go m3) (hparams : (m.calibratedAll d).params = s.params)
    (hcaps : (m.calibratedAll d).env.captures = s.env.captures.drop 128) : CalHalves d e s m (m3.forSync e) := by
  have hw : s.params.Ctrl0Wf := ctrl0Wf_of_wf hp
  obtain ⟨hparams1, -, -, hcaps1, -, -, hchips1⟩ := setPattern_keeps h1
  obtain ⟨hparams3, -, hres3, hcaps3, -, -, hchips3⟩ := setPattern_keeps h3
  rw [hparams] at hparams3 hchips3
  exact
    { sweepParams := hparams1
      sweepCaptures := hcaps1
      syncParams := hparams3
      syncCaptures := hcaps3.trans hcaps
      expect := rfl
      res := hres3
      tap := fun c => (hchips3 hw c).1
      slip := fun c => (hchips3 hw c).2.trans ((m.calibratedAll_chip d c).2.trans (hchips1 hw c).2) }

/-- A completed CAL is its halves, and its operations up to the synchronisation are those of its patterns and sweeps. -/
theorem calibrate_halves_port {d e : Sample} {s t : State} (hp : s.params.Wf) (h : calibrate d e s = .go t) :
    ∃ m q, CalHalves d e s m q ∧ t = q.syncedFour ∧
      q.port = (calTraceToSync s.params s.csmask (m.calGood d)).reverse ++ s.port := by
  obtain ⟨m, m3, h1, h3, rfl, hparams, hmask, hcaps⟩ := calibrate_eq_go (ctrl1Wf_of_wf hp) h
  obtain ⟨hparams1, -, -, -, hport1, -⟩ := setPattern_keeps h1
  obtain ⟨-, -, -, -, hport3, -⟩ := setPattern_keeps h3
  refine ⟨m, m3.forSync e, calHalves_of_setPatterns hp h1 h3 hparams hcaps,
    by rw [State.syncedFour, show chipsIn 0b1111 = List.finRange 4 by decide], ?_⟩
  calc m3.port
      = (patternTrace s.params s.csmask .sync).reverse ++ (m.calibratedAll d).port := by rw [hport3, hparams, hmask]
    _ = _ := by
      rw [m.calibratedAll_port, hparams1, hport1, calTraceToSync, List.reverse_append, List.reverse_append, List.append_assoc,
        List.append_assoc]

/-- Settles O51: the trace of CAL's halves, the maps of its four sweeps and the pulses of its synchronisation. -/
theorem calTrace : Obligations.CalTrace := by
  intro s deskewExpected syncExpected hp hs
  obtain ⟨t, hbody, hexec, done⟩ := exec_completes (i := .cal deskewExpected syncExpected) rfl hs
  obtain ⟨m, q, hv, rfl, hport⟩ := calibrate_halves_port (s := s.beginCommand) (t := t) hp hbody
  obtain ⟨pulses, hle, hslip, hsync⟩ := q.syncedAll_trace (List.finRange 4) (List.nodup_finRange 4)
  refine ⟨_, m.calGood deskewExpected, pulses, hexec, done, hv.syncedFour_good.symm, ?_, fun c lane j k hk => hv.good_iff c lane j hk,
    fun c => ⟨hle c, ?_, hv.syncedFour_tap c⟩⟩
  · rw [hv.syncParams, hport, ← List.append_assoc, ← List.reverse_append] at hsync
    exact hsync
  · exact (hslip c (List.mem_finRange c)).trans (congrArg (· + pulses c) (hv.slip c))

end Sys2Proof.Machine
end

section
/-! SUPPORT. BITSLIP from start to end (R211), and the operations of SYNC, whatever its captures (R213 to R215). -/

namespace Sys2Proof.Machine

/-- Settles O35: the pulse that a completed BITSLIP has issued slips the chips of its word. -/
theorem bitslipPulsesItsChips : Obligations.BitslipPulsesItsChips := by
  intro s chips set hp hset hs
  obtain ⟨hvalid, hlow⟩ := chips_fields hset
  obtain ⟨m, -, hexec, done⟩ := exec_completes (i := .bitslip chips) (decide_eq_true hvalid) hs
  have ht := exec_bitslip_completed (ctrl1Wf_of_wf hp) hexec done.cp
  rw [hlow] at ht
  refine ⟨_, hexec, done, ?_⟩
  rw [ht]
  exact ⟨rfl, fun c => congrArg Chip.slip (slipChips_chip set s.dev.chips c)⟩

/-- Settles O47: the pulses of each chip are those its own loop issues, and only the chips of the set have such a loop. -/
theorem syncTrace : Obligations.SyncTrace := by
  intro s chips set expected hp hset hs
  obtain ⟨hexec, done⟩ := exec_sync expected (ctrl1Wf_of_wf hp) hset hs
  obtain ⟨pulses, hle, hin, hport⟩ :=
    State.syncedAll_trace (chipsIn set) (nodup_chipsIn set) (s.beginCommand.forSync expected)
  refine ⟨_, pulses, hexec, done, rfl, hport, fun c => ⟨hle c, syncChipTrace_length s.params c (pulses c) (hle c), ?_⟩⟩
  rw [State.syncDone_dev]
  split
  case isTrue hc => exact hin c (mem_chipsIn.mpr hc)
  case isFalse hc =>
    obtain ⟨-, -, -, -, hout⟩ := State.syncedAll_chip (chipsIn set) (s.beginCommand.forSync expected) c
    exact hout (mt mem_chipsIn.mp hc)

end Sys2Proof.Machine
end

section
/-! SUPPORT. The stop of a halted sequencer (R237), and the order of the decoder and the chip check (R235). -/

namespace Sys2Proof.Machine

/-- Settles O8: HALT is looked at before anything is fetched (R237). -/
theorem haltedSequencerHasNoStep : Obligations.HaltedSequencerHasNoStep := by
  intro s hr hh
  rw [step, hr, if_neg Bool.false_ne_true, if_pos hh]

/-- The BITSLIP word with reserved bit 0 set and chip 4 named is no command (R91, R98). -/
theorem decode_bitslip_reservedBit : decode 0x07100001 = .error .reservedBit := rfl

/-- Settles O19: the decoder rejects the word, so the step is the refusal with IllegalCommand and no chip is looked at. -/
theorem decodeComesBeforeTheChipCheck : Obligations.DecodeComesBeforeTheChipCheck := by
  intro s hr hh hf
  have hstep : step s = .next (s.refuse .illegalCommand) :=
    (step_of_fetch hr hh hf).trans (runWord_of_error decode_bitslip_reservedBit s)
  exact ⟨s.refuse .illegalCommand, hstep, s.refuse_faults .illegalCommand, s.refuse_dev .illegalCommand, s.refuse_port .illegalCommand⟩

end Sys2Proof.Machine
end

section
/-! SUPPORT. Reset: between two commands, at the boundary of an operation inside one, and the state after it (R260 to R263). -/

namespace Sys2Proof.Machine

/-- An asserted reset is taken whatever HALT and `cp` hold (R260). -/
theorem step_of_resetLine {s : State} (h : s.env.resetLine = true) : step s = .next s.hostReset := if_pos h

/-- Settles O10: the step is the host's reset, which writes the sequencer's registers and takes the reset input back. -/
theorem assertedResetComesFirst : Obligations.AssertedResetComesFirst := fun s h =>
  ⟨s.hostReset, step_of_resetLine h, s.hostReset_atReset, s.hostReset_port, s.hostReset_dev, s.hostReset_prog, s.hostReset_params, rfl⟩

/-- The machine right after reset is one that a reset leaves as it is. -/
theorem State.reset_hostReset : State.reset.hostReset = State.reset := rfl

theorem State.reset_atReset : State.reset.AtReset := by
  rw [← State.reset_hostReset]
  exact State.reset.hostReset_atReset

/-- Settles O11: every register R261 names starts at its value, and the port's history starts empty. -/
theorem resetStateIsAtReset : Obligations.ResetStateIsAtReset :=
  ⟨State.reset_atReset, ⟨State.reset_atReset.halt, rfl⟩, rfl, State.reset_atReset.cp, rfl, rfl, rfl⟩

/-- Settles O21: a completed command has no operation k, an abandoned one stopped at operation k, and reset came before it. -/
theorem resetAbandonsTheCommand : Obligations.ResetAbandonsTheCommand := by
  intro i s k hp hw hs hreset
  have hk (op : TOp) : s.answerAt k op ≠ .completes := by
    rw [hreset op]
    exact PortAnswer.noConfusion
  by_cases hm : ∃ mask, i = .setcs mask
  · obtain ⟨mask, rfl⟩ := hm
    exact ⟨_, [], exec_setcs mask s, rfl, rfl, rfl, rfl, .inl ⟨Nat.zero_le k, Nat.zero_le k, completed_setcs mask s⟩⟩
  obtain ⟨n, m, hmin, -, -, ran, hexec⟩ | ⟨n, t, -, -, failed | reset, hexec⟩ := exec_cases hw (fun mask e => hm ⟨mask, e⟩) s
  · have hle : n ≤ k := State.completed_le hk ran.answered
    obtain ⟨ops, hlen, ⟨hport, -⟩, hworld⟩ := ran.port.issued (s := s.beginCommand) hp
    exact ⟨_, ops, hexec, hport, hworld, ran.params, ran.prog, .inl ⟨by omega, by omega, completed_of_ran ran⟩⟩
  · obtain ⟨op, b, hop⟩ := failed.answer
    obtain rfl : n = k := State.abandoned_index hs hk failed.answered ⟨op, fun h => nomatch hop.symm.trans h⟩
    exact nomatch hop.symm.trans (hreset op)
  · obtain ⟨op, hop⟩ := reset.answer
    obtain rfl : n = k := State.abandoned_index hs hk reset.answered ⟨op, fun h => nomatch hop.symm.trans h⟩
    obtain ⟨ops, hlen, ⟨hport, -⟩, hworld⟩ := reset.port.issued (s := s.beginCommand) hp
    exact ⟨_, ops, hexec, hport, hworld, reset.params, reset.prog, .inr ⟨atReset_of_resetAt reset, hlen⟩⟩

end Sys2Proof.Machine
end

section
/-! SUPPORT. The sample words of 95_test_vectors.md section 2.1 (R92 to R99). -/

namespace Sys2Proof.Machine

/-- The SETPAT word with kind 6 is no command (R95). -/
theorem decode_setpat_unknownKind : decode 0x03000006 = .error .unknownKind := rfl

/-- Settles O4: each of the ten words is the word of its command, which the decoder reads back; the other three break a format rule each. -/
theorem sampleWords : Obligations.SampleWords :=
  ⟨decodeOfEncode (.setcs 0b0101), decodeOfEncode (.wrreg 0xA5 0x3C5A), decodeOfEncode .setpatDeskew,
    decodeOfEncode (.setfmt true false), decodeOfEncode (.snap 0b101 2), decodeOfEncode (.dlytap 1 200 0b0010),
    decodeOfEncode (.bitslip 0b100), decodeOfEncode (.caltaps 3 0xD5), decodeOfEncode (.sync 0b1010 0x70),
    decodeOfEncode (.cal 0x2A 0x70), decode_unknownOp (by decide), decode_bitslip_reservedBit, decode_setpat_unknownKind⟩

end Sys2Proof.Machine
end
